-- ==== Sys2Proof/Word.lean ====
section
/-! DEFINITION. The words PFC computes with: a byte, a Color, a YUV triple, an RGB triple, and the four plane slots of
a Buffer Descriptor. Plain data only; every operation on them stands in Machine/. -/

namespace Sys2Proof

/-- The unit of memory access and of every colour channel and sample (20_memory R64, 00_scope R8). -/
abbrev Byte := BitVec 8

/-- The engine's pixel value: four 8-bit channels (10_state R40). -/
structure Color where
  r : Byte
  g : Byte
  b : Byte
  a : Byte
  deriving DecidableEq, Repr, Inhabited

/-- A YUV triple, a type of its own with no alpha (10_state R41). -/
structure Yuv where
  y : Byte
  u : Byte
  v : Byte
  deriving DecidableEq, Repr, Inhabited

/-- The three colour channels `yuv2rgb` answers (41_pixel_codec R171). -/
structure Rgb where
  r : Byte
  g : Byte
  b : Byte
  deriving DecidableEq, Repr, Inhabited

/-- Four like things, numbered 0 to 3: the plane slots of a Buffer Descriptor (10_state R21). -/
structure Quad (α : Type) where
  p0 : α
  p1 : α
  p2 : α
  p3 : α
  deriving DecidableEq, Repr

end Sys2Proof
end

