-- ==== Sys2Proof/Syntax.lean ====
section
/-! DEFINITION. The commands of PFC (30_encoding R98): one constructor per row of spec/opcode_table.json. -/

namespace Sys2Proof

/-- The `SEL` field (30_encoding R92): which Buffer Descriptor a query works on. -/
inductive Sel where
  | src
  | dst
  deriving DecidableEq, Repr

/-- The `ALPHA` field (30_encoding R91): the explicit alpha direction of a conversion. -/
inductive AlphaMode where
  /-- 0, NONE: the two formats' flags decide. -/
  | none
  /-- 1, UNPREMUL. -/
  | unpremul
  /-- 2, PREMUL. -/
  | premul
  /-- 3, reserved: the conversion command is a no-op (R99). -/
  | reserved
  deriving DecidableEq, Repr

/-- The 17 commands (30_encoding R98). A command carries only the fields it reads; all its other operands are the
registers at acceptance (R90). -/
inductive Instr where
  | nop
  | conv1d (alpha : AlphaMode)
  | conv2d (alpha : AlphaMode)
  | fqSpace (sel : Sel)
  | fqAlpha (sel : Sel)
  | fqPa (sel : Sel)
  | fqPlanes (sel : Sel)
  | fqBps (sel : Sel)
  | fqByps (sel : Sel)
  | fqBpp (sel : Sel)
  | fqBypp (sel : Sel)
  | fqUid (sel : Sel)
  | fqIs420 (sel : Sel)
  | fqTwin (sel : Sel)
  | fqRgbeq (sel : Sel)
  | bdSize (sel : Sel)
  | bdNorm (sel : Sel)
  deriving DecidableEq, Repr

end Sys2Proof
end

