-- ==== Sys2Proof/WellFormed.lean ====
section
/-! DEFINITION. Which commands a host may write (30_encoding R99: "a later version may assign the reserved values, so a
host must not use them"). An ill-formed command still has a meaning: a conversion with the reserved `ALPHA` is a
no-op (R99). -/

namespace Sys2Proof

/-- The `ALPHA` values the host-script notation can write (30_encoding R103): all but the reserved one. -/
def AlphaMode.wellFormed : AlphaMode → Bool
  | .none => true
  | .unpremul => true
  | .premul => true
  | .reserved => false

/-- A command a host may write: its `ALPHA` field, where it has one, is assigned. -/
def Instr.wellFormed : Instr → Bool
  | .nop => true
  | .conv1d alpha => alpha.wellFormed
  | .conv2d alpha => alpha.wellFormed
  | .fqSpace _ => true
  | .fqAlpha _ => true
  | .fqPa _ => true
  | .fqPlanes _ => true
  | .fqBps _ => true
  | .fqByps _ => true
  | .fqBpp _ => true
  | .fqBypp _ => true
  | .fqUid _ => true
  | .fqIs420 _ => true
  | .fqTwin _ => true
  | .fqRgbeq _ => true
  | .bdSize _ => true
  | .bdNorm _ => true

end Sys2Proof
end

