-- ==== Sys2Proof/Decode.lean ====
section
/-! DEFINITION. The decoder of a command word, total on every word, rejecting a reserved `OP` by name; then the
encoder, from the same table (30_encoding R90 to R92, R98). -/

namespace Sys2Proof

/-- Why a command word is not one of the 17 commands. -/
inductive DecodeError where
  /-- `OP` is not assigned (30_encoding R99). -/
  | reservedOp (op : BitVec 8)
  deriving DecidableEq, Repr

/-- The two `ALPHA` bits (30_encoding R91). -/
def alphaOfBits (w : BitVec 2) : AlphaMode :=
  if w = 0#2 then .none else if w = 1#2 then .unpremul else if w = 2#2 then .premul else .reserved

/-- The `SEL` bit (30_encoding R92). -/
def selOfBit (b : Bool) : Sel := if b then .dst else .src

/-- The `ALPHA` bits of a direction (30_encoding R91). -/
def alphaBits : AlphaMode → BitVec 2
  | .none => 0#2
  | .unpremul => 1#2
  | .premul => 2#2
  | .reserved => 3#2

/-- The `SEL` bit of a descriptor choice (30_encoding R92). -/
def selBit : Sel → BitVec 1
  | .src => 0#1
  | .dst => 1#1

/-- Field `OP`, bits 7:0 of a command word (30_encoding R90). -/
def opField (w : BitVec 11) : BitVec 8 := w.extractLsb' 0 8

/-- Field `ALPHA`, bits 9:8 (30_encoding R90). -/
def alphaField (w : BitVec 11) : AlphaMode := alphaOfBits (w.extractLsb' 8 2)

/-- Field `SEL`, bit 10 (30_encoding R90). -/
def selField (w : BitVec 11) : Sel := selOfBit (w.getLsbD 10)

/-- The command a word's `OP` selects, with the fields that command reads (30_encoding R98): every unread field is
dropped here, once. -/
def decode (w : BitVec 11) : Except DecodeError Instr :=
  let alpha := alphaField w
  let sel := selField w
  match (opField w).toNat with
  | 0x00 => .ok .nop
  | 0x01 => .ok (.conv1d alpha)
  | 0x02 => .ok (.conv2d alpha)
  | 0x10 => .ok (.fqSpace sel)
  | 0x11 => .ok (.fqAlpha sel)
  | 0x12 => .ok (.fqPa sel)
  | 0x13 => .ok (.fqPlanes sel)
  | 0x14 => .ok (.fqBps sel)
  | 0x15 => .ok (.fqByps sel)
  | 0x16 => .ok (.fqBpp sel)
  | 0x17 => .ok (.fqBypp sel)
  | 0x18 => .ok (.fqUid sel)
  | 0x19 => .ok (.fqIs420 sel)
  | 0x1A => .ok (.fqTwin sel)
  | 0x1B => .ok (.fqRgbeq sel)
  | 0x20 => .ok (.bdSize sel)
  | 0x21 => .ok (.bdNorm sel)
  | _ => .error (.reservedOp (opField w))

/-- The low 11 bits of the 64-bit value a host writes to `CMD`; bits 63 to 11 are ignored (10_state R26). -/
def commandWord (v : BitVec 64) : BitVec 11 := v.extractLsb' 0 11

/-- The command a 64-bit value written to `CMD` starts (10_state R26, 30_encoding R90). -/
def decodeWritten (v : BitVec 64) : Except DecodeError Instr := decode (commandWord v)

/-- The `OP` of each command (30_encoding R98). -/
def Instr.op : Instr → BitVec 8
  | .nop => 0x00#8
  | .conv1d _ => 0x01#8
  | .conv2d _ => 0x02#8
  | .fqSpace _ => 0x10#8
  | .fqAlpha _ => 0x11#8
  | .fqPa _ => 0x12#8
  | .fqPlanes _ => 0x13#8
  | .fqBps _ => 0x14#8
  | .fqByps _ => 0x15#8
  | .fqBpp _ => 0x16#8
  | .fqBypp _ => 0x17#8
  | .fqUid _ => 0x18#8
  | .fqIs420 _ => 0x19#8
  | .fqTwin _ => 0x1A#8
  | .fqRgbeq _ => 0x1B#8
  | .bdSize _ => 0x20#8
  | .bdNorm _ => 0x21#8

/-- A command word from its three fields, `SEL` above `ALPHA` above `OP` (30_encoding R90). -/
def packWord (sel : BitVec 1) (alpha : BitVec 2) (op : BitVec 8) : BitVec 11 := sel ++ alpha ++ op

/-- The command word of a command, unread fields 0 (30_encoding R98, R103). -/
def encode (i : Instr) : BitVec 11 :=
  match i with
  | .nop => packWord 0#1 0#2 i.op
  | .conv1d alpha => packWord 0#1 (alphaBits alpha) i.op
  | .conv2d alpha => packWord 0#1 (alphaBits alpha) i.op
  | .fqSpace sel => packWord (selBit sel) 0#2 i.op
  | .fqAlpha sel => packWord (selBit sel) 0#2 i.op
  | .fqPa sel => packWord (selBit sel) 0#2 i.op
  | .fqPlanes sel => packWord (selBit sel) 0#2 i.op
  | .fqBps sel => packWord (selBit sel) 0#2 i.op
  | .fqByps sel => packWord (selBit sel) 0#2 i.op
  | .fqBpp sel => packWord (selBit sel) 0#2 i.op
  | .fqBypp sel => packWord (selBit sel) 0#2 i.op
  | .fqUid sel => packWord (selBit sel) 0#2 i.op
  | .fqIs420 sel => packWord (selBit sel) 0#2 i.op
  | .fqTwin sel => packWord (selBit sel) 0#2 i.op
  | .fqRgbeq sel => packWord (selBit sel) 0#2 i.op
  | .bdSize sel => packWord (selBit sel) 0#2 i.op
  | .bdNorm sel => packWord (selBit sel) 0#2 i.op

/-- The bits of a written value the command reads (30_encoding R98, column "fields read"): `OP` always, `ALPHA` for
the conversions, `SEL` for the queries. -/
def readMask : Instr → BitVec 64
  | .nop => 0x0FF#64
  | .conv1d _ => 0x3FF#64
  | .conv2d _ => 0x3FF#64
  | .fqSpace _ => 0x4FF#64
  | .fqAlpha _ => 0x4FF#64
  | .fqPa _ => 0x4FF#64
  | .fqPlanes _ => 0x4FF#64
  | .fqBps _ => 0x4FF#64
  | .fqByps _ => 0x4FF#64
  | .fqBpp _ => 0x4FF#64
  | .fqBypp _ => 0x4FF#64
  | .fqUid _ => 0x4FF#64
  | .fqIs420 _ => 0x4FF#64
  | .fqTwin _ => 0x4FF#64
  | .fqRgbeq _ => 0x4FF#64
  | .bdSize _ => 0x4FF#64
  | .bdNorm _ => 0x4FF#64

/-- The instruction the decoder reads from a word numbered as the opcode table numbers it: the low `nbits` bits of
`w`, every bit above them 0. A command word is one write of one register, so there is no byte order to lay out. -/
def decodeTableWord (nbits w : Nat) : Option Instr :=
  match decodeWritten (BitVec.ofNat 64 (w % 2 ^ nbits)) with
  | .ok i => some i
  | .error _ => none

end Sys2Proof
end

