-- ==== Sys2Proof/Config.lean ====
section
/-! DEFINITION. What a platform fixes (00_scope R8: `AW`, `REG_BASE`, `N_ENGINES`, `CSC_MATRIX`, and the admission of
addresses, 20_memory R68), as plain data a state carries; and the opaque constants behind what the spec leaves open. -/

namespace Sys2Proof

/-- Which `CSC_MATRIX` the engine has (00_scope R8, 41_pixel_codec R170 to R172). -/
inductive CscMatrix where
  /-- The default instance of R172, which the spec marks as general knowledge (G1). -/
  | bt601
  /-- The matrix of chip number `id`: of it only R170 and R171 may be assumed (total, 8-bit outputs, a function of
  the three inputs alone). -/
  | chip (id : Nat)
  deriving DecidableEq, Repr

/-- One range of addresses the platform backs with memory, and what PFC may do there (20_memory R68). -/
structure Region where
  base : Nat
  size : Nat
  readable : Bool
  writable : Bool
  deriving DecidableEq, Repr

/-- The parameters of 00_scope R8 that are not fixed by the spec, and the platform's admission map (20_memory R68).
`N_ENGINES` is one more than the number of other engines; each other engine appears by the base of its register
region only (60_exceptions R281). -/
structure Platform where
  aw : Nat
  regBase : Option Nat
  otherRegBases : List Nat
  regions : List Region
  csc : CscMatrix
  deriving DecidableEq, Repr

/-- The platform of `State.reset`: `AW` = 64, one engine and the default matrix are the spec's defaults (R8); that no
register region is mapped and that all of the address space is memory are DESIGN CHOICES (log entries 5 and 7). -/
def Platform.standard : Platform :=
  { aw := 64
    regBase := none
    otherRegBases := []
    regions := [{ base := 0, size := 2 ^ 64, readable := true, writable := true }]
    csc := .bt601 }

/-- The bound R8 puts on `AW`, and the natural alignment R33 gives the register region. -/
abbrev Platform.Valid (p : Platform) : Prop :=
  16 ≤ p.aw ∧ p.aw ≤ 64 ∧ ∀ b ∈ p.regBase, b % 8 = 0

/-- `rgb2yuv` of chip number `id` (R170): nothing is known of its values. -/
opaque Config.chipRgb2yuv : Nat → Byte → Byte → Byte → Yuv

/-- `yuv2rgb` of chip number `id` (R171): nothing is known of its values. -/
opaque Config.chipYuv2rgb : Nat → Byte → Byte → Byte → Rgb

/-- FREE VALUE (70_reset_and_hazards R291, U7; log entry 11): the byte at an address of `DstFoot` after a reset that
abandons a command, for the value of `State.freeCount` at that reset. -/
opaque Config.abandonedByte : Nat → Nat → Byte

end Sys2Proof
end

