-- ==== Sys2Proof/Machine/State.lean ====
section
/-! DEFINITION. The state of one PFC engine and of the world it shares (10_state R20 to R33, R42; 20_memory R60), as
plain data; the reasons a step can stop; the state after reset (10_state R44, 70_reset_and_hazards R290). -/

namespace Sys2Proof.Machine

/-- Memory: (address, byte) pairs, addresses strictly rising, no pair holding what an unlisted address reads as
(`Memory.unlisted`, log entry 1). -/
abbrev Memory := List Host.Cell

/-- A Buffer Descriptor as the register file holds it (10_state R21): a format identifier and four plane slots. -/
structure Descriptor where
  /-- `SRC_FMT` or `DST_FMT` (R27). -/
  fmt : BitVec 32
  /-- `SRC_PTR0..3` or `DST_PTR0..3` (R29): `AW` bits each, the bits above them 0. -/
  ptr : Quad (BitVec 64)
  /-- `SRC_STRIDE0..3` or `DST_STRIDE0..3` (R30): 32-bit two's complement. -/
  stride : Quad (BitVec 32)
  deriving DecidableEq, Repr

/-- The registers by name (10_state R22); `reserved` stands for number 7 and numbers 24 to 31. -/
inductive Reg where
  | cmd
  | status
  | result
  | width
  | height
  | srcFmt
  | dstFmt
  | srcPtr (k : Fin 4)
  | srcStride (k : Fin 4)
  | dstPtr (k : Fin 4)
  | dstStride (k : Fin 4)
  | reserved
  deriving DecidableEq, Repr

/-- The operands a command samples from the registers at its acceptance (10_state R42, 70_reset_and_hazards R293). -/
structure Operands where
  cmd : BitVec 11
  width : BitVec 32
  height : BitVec 32
  src : Descriptor
  dst : Descriptor
  deriving DecidableEq, Repr

/-- What one agent does next: the engine's turn, an access of the host or of another memory agent, the platform's
reset, or a withdrawal of memory (00_scope R12). -/
inductive Event where
  /-- The engine's turn: a busy engine executes its command, an idle one holds (60_exceptions R283). -/
  | engine
  /-- `RegRead(n)` (10_state R32). -/
  | regRead (n : Fin 32)
  /-- `RegWrite(n, v)` (10_state R32). -/
  | regWrite (n : Fin 32) (v : BitVec 64)
  /-- A bus read of `size` bytes at `addr`, in the mapped register region (10_state R33). -/
  | busRead (addr size : Nat)
  /-- A bus write of `size` bytes at `addr`, in the mapped register region (10_state R33). -/
  | busWrite (addr size : Nat) (v : BitVec 64)
  /-- A read of one byte of memory by an agent other than the engine (00_scope R11, R12; 20_memory R64, log entry
  19). -/
  | memRead (addr : Nat)
  /-- A write of one byte of memory by an agent other than the engine. -/
  | memWrite (addr : Nat) (v : Byte)
  /-- The platform's reset (70_reset_and_hazards R290, R291). -/
  | reset
  /-- The host frees or unmaps what region number `i` of the admission map backs (70_reset_and_hazards R300). -/
  | unmap (i : Nat)
  deriving DecidableEq, Repr

/-- Everything the spec gives the machine, with the platform's parameters and the model's own bookkeeping. -/
structure State where
  /-- Register 0, `CMD` (10_state R26). -/
  cmd : BitVec 11
  /-- Register 1, `STATUS`: bit 0 `BUSY`, bit 1 `DONE` (R25). -/
  status : BitVec 2
  /-- Register 2, `RESULT` (R31). -/
  result : BitVec 64
  /-- Register 3, `WIDTH` (R28). -/
  width : BitVec 32
  /-- Register 4, `HEIGHT` (R28). -/
  height : BitVec 32
  /-- The source descriptor: registers 5, 8 to 15 (R21, R22). -/
  src : Descriptor
  /-- The destination descriptor: registers 6, 16 to 23 (R21, R22). -/
  dst : Descriptor
  /-- The memory PFC shares with the other agents (20_memory R60). -/
  mem : Memory
  /-- Hidden state (R42): the operands of every command accepted and not yet observed complete, oldest first: the span
  of the exclusivity contract (20_memory R73). -/
  window : List Operands
  /-- The model's own: what the agents do next, oldest first (log entry 9). -/
  schedule : List Event
  /-- The model's own: what the last read of the host or of an agent returned (log entry 10). -/
  readData : BitVec 64
  /-- The model's own: the counter behind the free bytes of 70_reset_and_hazards R291 (log entry 11). -/
  freeCount : Nat
  /-- The platform's parameters (00_scope R8); no command changes them, and only `Event.unmap` narrows the admission
  map. -/
  platform : Platform
  deriving DecidableEq, Repr

/-- Why the machine is stuck. PFC itself raises nothing (60_exceptions R271). -/
inductive Fault where
  /-- Raised by a conversion command that would access an address the platform does not admit (20_memory R68, 93 U3):
  the command never completes. SAFE: the run has no further step, so nothing can be proved of what follows (log entry
  14). -/
  | neverCompletes
  deriving DecidableEq, Repr

/-- Why a run is given no meaning. -/
inductive Refusal where
  /-- Raised by `exec`'s arm of a command that has no meaning yet. SAFE: nothing is claimed of it. -/
  | notModelled (mnemonic : String)
  /-- Raised by a conversion command whose source and destination footprints overlap (20_memory R72 (a), 93 U1: the
  model refuses it). SAFE. -/
  | aliasedFootprints
  /-- Raised by a conversion command two of whose destination rows overlap (20_memory R72 (b), 93 U1). SAFE. -/
  | overlappingDestinationRows
  /-- Raised by a memory access of another agent that breaks the exclusivity contract (20_memory R73, 93 U2; log
  entry 15). SAFE. -/
  | dataRace
  /-- Raised by a bus access to the register region that is not an aligned 64-bit one : narrower or misaligned
  (10_state R33, 93 U12: a model refuses them), or wider (DESIGN CHOICE, log entry 20). SAFE. -/
  | registerAccessShape
  /-- Raised by a bus access to an address where this engine has no register (10_state R32, R33: no rule gives it a
  meaning, log entry 18). SAFE. -/
  | noRegisterThere
  /-- Raised by a memory access of another agent to an address that is not memory: not a step of PFC, and no rule gives
  it a meaning (20_memory R68, log entry 18). SAFE. -/
  | agentOutsideMemory
  deriving DecidableEq, Repr

/-- A descriptor with every register 0 (10_state R44). -/
def Descriptor.zero : Descriptor :=
  { fmt := 0
    ptr := { p0 := 0, p1 := 0, p2 := 0, p3 := 0 }
    stride := { p0 := 0, p1 := 0, p2 := 0, p3 := 0 } }

/-- The machine right after reset (10_state R44, 70_reset_and_hazards R290): every register 0, no command in progress,
memory with nothing listed, nothing scheduled, the standard platform. -/
def State.reset : State :=
  { cmd := 0
    status := 0
    result := 0
    width := 0
    height := 0
    src := Descriptor.zero
    dst := Descriptor.zero
    mem := []
    window := []
    schedule := []
    readData := 0
    freeCount := 0
    platform := Platform.standard }

end Sys2Proof.Machine
end

