-- ==== Sys2Proof/Machine/Ops.lean ====
section
/-! DEFINITION. The named operations over memory, plane slots and addresses. PFC takes no exception and returns from none
(60_exceptions R270, R275, R276), so there is no operation for either. -/

namespace Sys2Proof

/-! ### Plane slots -/

/-- Plane slot `k` (10_state R22). -/
def Quad.get {α : Type} (q : Quad α) (k : Fin 4) : α :=
  match k with
  | 0 => q.p0
  | 1 => q.p1
  | 2 => q.p2
  | 3 => q.p3

/-- The slots with slot `k` replaced. -/
def Quad.set {α : Type} (q : Quad α) (k : Fin 4) (v : α) : Quad α :=
  match k with
  | 0 => { q with p0 := v }
  | 1 => { q with p1 := v }
  | 2 => { q with p2 := v }
  | 3 => { q with p3 := v }

/-- The plane indices below `n`, in rising order. -/
def planeIndices (n : Nat) : List (Fin 4) := ([0, 1, 2, 3] : List (Fin 4)).filter fun k => k.val < n

/-! ### Admission (20_memory R60, R68; 70_reset_and_hazards R301) -/

/-- Whether an address lies in the register region at `base` (10_state R33: 256 bytes). -/
def inRegisterRegion (base : Nat) (a : Nat) : Bool := decide (base ≤ a) && decide (a < base + 256)

/-- Whether an address lies in some engine's register region (70_reset_and_hazards R301). -/
def Platform.inAnyRegisterRegion (p : Platform) (a : Nat) : Bool :=
  (match p.regBase with
   | none => false
   | some b => inRegisterRegion b a) || p.otherRegBases.any fun b => inRegisterRegion b a

/-- Whether a region backs an address. -/
def Region.backs (r : Region) (a : Nat) : Bool := decide (r.base ≤ a) && decide (a < r.base + r.size)

/-- Whether a computed address names a byte of memory at all: within 0 to 2^AW - 1 (20_memory R66) and outside every
register region (10_state R33). -/
def Platform.namesByte (p : Platform) (a : Int) : Bool :=
  decide (0 ≤ a) && decide (a.toNat < 2 ^ p.aw) && !(Platform.inAnyRegisterRegion p a.toNat)

/-- Whether the platform admits a read of PFC at an address (20_memory R68). -/
def Platform.admitsRead (p : Platform) (a : Int) : Bool :=
  Platform.namesByte p a && p.regions.any fun r => r.readable && r.backs a.toNat

/-- Whether the platform admits a write of PFC at an address (20_memory R68). -/
def Platform.admitsWrite (p : Platform) (a : Int) : Bool :=
  Platform.namesByte p a && p.regions.any fun r => r.writable && r.backs a.toNat

/-- Whether an address is memory that another agent may access (20_memory R68). -/
def Platform.isMemory (p : Platform) (a : Nat) : Bool :=
  Platform.namesByte p (a : Int) && p.regions.any fun r => r.backs a

end Sys2Proof

namespace Sys2Proof.Machine

/-! ### Arithmetic (00_scope R10) -/

/-- `a >> n` on mathematical integers: floor of `a / 2^n`, negative `a` included (R10). -/
def shiftRight (a : Int) (n : Nat) : Int := a.fdiv ((2 ^ n : Nat) : Int)

/-- `clamp255` (R10), as a byte. -/
def clamp255 (v : Int) : Byte := if v < 0 then 0 else if 255 < v then 255 else BitVec.ofNat 8 v.toNat

/-! ### Memory (20_memory R60) -/

/-- What an address nothing has written reads as (log entry 1, DESIGN CHOICE, unsafe). -/
def Memory.unlisted : Byte := 0

/-- The byte at an address (00_scope R11, `MemRead(a, 1)`). -/
def Memory.read (m : Memory) (a : Nat) : Byte :=
  match m with
  | [] => Memory.unlisted
  | (k, v) :: rest => if k = a then v else Memory.read rest a

/-- Store one byte (00_scope R11, `MemWrite(a, 1, v)`), keeping the canonical form. -/
def Memory.write (m : Memory) (a : Nat) (v : Byte) : Memory :=
  match m with
  | [] => if v = Memory.unlisted then [] else [(a, v)]
  | (k, w) :: rest =>
    if a < k then
      if v = Memory.unlisted then (k, w) :: rest else (a, v) :: (k, w) :: rest
    else if a = k then
      if v = Memory.unlisted then rest else (a, v) :: rest
    else (k, w) :: Memory.write rest a v

/-- Store bytes one after another. -/
def Memory.writeAll (m : Memory) (ws : List (Nat × Byte)) : Memory :=
  match ws with
  | [] => m
  | (a, v) :: rest => Memory.writeAll (Memory.write m a v) rest

/-- The canonical form: addresses strictly rising, no byte equal to what an unlisted address reads as. -/
abbrev Memory.wf (m : Memory) : Prop :=
  (m.map Prod.fst).Pairwise (fun a b => a < b) ∧ ∀ c ∈ m, c.2 ≠ Memory.unlisted

/-- Every listed address lies below `2 ^ aw` (20_memory R60). -/
abbrev Memory.within (m : Memory) (aw : Nat) : Prop := ∀ c ∈ m, c.1 < 2 ^ aw

/-! ### Addresses -/

/-- The byte address of byte `off` of sample `x` of row `y` of a plane view (20_memory R66), a mathematical integer:
it does not wrap. -/
def addrOf (ptr : Nat) (ss : Nat) (rs : Int) (x y off : Nat) : Int :=
  (ptr : Int) + (y : Int) * rs + (x : Int) * (ss : Int) + (off : Int)

/-- One row of a footprint: `len` bytes from `start` (20_memory R70). -/
structure Row where
  start : Int
  len : Nat
  deriving DecidableEq, Repr

/-- Whether a row holds an address. -/
def Row.holds (r : Row) (a : Int) : Bool := decide (r.start ≤ a) && decide (a < r.start + (r.len : Int))

/-- The addresses of a row, rising. -/
def Row.addrs (r : Row) : List Int := (List.range r.len).map fun (i : Nat) => r.start + (i : Int)

/-- Two rows share no address (20_memory R72). -/
def Row.disjoint (r q : Row) : Bool :=
  decide (r.start + (r.len : Int) ≤ q.start) || decide (q.start + (q.len : Int) ≤ r.start) ||
    decide (r.len = 0) || decide (q.len = 0)

/-- Whether a footprint, given by its rows, holds an address. -/
def rowsHold (rows : List Row) (a : Int) : Bool := rows.any fun r => r.holds a

/-- No row of the one list shares an address with a row of the other (20_memory R72 (a)). -/
def rowsDisjoint (rs qs : List Row) : Bool := rs.all fun r => qs.all fun q => r.disjoint q

/-- The rows of the list share no address with one another (20_memory R72 (b)). -/
def rowsPairwiseDisjoint : List Row → Bool
  | [] => true
  | r :: rest => (rest.all fun q => r.disjoint q) && rowsPairwiseDisjoint rest

end Sys2Proof.Machine
end

