-- ==== Sys2Proof/Machine/Flags.lean ====
section
/-! DEFINITION. The two flags of `STATUS` and the protocol that moves them (10_state R25, R26). PFC has no other flag. -/

namespace Sys2Proof.Machine

/-- `STATUS` while a command runs: `BUSY` = 1, `DONE` = 0 (10_state R25). -/
def statusBusy : BitVec 2 := 1#2

/-- `STATUS` after a completion: `BUSY` = 0, `DONE` = 1 (10_state R25). -/
def statusDone : BitVec 2 := 2#2

/-- `STATUS.BUSY` (10_state R25, bit 0). -/
def State.busy (s : State) : Bool := s.status.getLsbD 0

/-- `STATUS.DONE` (10_state R25, bit 1). -/
def State.done (s : State) : Bool := s.status.getLsbD 1

/-- Completion (10_state R26): `BUSY <- 0; DONE <- 1`, and nothing else. -/
def State.complete (s : State) : State := { s with status := statusDone }

/-- Completion of a query command: `RESULT` is written in the same step as the flags (10_state R31,
60_exceptions R274 (c)). -/
def State.completeWith (s : State) (answer : BitVec 64) : State :=
  State.complete { s with result := answer }

end Sys2Proof.Machine
end

