-- ==== Sys2Proof/Machine/Format.lean ====
section
/-! DEFINITION. Format identifiers: the fields and queries of any 32-bit value (40_format_descriptor R121 to R132), the 23
recognised formats (30_encoding R96, R97), and the plane geometry of each (44_buffer_descriptor R250, R251). -/

namespace Sys2Proof.Machine

/-! ### Fields of any 32-bit identifier -/

/-- `space(f) = f[31:28]` (40_format_descriptor R121). -/
def fmtSpace (f : BitVec 32) : Nat := (f.extractLsb' 28 4).toNat

/-- `hasAlpha(f) = f[27]` (R122). -/
def fmtHasAlpha (f : BitVec 32) : Nat := (f.extractLsb' 27 1).toNat

/-- `isPA(f) = f[26]` (R123). -/
def fmtIsPa (f : BitVec 32) : Nat := (f.extractLsb' 26 1).toNat

/-- `planes(f) = f[25:24] + 1` (R124, 30_encoding R95). -/
def fmtPlanes (f : BitVec 32) : Nat := (f.extractLsb' 24 2).toNat + 1

/-- `bps(f) = f[23:16]` (R125). -/
def fmtBps (f : BitVec 32) : Nat := (f.extractLsb' 16 8).toNat

/-- `byps(f) = (bps(f) + 7) >> 3` (R126). -/
def fmtByps (f : BitVec 32) : Nat := (fmtBps f + 7) / 8

/-- `bpp(f) = f[15:8]` (R127). -/
def fmtBpp (f : BitVec 32) : Nat := (f.extractLsb' 8 8).toNat

/-- `bypp(f) = (bpp(f) + 7) >> 3` (R128). -/
def fmtBypp (f : BitVec 32) : Nat := (fmtBpp f + 7) / 8

/-- `uid(f) = f[7:0]` (R129). -/
def fmtUid (f : BitVec 32) : Nat := (f.extractLsb' 0 8).toNat

/-- `is420q(f)`: 1 when `space(f) = 2` and `bpp(f) = 12`, else 0 (R130). -/
def fmtIs420q (f : BitVec 32) : Nat := if fmtSpace f = 2 ∧ fmtBpp f = 12 then 1 else 0

/-- `twin(f)`: the same base layout with the opposite premultiplied flag, `f` itself where there is none (R131). -/
def fmtTwin (f : BitVec 32) : BitVec 32 :=
  if f = 0x18202001#32 then 0x1C202005#32
  else if f = 0x18202002#32 then 0x1C202006#32
  else if f = 0x18202003#32 then 0x1C202007#32
  else if f = 0x18202004#32 then 0x1C202008#32
  else if f = 0x1C202005#32 then 0x18202001#32
  else if f = 0x1C202006#32 then 0x18202002#32
  else if f = 0x1C202007#32 then 0x18202003#32
  else if f = 0x1C202008#32 then 0x18202004#32
  else if f = 0x1B082030#32 then 0x1F082031#32
  else if f = 0x1F082031#32 then 0x1B082030#32
  else f

/-- `rgbeq(f)`: the RGB-equivalent of a YUV format, `f` itself for every other value (R132). -/
def fmtRgbeq (f : BitVec 32) : BitVec 32 :=
  if f = 0x20181881#32 then 0x10181810#32
  else if f = 0x22080CB0#32 then 0x10181810#32
  else if f = 0x22080CB1#32 then 0x10181810#32
  else if f = 0x21080CB2#32 then 0x10181810#32
  else if f = 0x21080CB3#32 then 0x10181810#32
  else f

/-! ### The recognised formats -/

/-- The 19 full-resolution formats (30_encoding R96, R97 `fullres`). -/
inductive FullFmt where
  | rgba
  | bgra
  | argb
  | abgr
  | rgbaPa
  | bgraPa
  | argbPa
  | abgrPa
  | rgb
  | bgr
  | rgb565be
  | rgb565le
  | bgr565be
  | bgr565le
  | gray8
  | rgbaPlanar
  | rgbaPlanarPa
  | rgbPlanar
  | yuv444
  deriving DecidableEq, Repr

/-- The four 4:2:0 arrangements (30_encoding R96, 42_chroma_sampler R202 to R205). -/
inductive SubFmt where
  | i420
  | yv12
  | nv21
  | nv12
  deriving DecidableEq, Repr

/-- A recognised format: full resolution, with a codec, or 4:2:0, with chroma sites and no codec. -/
inductive Fmt where
  | full (f : FullFmt)
  | sub (f : SubFmt)
  deriving DecidableEq, Repr

/-- The identifiers of the full-resolution formats (30_encoding R96). -/
def FullFmt.ident : FullFmt → BitVec 32
  | .rgba => 0x18202001#32
  | .bgra => 0x18202002#32
  | .argb => 0x18202003#32
  | .abgr => 0x18202004#32
  | .rgbaPa => 0x1C202005#32
  | .bgraPa => 0x1C202006#32
  | .argbPa => 0x1C202007#32
  | .abgrPa => 0x1C202008#32
  | .rgb => 0x10181810#32
  | .bgr => 0x10181811#32
  | .rgb565be => 0x10101016#32
  | .rgb565le => 0x10101017#32
  | .bgr565be => 0x10101018#32
  | .bgr565le => 0x10101019#32
  | .gray8 => 0x10080820#32
  | .rgbaPlanar => 0x1B082030#32
  | .rgbaPlanarPa => 0x1F082031#32
  | .rgbPlanar => 0x12081832#32
  | .yuv444 => 0x20181881#32

/-- The identifiers of the 4:2:0 formats (30_encoding R96). -/
def SubFmt.ident : SubFmt → BitVec 32
  | .i420 => 0x22080CB0#32
  | .yv12 => 0x22080CB1#32
  | .nv21 => 0x21080CB2#32
  | .nv12 => 0x21080CB3#32

/-- The identifier of a recognised format (30_encoding R96). -/
def Fmt.ident : Fmt → BitVec 32
  | .full f => f.ident
  | .sub f => f.ident

/-- The 23 recognised formats in the table's order (30_encoding R96). -/
def Fmt.all : List Fmt :=
  [.full .rgba, .full .bgra, .full .argb, .full .abgr, .full .rgbaPa, .full .bgraPa, .full .argbPa, .full .abgrPa,
    .full .rgb, .full .bgr, .full .rgb565be, .full .rgb565le, .full .bgr565be, .full .bgr565le, .full .gray8,
    .full .rgbaPlanar, .full .rgbaPlanarPa, .full .rgbPlanar, .full .yuv444] ++
  [.sub .i420, .sub .yv12, .sub .nv21, .sub .nv12]

/-- The format an identifier names, by comparison of the whole 32-bit value (30_encoding R97); none where it is not
recognised, `NONE` (0) included. -/
def recognise (f : BitVec 32) : Option Fmt := Fmt.all.find? fun g => g.ident == f

/-- `recognised(f)` (30_encoding R97). -/
def recognised (f : BitVec 32) : Bool := (recognise f).isSome

/-- `is420(f)` (30_encoding R97); false on a value that is not recognised. -/
def is420 (f : BitVec 32) : Bool :=
  match recognise f with
  | some (.sub _) => true
  | some (.full _) => false
  | none => false

/-! ### Geometry -/

/-- `planes(F)` (30_encoding R95). -/
def Fmt.planes (F : Fmt) : Nat := fmtPlanes F.ident

/-- Whether a full-resolution format keeps one channel per plane (30_encoding R97 `planarRGB`). -/
def FullFmt.planar : FullFmt → Bool
  | .rgbaPlanar => true
  | .rgbaPlanarPa => true
  | .rgbPlanar => true
  | _ => false

/-- Bytes of one pixel in a one-plane format: `bypp(F)` (44_buffer_descriptor R250, 30_encoding R105). -/
def FullFmt.pixelBytes (F : FullFmt) : Nat := fmtBypp F.ident

/-- The sample stride `ss_k(F)` (44_buffer_descriptor R250). -/
def Fmt.sampleStride (F : Fmt) (k : Fin 4) : Nat :=
  match F with
  | .full f => if f.planar then 1 else f.pixelBytes
  | .sub .i420 => 1
  | .sub .yv12 => 1
  | .sub .nv21 => if k.val = 0 then 1 else 2
  | .sub .nv12 => if k.val = 0 then 1 else 2

/-- `RowBytes_k(F, W)` (44_buffer_descriptor R251), with `CW = W >> 1`. -/
def Fmt.rowBytes (F : Fmt) (k : Fin 4) (w : Nat) : Nat :=
  match F with
  | .full f => if f.planar then w else w * f.pixelBytes
  | .sub .i420 => if k.val = 0 then w else w / 2
  | .sub .yv12 => if k.val = 0 then w else w / 2
  | .sub .nv21 => if k.val = 0 then w else 2 * (w / 2)
  | .sub .nv12 => if k.val = 0 then w else 2 * (w / 2)

/-- `Rows_k(F, H)` (44_buffer_descriptor R251), with `CH = H >> 1`. -/
def Fmt.rowCount (F : Fmt) (k : Fin 4) (h : Nat) : Nat :=
  match F with
  | .full _ => h
  | .sub _ => if k.val = 0 then h else h / 2

/-- `scale_k(F)` (44_buffer_descriptor R260): 1 for a full-size plane, 4 for a planar chroma plane, 2 for a plane of
chroma pairs. -/
def Fmt.sizeScale (F : Fmt) (k : Fin 4) : Nat :=
  match F with
  | .full _ => 1
  | .sub .i420 => if k.val = 0 then 1 else 4
  | .sub .yv12 => if k.val = 0 then 1 else 4
  | .sub .nv21 => if k.val = 0 then 1 else 2
  | .sub .nv12 => if k.val = 0 then 1 else 2

/-- `NormStride(F, k, W, s)` (44_buffer_descriptor R253). -/
def normStride (F : Fmt) (k : Fin 4) (w : Nat) (s : Int) : Int :=
  if s = 0 then ((F.rowBytes k w : Nat) : Int) else s

/-- The size of the tightly packed buffer, before its reduction mod 2^64 (44_buffer_descriptor R260). -/
def tightSize (F : Fmt) (w h : Nat) : Nat :=
  let base := (fmtBps F.ident * w * h + 7) / 8
  ((planeIndices F.planes).map fun k => base / F.sizeScale k).sum

end Sys2Proof.Machine
end

