-- ==== Sys2Proof/Machine/Codec.lean ====
section
/-! DEFINITION. The Pixel Codec (41_pixel_codec): the colour matrix, the two alpha transforms and the choice between
them, and decode and encode of the 19 full-resolution formats. -/

namespace Sys2Proof.Machine

/-! ### The colour matrix (R170 to R172) -/

/-- `rgb2yuv` of the default instance (41_pixel_codec R172). -/
def bt601Rgb2yuv (r g b : Byte) : Yuv :=
  let r : Int := r.toNat
  let g : Int := g.toNat
  let b : Int := b.toNat
  { y := clamp255 (shiftRight (66 * r + 129 * g + 25 * b + 128) 8 + 16)
    u := clamp255 (shiftRight (-38 * r - 74 * g + 112 * b + 128) 8 + 128)
    v := clamp255 (shiftRight (112 * r - 94 * g - 18 * b + 128) 8 + 128) }

/-- `yuv2rgb` of the default instance (41_pixel_codec R172). -/
def bt601Yuv2rgb (y u v : Byte) : Rgb :=
  let c : Int := (y.toNat : Int) - 16
  let d : Int := (u.toNat : Int) - 128
  let e : Int := (v.toNat : Int) - 128
  { r := clamp255 (shiftRight (298 * c + 409 * e + 128) 8)
    g := clamp255 (shiftRight (298 * c - 100 * d - 208 * e + 128) 8)
    b := clamp255 (shiftRight (298 * c + 516 * d + 128) 8) }

/-- `rgb2yuv` of the engine's `CSC_MATRIX` (41_pixel_codec R170). -/
def rgb2yuv (m : CscMatrix) (r g b : Byte) : Yuv :=
  match m with
  | .bt601 => bt601Rgb2yuv r g b
  | .chip id => Config.chipRgb2yuv id r g b

/-- `yuv2rgb` of the engine's `CSC_MATRIX` (41_pixel_codec R171). -/
def yuv2rgb (m : CscMatrix) (y u v : Byte) : Rgb :=
  match m with
  | .bt601 => bt601Yuv2rgb y u v
  | .chip id => Config.chipYuv2rgb id y u v

/-! ### The alpha transforms (R174 to R176) -/

/-- One channel of `Premul`: `(p * (A + 1)) >> 8` (41_pixel_codec R174). -/
def premulChannel (p a : Byte) : Byte := BitVec.ofNat 8 (p.toNat * (a.toNat + 1) / 256)

/-- `Premul(c)` (41_pixel_codec R174). -/
def premul (c : Color) : Color :=
  { r := premulChannel c.r c.a, g := premulChannel c.g c.a, b := premulChannel c.b c.a, a := c.a }

/-- One channel of `Unpremul`: `clamp255((p * 256) / (A + 1))` (41_pixel_codec R175). -/
def unpremulChannel (p a : Byte) : Byte := clamp255 ((p.toNat * 256 / (a.toNat + 1) : Nat) : Int)

/-- `Unpremul(c)` (41_pixel_codec R175). -/
def unpremul (c : Color) : Color :=
  { r := unpremulChannel c.r c.a, g := unpremulChannel c.g c.a, b := unpremulChannel c.b c.a, a := c.a }

/-- The alpha operation of a conversion (41_pixel_codec R176): `N`, `U`, `P`. -/
inductive AlphaOp where
  | plain
  | unpremul
  | premul
  deriving DecidableEq, Repr

/-- `AlphaOp(SF, DF, mode)` on the two identifiers (41_pixel_codec R176). The reserved mode is never asked, since the
command is then a no-op. -/
def alphaOp (sf df : BitVec 32) (mode : AlphaMode) : AlphaOp :=
  match mode with
  | .unpremul => if fmtHasAlpha sf = 1 then .unpremul else .plain
  | .premul => if fmtHasAlpha df = 1 then .premul else .plain
  | .none =>
    if fmtIsPa sf = 1 ∧ fmtIsPa df = 0 then .unpremul
    else if fmtIsPa sf = 0 ∧ fmtIsPa df = 1 then .premul
    else .plain
  | .reserved => .plain

/-! ### The 5/6/5 word (R161) -/

/-- A 5-bit field widened by shifting, the low bits zero (41_pixel_codec R161). -/
def widen5 (q : BitVec 5) : Byte := q.setWidth 8 <<< 3

/-- The 6-bit field widened by shifting (41_pixel_codec R161). -/
def widen6 (q : BitVec 6) : Byte := q.setWidth 8 <<< 2

/-- The 16-bit value of three channels, each truncated to its field (41_pixel_codec R161, R162). -/
def pack565 (hi mid lo : Byte) : BitVec 16 :=
  (((hi >>> 3).setWidth 5 ++ (mid >>> 2).setWidth 6 : BitVec 11) ++ (lo >>> 3).setWidth 5 : BitVec 16)

/-- Field `hi` of a 5/6/5 word, widened (41_pixel_codec R161). -/
def hi565 (v : BitVec 16) : Byte := widen5 (v.extractLsb' 11 5)

/-- Field `mid` of a 5/6/5 word, widened (41_pixel_codec R161). -/
def mid565 (v : BitVec 16) : Byte := widen6 (v.extractLsb' 5 6)

/-- Field `lo` of a 5/6/5 word, widened (41_pixel_codec R161). -/
def lo565 (v : BitVec 16) : Byte := widen5 (v.extractLsb' 0 5)

/-- A 16-bit value from its most and least significant bytes (41_pixel_codec R162, R163). -/
def word16 (hi lo : Byte) : BitVec 16 := hi ++ lo

/-- The most significant byte. -/
def highByte (v : BitVec 16) : Byte := v.extractLsb' 8 8

/-- The least significant byte. -/
def lowByte (v : BitVec 16) : Byte := v.extractLsb' 0 8

/-! ### Decode and encode (R151 to R173) -/

/-- `Dec_F(m)` (41_pixel_codec R151 to R169, R173): `m i` is byte `i` of the pixel of a one-plane format, or the
pixel's byte in plane `i` of a planar one (R150). It reads no byte beyond the format's width. -/
def decodePixel (csc : CscMatrix) (F : FullFmt) (m : Nat → Byte) : Color :=
  match F with
  | .rgba => { r := m 0, g := m 1, b := m 2, a := m 3 }
  | .bgra => { r := m 2, g := m 1, b := m 0, a := m 3 }
  | .argb => { r := m 1, g := m 2, b := m 3, a := m 0 }
  | .abgr => { r := m 3, g := m 2, b := m 1, a := m 0 }
  | .rgbaPa => { r := m 0, g := m 1, b := m 2, a := m 3 }
  | .bgraPa => { r := m 2, g := m 1, b := m 0, a := m 3 }
  | .argbPa => { r := m 1, g := m 2, b := m 3, a := m 0 }
  | .abgrPa => { r := m 3, g := m 2, b := m 1, a := m 0 }
  | .rgb => { r := m 0, g := m 1, b := m 2, a := 255 }
  | .bgr => { r := m 2, g := m 1, b := m 0, a := 255 }
  | .rgb565be =>
    let v := word16 (m 0) (m 1)
    { r := hi565 v, g := mid565 v, b := lo565 v, a := 255 }
  | .rgb565le =>
    let v := word16 (m 1) (m 0)
    { r := hi565 v, g := mid565 v, b := lo565 v, a := 255 }
  | .bgr565be =>
    let v := word16 (m 0) (m 1)
    { r := lo565 v, g := mid565 v, b := hi565 v, a := 255 }
  | .bgr565le =>
    let v := word16 (m 1) (m 0)
    { r := lo565 v, g := mid565 v, b := hi565 v, a := 255 }
  | .gray8 => { r := m 0, g := m 0, b := m 0, a := 255 }
  | .rgbaPlanar => { r := m 0, g := m 1, b := m 2, a := m 3 }
  | .rgbaPlanarPa => { r := m 0, g := m 1, b := m 2, a := m 3 }
  | .rgbPlanar => { r := m 0, g := m 1, b := m 2, a := 255 }
  | .yuv444 =>
    let c := yuv2rgb csc (m 0) (m 1) (m 2)
    { r := c.r, g := c.g, b := c.b, a := 255 }

/-- The gray byte of a Color: `(R + G + B) / 3`, truncated (41_pixel_codec R166). -/
def grayOf (c : Color) : Byte := BitVec.ofNat 8 ((c.r.toNat + c.g.toNat + c.b.toNat) / 3)

/-- `EncYUV(y, u, v)` (41_pixel_codec R173). -/
def encodeYuv (t : Yuv) : List Byte := [t.y, t.u, t.v]

/-- `DecYUV(m)` (41_pixel_codec R173). -/
def decodeYuv (m : Nat → Byte) : Yuv := { y := m 0, u := m 1, v := m 2 }

/-- `Enc_F(c)` (41_pixel_codec R151 to R169, R173): the bytes to store, byte `i` of the pixel or of plane `i`. -/
def encodePixel (csc : CscMatrix) (F : FullFmt) (c : Color) : List Byte :=
  match F with
  | .rgba => [c.r, c.g, c.b, c.a]
  | .bgra => [c.b, c.g, c.r, c.a]
  | .argb => [c.a, c.r, c.g, c.b]
  | .abgr => [c.a, c.b, c.g, c.r]
  | .rgbaPa => [c.r, c.g, c.b, c.a]
  | .bgraPa => [c.b, c.g, c.r, c.a]
  | .argbPa => [c.a, c.r, c.g, c.b]
  | .abgrPa => [c.a, c.b, c.g, c.r]
  | .rgb => [c.r, c.g, c.b]
  | .bgr => [c.b, c.g, c.r]
  | .rgb565be =>
    let v := pack565 c.r c.g c.b
    [highByte v, lowByte v]
  | .rgb565le =>
    let v := pack565 c.r c.g c.b
    [lowByte v, highByte v]
  | .bgr565be =>
    let v := pack565 c.b c.g c.r
    [highByte v, lowByte v]
  | .bgr565le =>
    let v := pack565 c.b c.g c.r
    [lowByte v, highByte v]
  | .gray8 => [grayOf c]
  | .rgbaPlanar => [c.r, c.g, c.b, c.a]
  | .rgbaPlanarPa => [c.r, c.g, c.b, c.a]
  | .rgbPlanar => [c.r, c.g, c.b]
  | .yuv444 => encodeYuv (rgb2yuv csc c.r c.g c.b)

/-- The 32-bit image of a Color, blue least significant (10_state R40). -/
def colorWord (c : Color) : BitVec 32 := ((c.a ++ c.r : BitVec 16) ++ (c.g ++ c.b : BitVec 16) : BitVec 32)

end Sys2Proof.Machine
end

