-- ==== Sys2Proof/Machine/Operands.lean ====
section
/-! DEFINITION. Operand assembly (30_encoding R102): the selected descriptor of a query, the sampled operands of a command,
and what a conversion command works on once it is not a no-op: two sides, a region, an alpha operation. -/

namespace Sys2Proof.Machine

/-- The Buffer Descriptor `SEL` chooses (30_encoding R92). -/
def State.descriptor (s : State) (sel : Sel) : Descriptor :=
  match sel with
  | .src => s.src
  | .dst => s.dst

/-- The state with the stride registers of the chosen descriptor replaced (44_buffer_descriptor R261). -/
def State.setStrides (s : State) (sel : Sel) (q : Quad (BitVec 32)) : State :=
  match sel with
  | .src => { s with src := { s.src with stride := q } }
  | .dst => { s with dst := { s.dst with stride := q } }

/-- What a command reads of the registers, at acceptance (30_encoding R102; 10_state R42). -/
def State.operands (s : State) : Operands :=
  { cmd := s.cmd, width := s.width, height := s.height, src := s.src, dst := s.dst }

/-- One end of a conversion: a recognised format, its plane pointers, and its normalised row strides
(44_buffer_descriptor R250, R253). -/
structure Side where
  fmt : Fmt
  ptr : Quad Nat
  rs : Quad Int
  deriving DecidableEq, Repr

/-- Plane pointers as addresses: unsigned, not scaled, never defaulted (30_encoding R102, 44_buffer_descriptor R254). -/
def pointersOf (q : Quad (BitVec 64)) : Quad Nat :=
  { p0 := q.p0.toNat, p1 := q.p1.toNat, p2 := q.p2.toNat, p3 := q.p3.toNat }

/-- Normalised strides of a descriptor (44_buffer_descriptor R253): each plane by itself, from `sext_32` of its
register. -/
def stridesOf (F : Fmt) (w : Nat) (q : Quad (BitVec 32)) : Quad Int :=
  { p0 := normStride F 0 w q.p0.toInt
    p1 := normStride F 1 w q.p1.toInt
    p2 := normStride F 2 w q.p2.toInt
    p3 := normStride F 3 w q.p3.toInt }

/-- A descriptor of a recognised format as one end of a conversion of width `w`. -/
def sideOf (F : Fmt) (d : Descriptor) (w : Nat) : Side :=
  { fmt := F, ptr := pointersOf d.ptr, rs := stridesOf F w d.stride }

/-- The address of byte `off` of sample `x` of row `y` of plane `k` (20_memory R66 on the plane view of
44_buffer_descriptor R250). -/
def Side.addr (sd : Side) (k : Fin 4) (x y off : Nat) : Int :=
  addrOf (sd.ptr.get k) (sd.fmt.sampleStride k) (sd.rs.get k) x y off

/-- The footprint of one end, row by row: one row per plane `k < planes(F)` and row index (20_memory R70, R71). -/
def Side.rows (sd : Side) (w h : Nat) : List Row :=
  (planeIndices sd.fmt.planes).flatMap fun k =>
    (List.range (sd.fmt.rowCount k h)).map fun (y : Nat) =>
      { start := (sd.ptr.get k : Int) + (y : Int) * sd.rs.get k, len := sd.fmt.rowBytes k w }

/-- What a conversion command that is not a no-op works on (43_converters R224, R225). -/
structure Job where
  src : Side
  dst : Side
  w : Nat
  h : Nat
  aop : AlphaOp
  deriving DecidableEq, Repr

/-- `NoOp(SF, DF, W, H, mode)` (43_converters R222). -/
def isNoOp (sf df : BitVec 32) (w h : Nat) (mode : AlphaMode) : Bool :=
  decide (mode = .reserved) || !(recognised sf) || !(recognised df) || decide (w = 0) || decide (h = 0) ||
    ((is420 sf || is420 df) && (decide (w % 2 = 1) || decide (h % 2 = 1)))

/-- The job of a conversion with region height `h` and alpha direction `mode`; none when it is a no-op
(43_converters R222). -/
def jobOf (o : Operands) (h : Nat) (mode : AlphaMode) : Option Job :=
  let w := o.width.toNat
  if isNoOp o.src.fmt o.dst.fmt w h mode then none
  else
    match recognise o.src.fmt, recognise o.dst.fmt with
    | some F, some G =>
      some
        { src := sideOf F o.src w
          dst := sideOf G o.dst w
          w := w
          h := h
          aop := alphaOp o.src.fmt o.dst.fmt mode }
    | some _, none => none
    | none, _ => none

/-- The job of the accepted command word, with `H` = 1 for CONV1D (30_encoding R102); none for a command that accesses
no memory (20_memory R61). -/
def commandJob (o : Operands) : Option Job :=
  match decode o.cmd with
  | .ok (.conv1d mode) => jobOf o 1 mode
  | .ok (.conv2d mode) => jobOf o o.height.toNat mode
  | .ok _ => none
  | .error _ => none

/-- `SrcFoot` (20_memory R70). -/
def Job.srcRows (j : Job) : List Row := j.src.rows j.w j.h

/-- `DstFoot` (20_memory R71). -/
def Job.dstRows (j : Job) : List Row := j.dst.rows j.w j.h

/-- Contract (a) (20_memory R72): `SrcFoot` and `DstFoot` are disjoint. -/
def Job.footprintsDisjoint (j : Job) : Bool := rowsDisjoint j.srcRows j.dstRows

/-- Contract (b) (20_memory R72): the destination rows are pairwise disjoint. -/
def Job.dstRowsDisjoint (j : Job) : Bool := rowsPairwiseDisjoint j.dstRows

/-- Contract (c) (20_memory R72, R68): every byte of `SrcFoot` may be read and every byte of `DstFoot` written. -/
def Job.admitted (j : Job) (p : Platform) : Bool :=
  (j.srcRows.all fun r => r.addrs.all fun a => p.admitsRead a) &&
    (j.dstRows.all fun r => r.addrs.all fun a => p.admitsWrite a)

end Sys2Proof.Machine
end

