-- ==== Sys2Proof/Machine/Buffer.lean ====
section
/-! DEFINITION. The two Buffer Descriptor commands (44_buffer_descriptor R260, R261). -/

namespace Sys2Proof.Machine

/-- BD.SIZE (44_buffer_descriptor R260): the tight size of the selected descriptor mod 2^64, 0 where its identifier is
not recognised (90_conflicts C12). -/
def execBdSize (sel : Sel) (s : State) : Host.Outcome State Fault Refusal :=
  match recognise (s.descriptor sel).fmt with
  | none => .next (s.completeWith 0)
  | some F => .next (s.completeWith (BitVec.ofNat 64 (tightSize F s.width.toNat s.height.toNat)))

/-- Whether BD.NORM fills a stride register (44_buffer_descriptor R261): it holds 0, and the tight stride is not 0 and
fits a signed 32-bit register. -/
def fillsStride (F : Fmt) (w : Nat) (k : Fin 4) (stride : BitVec 32) : Bool :=
  decide (stride.toInt = 0) && decide (0 < F.rowBytes k w) && decide (F.rowBytes k w < 2 ^ 31)

/-- One stride register after BD.NORM (44_buffer_descriptor R261). -/
def filledStride (F : Fmt) (w : Nat) (k : Fin 4) (stride : BitVec 32) : BitVec 32 :=
  if k.val < F.planes ∧ fillsStride F w k stride then BitVec.ofNat 32 (F.rowBytes k w) else stride

/-- The four stride registers after BD.NORM; slots at or above the plane count are never changed. -/
def filledStrides (F : Fmt) (w : Nat) (q : Quad (BitVec 32)) : Quad (BitVec 32) :=
  { p0 := filledStride F w 0 q.p0
    p1 := filledStride F w 1 q.p1
    p2 := filledStride F w 2 q.p2
    p3 := filledStride F w 3 q.p3 }

/-- How many stride registers BD.NORM fills (44_buffer_descriptor R261, `n`). -/
def filledCount (F : Fmt) (w : Nat) (q : Quad (BitVec 32)) : Nat :=
  ((planeIndices F.planes).filter fun k => fillsStride F w k (q.get k)).length

/-- BD.NORM (44_buffer_descriptor R261): the zero strides of the selected descriptor filled, their number in `RESULT`;
an unrecognised identifier changes nothing and answers 0. -/
def execBdNorm (sel : Sel) (s : State) : Host.Outcome State Fault Refusal :=
  let d := s.descriptor sel
  match recognise d.fmt with
  | none => .next (s.completeWith 0)
  | some F =>
    .next
      ((s.setStrides sel (filledStrides F s.width.toNat d.stride)).completeWith
        (BitVec.ofNat 64 (filledCount F s.width.toNat d.stride)))

end Sys2Proof.Machine
end

