-- ==== Sys2Proof/Machine/Sampler.lean ====
section
/-! DEFINITION. Pixel access (41_pixel_codec R177, R178) and the Chroma Sampler's accessors (42_chroma_sampler R202 to R207).
A read goes through `rd`, the memory as it was when the command began (20_memory R74); a write is a list of
(address, byte) pairs. -/

namespace Sys2Proof.Machine

/-! ### One pixel of a full-resolution side -/

/-- The address of byte `i` of pixel (x, y): in plane `i` of a planar format, else at offset `i` in plane 0
(41_pixel_codec R178). -/
def pixelByteAddr (F : FullFmt) (sd : Side) (x y i : Nat) : Int :=
  if F.planar then
    match i with
    | 0 => sd.addr 0 x y 0
    | 1 => sd.addr 1 x y 0
    | 2 => sd.addr 2 x y 0
    | _ => sd.addr 3 x y 0
  else sd.addr 0 x y i

/-- `ReadColor(F, V, x, y)` (41_pixel_codec R178). -/
def readColor (csc : CscMatrix) (rd : Int → Byte) (F : FullFmt) (sd : Side) (x y : Nat) : Color :=
  decodePixel csc F fun i => rd (pixelByteAddr F sd x y i)

/-- Bytes stored as one pixel: byte `i` at its own address (41_pixel_codec R178). -/
def storePixelBytes (F : FullFmt) (sd : Side) (x y : Nat) (bytes : List Byte) : List (Int × Byte) :=
  bytes.zipIdx.map fun (v, i) => (pixelByteAddr F sd x y i, v)

/-- `WriteColor(F, V, x, y, c)` (41_pixel_codec R178). -/
def writeColor (csc : CscMatrix) (F : FullFmt) (sd : Side) (x y : Nat) (c : Color) : List (Int × Byte) :=
  storePixelBytes F sd x y (encodePixel csc F c)

/-- `SrcColor(x, y)` (41_pixel_codec R177): decode, then `Unpremul` when the operation is `U`. -/
def srcColor (csc : CscMatrix) (rd : Int → Byte) (aop : AlphaOp) (F : FullFmt) (sd : Side) (x y : Nat) : Color :=
  let c := readColor csc rd F sd x y
  if aop = .unpremul then unpremul c else c

/-- `DstStore(x, y, c)` (41_pixel_codec R177): `Premul` when the operation is `P`, then encode. -/
def dstStore (csc : CscMatrix) (aop : AlphaOp) (F : FullFmt) (sd : Side) (x y : Nat) (c : Color) :
    List (Int × Byte) :=
  writeColor csc F sd x y (if aop = .premul then premul c else c)

/-- `SrcYUV(x, y)` (42_chroma_sampler R206): the stored triple of YUV444, else the matrix of the source colour. -/
def srcYuv (csc : CscMatrix) (rd : Int → Byte) (aop : AlphaOp) (F : FullFmt) (sd : Side) (x y : Nat) : Yuv :=
  if F = .yuv444 then decodeYuv fun i => rd (pixelByteAddr F sd x y i)
  else
    let c := srcColor csc rd aop F sd x y
    rgb2yuv csc c.r c.g c.b

/-- `DstYUV(x, y, t)` (42_chroma_sampler R207): the triple itself into YUV444, else the matrix with alpha 255. -/
def dstYuv (csc : CscMatrix) (aop : AlphaOp) (F : FullFmt) (sd : Side) (x y : Nat) (t : Yuv) : List (Int × Byte) :=
  if F = .yuv444 then storePixelBytes F sd x y (encodeYuv t)
  else
    let c := yuv2rgb csc t.y t.u t.v
    dstStore csc aop F sd x y { r := c.r, g := c.g, b := c.b, a := 255 }

/-! ### The samples of a 4:2:0 side -/

/-- `LumaAddr` (42_chroma_sampler, section 2). -/
def lumaAddr (sd : Side) (x y : Nat) : Int := sd.addr 0 x y 0

/-- `UAddr` (42_chroma_sampler R202 to R205). -/
def uAddr (F : SubFmt) (sd : Side) (cx cy : Nat) : Int :=
  match F with
  | .i420 => sd.addr 1 cx cy 0
  | .yv12 => sd.addr 2 cx cy 0
  | .nv21 => sd.addr 1 cx cy 1
  | .nv12 => sd.addr 1 cx cy 0

/-- `VAddr` (42_chroma_sampler R202 to R205). -/
def vAddr (F : SubFmt) (sd : Side) (cx cy : Nat) : Int :=
  match F with
  | .i420 => sd.addr 2 cx cy 0
  | .yv12 => sd.addr 1 cx cy 0
  | .nv21 => sd.addr 1 cx cy 0
  | .nv12 => sd.addr 1 cx cy 1

/-- The rounded mean of a block's four chroma values (42_chroma_sampler R208). -/
def chromaMean (c00 c10 c01 c11 : Byte) : Byte :=
  clamp255 (shiftRight ((c00.toNat + c10.toNat + c01.toNat + c11.toNat + 2 : Nat) : Int) 2)

/-- The four pixels of a 2x2 block, as (i, j) (42_chroma_sampler R201). -/
def blockPixels : List (Nat × Nat) := [(0, 0), (1, 0), (0, 1), (1, 1)]

end Sys2Proof.Machine
end

