-- ==== Sys2Proof/Machine/Convert.lean ====
section
/-! DEFINITION. The five paths of a conversion (43_converters R225, R230 to R234) as the bytes each one stores, and the
execution of a conversion command as one transition (20_memory R74). -/

namespace Sys2Proof.Machine

/-- All of `f x y` for `y < h`, `x < w` (00_scope R11: independent iterations). -/
def forRegion {α : Type} (w h : Nat) (f : Nat → Nat → List α) : List α :=
  (List.range h).flatMap fun y => (List.range w).flatMap fun x => f x y

/-- `Copy` (43_converters R231): each plane's rows, byte for byte. -/
def copyWrites (rd : Int → Byte) (j : Job) : List (Int × Byte) :=
  (planeIndices j.src.fmt.planes).flatMap fun k =>
    forRegion (j.src.fmt.rowBytes k j.w) (j.src.fmt.rowCount k j.h) fun i y =>
      [((j.dst.ptr.get k : Int) + (y : Int) * j.dst.rs.get k + (i : Int),
        rd ((j.src.ptr.get k : Int) + (y : Int) * j.src.rs.get k + (i : Int)))]

/-- `Transcode` (43_converters R234). -/
def transcodeWrites (csc : CscMatrix) (rd : Int → Byte) (F G : FullFmt) (j : Job) : List (Int × Byte) :=
  forRegion j.w j.h fun x y => dstStore csc j.aop G j.dst x y (srcColor csc rd j.aop F j.src x y)

/-- `Subsample` (42_chroma_sampler R208): every luma, then one rounded mean of U and of V per block. -/
def subsampleWrites (csc : CscMatrix) (rd : Int → Byte) (F : FullFmt) (G : SubFmt) (j : Job) : List (Int × Byte) :=
  forRegion (j.w / 2) (j.h / 2) fun cx cy =>
    let t := fun i k => srcYuv csc rd j.aop F j.src (2 * cx + i) (2 * cy + k)
    (blockPixels.map fun (i, k) => (lumaAddr j.dst (2 * cx + i) (2 * cy + k), (t i k).y)) ++
      [(uAddr G j.dst cx cy, chromaMean (t 0 0).u (t 1 0).u (t 0 1).u (t 1 1).u),
        (vAddr G j.dst cx cy, chromaMean (t 0 0).v (t 1 0).v (t 0 1).v (t 1 1).v)]

/-- `Upsample` (42_chroma_sampler R209): the block's one chroma pair for each of its four pixels. -/
def upsampleWrites (csc : CscMatrix) (rd : Int → Byte) (F : SubFmt) (G : FullFmt) (j : Job) : List (Int × Byte) :=
  forRegion (j.w / 2) (j.h / 2) fun cx cy =>
    blockPixels.flatMap fun (i, k) =>
      dstYuv csc j.aop G j.dst (2 * cx + i) (2 * cy + k)
        { y := rd (lumaAddr j.src (2 * cx + i) (2 * cy + k))
          u := rd (uAddr F j.src cx cy)
          v := rd (vAddr F j.src cx cy) }

/-- `Reshuffle` (42_chroma_sampler R210): every sample unchanged. -/
def reshuffleWrites (rd : Int → Byte) (F G : SubFmt) (j : Job) : List (Int × Byte) :=
  (forRegion j.w j.h fun x y => [(lumaAddr j.dst x y, rd (lumaAddr j.src x y))]) ++
    forRegion (j.w / 2) (j.h / 2) fun cx cy =>
      [(uAddr G j.dst cx cy, rd (uAddr F j.src cx cy)), (vAddr G j.dst cx cy, rd (vAddr F j.src cx cy))]

/-- `Convert` (43_converters R225): the first case that holds decides, on formats and alpha operation only. -/
def Job.writes (j : Job) (csc : CscMatrix) (rd : Int → Byte) : List (Int × Byte) :=
  match j.src.fmt, j.dst.fmt with
  | .sub F, .sub G => reshuffleWrites rd F G j
  | .full F, .sub G => subsampleWrites csc rd F G j
  | .sub F, .full G => upsampleWrites csc rd F G j
  | .full F, .full G =>
    if F = G ∧ j.aop = .plain then copyWrites rd j else transcodeWrites csc rd F G j

/-- Memory read at a computed address; an admitted address is not negative (20_memory R66, R68). -/
def Memory.readAt (m : Memory) (a : Int) : Byte := m.read a.toNat

/-- Memory with bytes stored at computed addresses. -/
def Memory.storeAt (m : Memory) (ws : List (Int × Byte)) : Memory :=
  m.writeAll (ws.map fun (a, v) => (a.toNat, v))

/-- The memory after a job, as one transition: every read sees the memory the command began with (20_memory R74, R75). -/
def Job.result (j : Job) (csc : CscMatrix) (m : Memory) : Memory := m.storeAt (j.writes csc m.readAt)

/-- Execute a conversion of region height `h` (43_converters R223, R224): a silent no-op completes (R221); a broken
contract is refused (20_memory R72); an address that is not admitted leaves the command stuck (20_memory R68). Of several
broken contracts the first in this order is named (log entry 17). -/
def runConversion (s : State) (h : Nat) (mode : AlphaMode) : Host.Outcome State Fault Refusal :=
  match jobOf s.operands h mode with
  | none => .next s.complete
  | some j =>
    if j.footprintsDisjoint then
      if j.dstRowsDisjoint then
        if j.admitted s.platform then
          .next (State.complete { s with mem := j.result s.platform.csc s.mem })
        else .fault .neverCompletes
      else .refused .overlappingDestinationRows
    else .refused .aliasedFootprints

/-- CONV1D (43_converters R223): the Scanline Converter, CONV2D with `H` = 1; `HEIGHT` is not read. -/
def execConv1d (alpha : AlphaMode) (s : State) : Host.Outcome State Fault Refusal := runConversion s 1 alpha

/-- CONV2D (43_converters R224): the Surface Converter. -/
def execConv2d (alpha : AlphaMode) (s : State) : Host.Outcome State Fault Refusal :=
  runConversion s s.height.toNat alpha

end Sys2Proof.Machine
end

