-- ==== Sys2Proof/Machine/Query.lean ====
section
/-! DEFINITION. NOP and the twelve Format Descriptor queries (43_converters R220; 40_format_descriptor R120 to R132). -/

namespace Sys2Proof.Machine

/-- NOP (43_converters R220): nothing beyond completion. -/
def execNop (s : State) : Host.Outcome State Fault Refusal := .next s.complete

/-- A command whose `OP` is not assigned behaves exactly like NOP (30_encoding R99, 43_converters R220). -/
def completeReserved (s : State) : Host.Outcome State Fault Refusal := .next s.complete

/-- The template of every FQ.* command (40_format_descriptor R120): `RESULT <- zext_64(q(f))` with `f` the selected
format register, then completion. -/
def answerQuery (q : BitVec 32 → Nat) (sel : Sel) (s : State) : Host.Outcome State Fault Refusal :=
  .next (s.completeWith (BitVec.ofNat 64 (q (s.descriptor sel).fmt)))

/-- FQ.SPACE (40_format_descriptor R121). -/
def execFqSpace (sel : Sel) (s : State) : Host.Outcome State Fault Refusal := answerQuery fmtSpace sel s

/-- FQ.ALPHA (40_format_descriptor R122). -/
def execFqAlpha (sel : Sel) (s : State) : Host.Outcome State Fault Refusal := answerQuery fmtHasAlpha sel s

/-- FQ.PA (40_format_descriptor R123). -/
def execFqPa (sel : Sel) (s : State) : Host.Outcome State Fault Refusal := answerQuery fmtIsPa sel s

/-- FQ.PLANES (40_format_descriptor R124). -/
def execFqPlanes (sel : Sel) (s : State) : Host.Outcome State Fault Refusal := answerQuery fmtPlanes sel s

/-- FQ.BPS (40_format_descriptor R125). -/
def execFqBps (sel : Sel) (s : State) : Host.Outcome State Fault Refusal := answerQuery fmtBps sel s

/-- FQ.BYPS (40_format_descriptor R126). -/
def execFqByps (sel : Sel) (s : State) : Host.Outcome State Fault Refusal := answerQuery fmtByps sel s

/-- FQ.BPP (40_format_descriptor R127). -/
def execFqBpp (sel : Sel) (s : State) : Host.Outcome State Fault Refusal := answerQuery fmtBpp sel s

/-- FQ.BYPP (40_format_descriptor R128). -/
def execFqBypp (sel : Sel) (s : State) : Host.Outcome State Fault Refusal := answerQuery fmtBypp sel s

/-- FQ.UID (40_format_descriptor R129). -/
def execFqUid (sel : Sel) (s : State) : Host.Outcome State Fault Refusal := answerQuery fmtUid sel s

/-- FQ.IS420 (40_format_descriptor R130). -/
def execFqIs420 (sel : Sel) (s : State) : Host.Outcome State Fault Refusal := answerQuery fmtIs420q sel s

/-- FQ.TWIN (40_format_descriptor R131). -/
def execFqTwin (sel : Sel) (s : State) : Host.Outcome State Fault Refusal :=
  answerQuery (fun f => (fmtTwin f).toNat) sel s

/-- FQ.RGBEQ (40_format_descriptor R132). -/
def execFqRgbeq (sel : Sel) (s : State) : Host.Outcome State Fault Refusal :=
  answerQuery (fun f => (fmtRgbeq f).toNat) sel s

end Sys2Proof.Machine
end

