-- ==== Sys2Proof/Machine/Dispatch.lean ====
section
/-! DEFINITION. The one dispatch from a command to its meaning (30_encoding R98). -/

namespace Sys2Proof.Machine

/-- The effect of a command in a state where it has been accepted, completion included (10_state R26). -/
def exec (i : Instr) (s : State) : Host.Outcome State Fault Refusal :=
  match i with
  | .nop => Sys2Proof.Machine.execNop s
  | .conv1d alpha => Sys2Proof.Machine.execConv1d alpha s
  | .conv2d alpha => Sys2Proof.Machine.execConv2d alpha s
  | .fqSpace sel => Sys2Proof.Machine.execFqSpace sel s
  | .fqAlpha sel => Sys2Proof.Machine.execFqAlpha sel s
  | .fqPa sel => Sys2Proof.Machine.execFqPa sel s
  | .fqPlanes sel => Sys2Proof.Machine.execFqPlanes sel s
  | .fqBps sel => Sys2Proof.Machine.execFqBps sel s
  | .fqByps sel => Sys2Proof.Machine.execFqByps sel s
  | .fqBpp sel => Sys2Proof.Machine.execFqBpp sel s
  | .fqBypp sel => Sys2Proof.Machine.execFqBypp sel s
  | .fqUid sel => Sys2Proof.Machine.execFqUid sel s
  | .fqIs420 sel => Sys2Proof.Machine.execFqIs420 sel s
  | .fqTwin sel => Sys2Proof.Machine.execFqTwin sel s
  | .fqRgbeq sel => Sys2Proof.Machine.execFqRgbeq sel s
  | .bdSize sel => Sys2Proof.Machine.execBdSize sel s
  | .bdNorm sel => Sys2Proof.Machine.execBdNorm sel s

end Sys2Proof.Machine
end

