-- ==== Sys2Proof/Machine/HostAccess.lean ====
section
/-! DEFINITION. What the host, the other memory agents and the platform do to the machine (10_state R26, R32, R33;
20_memory R73; 70_reset_and_hazards R290, R291). Each access is one step, before or after acceptance and before or
after completion, never between (60_exceptions R274). -/

namespace Sys2Proof.Machine

/-! ### The register file -/

/-- The register a number names (10_state R22). -/
def regOfNumber (n : Fin 32) : Reg :=
  match n.val with
  | 0 => .cmd
  | 1 => .status
  | 2 => .result
  | 3 => .width
  | 4 => .height
  | 5 => .srcFmt
  | 6 => .dstFmt
  | 8 => .srcPtr 0
  | 9 => .srcPtr 1
  | 10 => .srcPtr 2
  | 11 => .srcPtr 3
  | 12 => .srcStride 0
  | 13 => .srcStride 1
  | 14 => .srcStride 2
  | 15 => .srcStride 3
  | 16 => .dstPtr 0
  | 17 => .dstPtr 1
  | 18 => .dstPtr 2
  | 19 => .dstPtr 3
  | 20 => .dstStride 0
  | 21 => .dstStride 1
  | 22 => .dstStride 2
  | 23 => .dstStride 3
  | _ => .reserved

/-- The 64-bit slot of a register: the held bits zero-extended; a reserved register reads 0 (10_state R22, R32). -/
def State.slot (s : State) (r : Reg) : BitVec 64 :=
  match r with
  | .cmd => s.cmd.setWidth 64
  | .status => s.status.setWidth 64
  | .result => s.result
  | .width => s.width.setWidth 64
  | .height => s.height.setWidth 64
  | .srcFmt => s.src.fmt.setWidth 64
  | .dstFmt => s.dst.fmt.setWidth 64
  | .srcPtr k => s.src.ptr.get k
  | .srcStride k => (s.src.stride.get k).setWidth 64
  | .dstPtr k => s.dst.ptr.get k
  | .dstStride k => (s.dst.stride.get k).setWidth 64
  | .reserved => 0

/-- The low `AW` bits of a written value, zero-extended: what a pointer register keeps of it (10_state R22, R29). -/
def pointerBits (aw : Nat) (v : BitVec 64) : BitVec 64 := BitVec.ofNat 64 (v.toNat % 2 ^ aw)

/-- Acceptance of a command (10_state R26): `CMD` takes the low 11 bits, `BUSY` is set, `DONE` cleared, and the operands
are sampled, in one step. -/
def State.accept (s : State) (v : BitVec 64) : State :=
  let t := { s with cmd := commandWord v, status := statusBusy }
  { t with window := t.window ++ [t.operands] }

/-- A register written while the engine is idle (10_state R22, R32): `CMD` accepts a command, an `rw` register takes its
low bits, `STATUS`, `RESULT` and the reserved registers ignore the write. -/
def State.writeIdle (s : State) (r : Reg) (v : BitVec 64) : State :=
  match r with
  | .cmd => s.accept v
  | .status => s
  | .result => s
  | .width => { s with width := v.setWidth 32 }
  | .height => { s with height := v.setWidth 32 }
  | .srcFmt => { s with src := { s.src with fmt := v.setWidth 32 } }
  | .dstFmt => { s with dst := { s.dst with fmt := v.setWidth 32 } }
  | .srcPtr k => { s with src := { s.src with ptr := s.src.ptr.set k (pointerBits s.platform.aw v) } }
  | .srcStride k => { s with src := { s.src with stride := s.src.stride.set k (v.setWidth 32) } }
  | .dstPtr k => { s with dst := { s.dst with ptr := s.dst.ptr.set k (pointerBits s.platform.aw v) } }
  | .dstStride k => { s with dst := { s.dst with stride := s.dst.stride.set k (v.setWidth 32) } }
  | .reserved => s

/-- `RegWrite(n, v)` (10_state R32): ignored while `BUSY` = 1, whatever `n` is. -/
def State.regWrite (s : State) (n : Fin 32) (v : BitVec 64) : State :=
  if s.busy then s else s.writeIdle (regOfNumber n) v

/-- `RegRead(n)` (10_state R32): always allowed, no side effect on PFC. A read of `STATUS` that shows `DONE` = 1 is the
observation of completion that ends the exclusivity contract (20_memory R73, R76). -/
def State.regRead (s : State) (n : Fin 32) : State :=
  let t := { s with readData := s.slot (regOfNumber n) }
  if regOfNumber n = .status ∧ s.done then { t with window := [] } else t

/-- The register a bus access of `size` bytes at `addr` reaches (10_state R33): number `k` at `REG_BASE + 8 * k`, accessed
whole. R33 and 93 U12 name the narrower and the misaligned access as refused; that a wider one, of which they say nothing, is
refused by the same name is the model's (DESIGN CHOICE, log entry 20). -/
def Platform.registerAt (p : Platform) (addr size : Nat) : Except Refusal (Fin 32) :=
  match p.regBase with
  | none => .error .noRegisterThere
  | some base =>
    if h : base ≤ addr ∧ addr < base + 256 then
      if size = 8 ∧ (addr - base) % 8 = 0 then .ok ⟨(addr - base) / 8, by omega⟩
      else .error .registerAccessShape
    else .error .noRegisterThere

/-- A bus read in the register region (10_state R33). -/
def State.busRead (s : State) (addr size : Nat) : Host.Outcome State Fault Refusal :=
  match Platform.registerAt s.platform addr size with
  | .ok n => .next (s.regRead n)
  | .error r => .refused r

/-- A bus write in the register region (10_state R33). -/
def State.busWrite (s : State) (addr size : Nat) (v : BitVec 64) : Host.Outcome State Fault Refusal :=
  match Platform.registerAt s.platform addr size with
  | .ok n => .next (s.regWrite n v)
  | .error r => .refused r

/-! ### Memory, seen by the other agents -/

/-- Whether an address lies in the source footprint of a command accepted and not yet observed complete. -/
def State.sourceHeld (s : State) (a : Nat) : Bool :=
  s.window.any fun o =>
    match commandJob o with
    | none => false
    | some j => rowsHold j.srcRows a

/-- Whether an address lies in the destination footprint of a command accepted and not yet observed complete. -/
def State.destinationHeld (s : State) (a : Nat) : Bool :=
  s.window.any fun o =>
    match commandJob o with
    | none => false
    | some j => rowsHold j.dstRows a

/-- A byte read by another agent: not of `DstFoot` until the completion is observed (20_memory R73). -/
def State.agentRead (s : State) (a : Nat) : Host.Outcome State Fault Refusal :=
  if s.platform.isMemory a then
    if s.destinationHeld a then .refused .dataRace
    else .next { s with readData := (s.mem.read a).setWidth 64 }
  else .refused .agentOutsideMemory

/-- A byte written by another agent: neither of `SrcFoot` nor of `DstFoot` until the completion is observed
(20_memory R73). -/
def State.agentWrite (s : State) (a : Nat) (v : Byte) : Host.Outcome State Fault Refusal :=
  if s.platform.isMemory a then
    if s.sourceHeld a || s.destinationHeld a then .refused .dataRace
    else .next { s with mem := s.mem.write a v }
  else .refused .agentOutsideMemory

/-- Region number `i` withdrawn from the admission map (70_reset_and_hazards R300): its bytes are admitted no longer, unless
another region backs them too; nothing brings a withdrawn region back (log entry 13). -/
def State.unmap (s : State) (i : Nat) : State :=
  { s with platform := { s.platform with regions := s.platform.regions.eraseIdx i } }

/-! ### Reset -/

/-- The bytes a reset leaves at any value (70_reset_and_hazards R291, 93 U7): every byte of the abandoned command's
`DstFoot`, whether or not PFC may write it now; an address below 0, at or above 2^AW, or in a register region names no byte
(20_memory R60, R66; 10_state R33). None when the engine is idle. -/
def State.abandonedAddrs (s : State) : List Int :=
  if s.busy then
    match commandJob s.operands with
    | none => []
    | some j => (j.dstRows.flatMap Row.addrs).filter fun a => s.platform.namesByte a
  else []

/-- The memory after a reset (70_reset_and_hazards R291): a free byte at each abandoned address, all else unchanged. -/
def State.memAfterReset (s : State) : Memory :=
  s.mem.storeAt (s.abandonedAddrs.map fun a => (a, Config.abandonedByte s.freeCount a.toNat))

/-- The platform's reset (70_reset_and_hazards R290, R291): every register 0, no command in progress; what the agents do
next, what they last read and the platform are not PFC's and stay (log entry 16). -/
def State.hardReset (s : State) : State :=
  { State.reset with
    mem := s.memAfterReset
    schedule := s.schedule
    readData := s.readData
    freeCount := s.freeCount + 1
    platform := s.platform }

end Sys2Proof.Machine
end

