-- ==== Sys2Proof/Machine/Engine.lean ====
section
/-! DEFINITION. The engine's turn, and what each scheduled event does. -/

namespace Sys2Proof.Machine

/-- The engine's turn: busy, it executes the command `CMD` holds, as one transition (10_state R26, 20_memory R74); a
reserved `OP` completes as a no-op (30_encoding R99); idle, it holds its registers (60_exceptions R283). -/
def engineTurn (s : State) : Host.Outcome State Fault Refusal :=
  if s.busy then
    match decode s.cmd with
    | .ok i => exec i s
    | .error _ => completeReserved s
  else .next s

/-- What one event does. -/
def runEvent (e : Event) (s : State) : Host.Outcome State Fault Refusal :=
  match e with
  | .engine => engineTurn s
  | .regRead n => .next (s.regRead n)
  | .regWrite n v => .next (s.regWrite n v)
  | .busRead addr size => s.busRead addr size
  | .busWrite addr size v => s.busWrite addr size v
  | .memRead addr => s.agentRead addr
  | .memWrite addr v => s.agentWrite addr v
  | .reset => .next s.hardReset
  | .unmap i => .next (s.unmap i)

/-- The next event taken from the schedule; with nothing scheduled the engine has its turn (log entry 9). -/
def nextEvent (s : State) : Event × State :=
  match s.schedule with
  | [] => (.engine, s)
  | e :: rest => (e, { s with schedule := rest })

/-- A command word accepted, with the engine's turn next: what a host's write of `CMD` and the engine's following turn
need (10_state R26, log entry 12). -/
def State.acceptNext (s : State) (v : BitVec 64) : State :=
  let t := s.accept v
  { t with schedule := .engine :: t.schedule }

end Sys2Proof.Machine
end

