-- ==== Sys2Proof/Machine/Step.lean ====
section
/-! DEFINITION. One step of the machine. -/

namespace Sys2Proof.Machine

/-- One step: the next scheduled event, or the engine's turn when none is scheduled. -/
def step (s : State) : Host.Outcome State Fault Refusal := runEvent (nextEvent s).1 (nextEvent s).2

/-- The state in which the command word `w` (its low `nbits` bits) has just been accepted, so that the very next step
executes it (log entry 12). -/
def State.withFetchWord (s : State) (nbits w : Nat) : State := s.acceptNext (BitVec.ofNat 64 (w % 2 ^ nbits))

end Sys2Proof.Machine
end

