-- ==== Sys2Proof/Safety.lean ====
section
/-! DEFINITION. What claims are stated in terms of: the invariant every step keeps, when a conversion's contracts hold, and
the table of register widths and access of 10_state R22. -/

namespace Sys2Proof.Safety

open Sys2Proof.Machine

/-- Every pointer register holds at most `AW` bits (10_state R22, R29). -/
def PointersFit (aw : Nat) (d : Descriptor) : Prop := ∀ k, (d.ptr.get k).toNat < 2 ^ aw

/-- The invariant of the machine: the platform's parameters are in the bounds of 00_scope R8 and 10_state R33; memory is in
canonical form and lies in the address space (20_memory R60); `STATUS` is never 3 (10_state R25); pointer registers hold
`AW` bits (R29); and while a command runs the registers are those sampled at its acceptance (10_state R32). -/
structure Inv (s : State) : Prop where
  platform : s.platform.Valid
  memory : s.mem.wf
  space : s.mem.within s.platform.aw
  status : s.status ≠ 3#2
  srcPointers : PointersFit s.platform.aw s.src
  dstPointers : PointersFit s.platform.aw s.dst
  sampled : s.busy = true → s.window.getLast? = some s.operands

/-- The region height a conversion command reads: 1 for CONV1D, `HEIGHT` for CONV2D (30_encoding R102); none for every
other command. -/
def conversionOf (i : Instr) (s : State) : Option (AlphaMode × Nat) :=
  match i with
  | .conv1d alpha => some (alpha, 1)
  | .conv2d alpha => some (alpha, s.height.toNat)
  | _ => none

/-- The address-level contract of a conversion (20_memory R72, R68): no address is in both footprints, no two destination
rows share an address, every source byte may be read and every destination byte written. -/
structure Contract (s : State) (j : Job) : Prop where
  disjoint : ∀ a, ¬(rowsHold j.srcRows a = true ∧ rowsHold j.dstRows a = true)
  rows : j.dstRows.Pairwise fun r q => ∀ a, ¬(r.holds a = true ∧ q.holds a = true)
  readable : ∀ a, rowsHold j.srcRows a = true → s.platform.admitsRead a = true
  writable : ∀ a, rowsHold j.dstRows a = true → s.platform.admitsWrite a = true

/-- `i` is a conversion command, not a no-op, that works on job `j` and whose contract holds. -/
structure Ready (i : Instr) (s : State) (j : Job) : Prop where
  job : ∃ mode h, conversionOf i s = some (mode, h) ∧ jobOf s.operands h mode = some j
  contract : Contract s j

/-- The width of register number `n` (10_state R22). -/
def registerWidth (aw : Nat) (n : Fin 32) : Nat :=
  if n.val = 0 then 11
  else if n.val = 1 then 2
  else if n.val = 2 then 64
  else if n.val ≤ 6 then 32
  else if n.val = 7 then 0
  else if n.val ≤ 11 then aw
  else if n.val ≤ 15 then 32
  else if n.val ≤ 19 then aw
  else if n.val ≤ 23 then 32
  else 0

/-- Whether register number `n` is an `rw` register other than `CMD` (10_state R22). -/
def hostWritable (n : Fin 32) : Bool :=
  decide (3 ≤ n.val ∧ n.val ≤ 6) || decide (8 ≤ n.val ∧ n.val ≤ 23)

/-- Everything a command may not touch, in one relation: `t` is `s` except for the listed registers `RESULT`, `STATUS`, the
stride registers and memory. -/
def SameBut (s t : State) : Prop :=
  t.cmd = s.cmd ∧ t.width = s.width ∧ t.height = s.height ∧ t.src.fmt = s.src.fmt ∧ t.dst.fmt = s.dst.fmt ∧
    t.src.ptr = s.src.ptr ∧ t.dst.ptr = s.dst.ptr ∧ t.window = s.window ∧ t.schedule = s.schedule ∧
    t.readData = s.readData ∧ t.freeCount = s.freeCount ∧ t.platform = s.platform

/-- A command that leaves `RESULT` alone: NOP and the conversions (10_state R31). -/
def keepsResult (i : Instr) : Bool :=
  match i with
  | .nop => true
  | .conv1d _ => true
  | .conv2d _ => true
  | _ => false

/-- The descriptor a Format Descriptor query works on; none for every other command (40_format_descriptor R120). -/
def queryOf (i : Instr) : Option Sel :=
  match i with
  | .fqSpace sel => some sel
  | .fqAlpha sel => some sel
  | .fqPa sel => some sel
  | .fqPlanes sel => some sel
  | .fqBps sel => some sel
  | .fqByps sel => some sel
  | .fqBpp sel => some sel
  | .fqBypp sel => some sel
  | .fqUid sel => some sel
  | .fqIs420 sel => some sel
  | .fqTwin sel => some sel
  | .fqRgbeq sel => some sel
  | _ => none

/-- The ten identifiers that have an alpha twin, in pairs (40_format_descriptor R131). -/
def twinPairs : List (BitVec 32 × BitVec 32) :=
  [(0x18202001#32, 0x1C202005#32), (0x18202002#32, 0x1C202006#32), (0x18202003#32, 0x1C202007#32),
    (0x18202004#32, 0x1C202008#32), (0x1B082030#32, 0x1F082031#32)]

/-- The five recognised YUV identifiers (40_format_descriptor R132). -/
def yuvIdents : List (BitVec 32) := [0x20181881#32, 0x22080CB0#32, 0x22080CB1#32, 0x21080CB2#32, 0x21080CB3#32]

/-- The 23 recognised identifiers, each with the format its name stands for (30_encoding R96). -/
def identTable : List (BitVec 32 × Fmt) :=
  [(0x18202001#32, .full .rgba), (0x18202002#32, .full .bgra), (0x18202003#32, .full .argb), (0x18202004#32, .full .abgr),
    (0x1C202005#32, .full .rgbaPa), (0x1C202006#32, .full .bgraPa), (0x1C202007#32, .full .argbPa),
    (0x1C202008#32, .full .abgrPa), (0x10181810#32, .full .rgb), (0x10181811#32, .full .bgr)] ++
  [(0x10101016#32, .full .rgb565be), (0x10101017#32, .full .rgb565le), (0x10101018#32, .full .bgr565be),
    (0x10101019#32, .full .bgr565le), (0x10080820#32, .full .gray8), (0x1B082030#32, .full .rgbaPlanar),
    (0x1F082031#32, .full .rgbaPlanarPa), (0x12081832#32, .full .rgbPlanar), (0x20181881#32, .full .yuv444)] ++
  [(0x22080CB0#32, .sub .i420), (0x22080CB1#32, .sub .yv12), (0x21080CB2#32, .sub .nv21), (0x21080CB3#32, .sub .nv12)]

/-- Plane `k` of a format has sample stride `ss`, and in a region of `w` by `h` pixels `rows` rows of `bytes` bytes
(44_buffer_descriptor R250, R251). -/
def PlaneIs (F : Fmt) (k : Fin 4) (ss w h bytes rows : Nat) : Prop :=
  F.sampleStride k = ss ∧ F.rowBytes k w = bytes ∧ F.rowCount k h = rows

/-- A one-plane format of `size` bytes a pixel (44_buffer_descriptor R250, R251). -/
def OnePlane (F : Fmt) (size : Nat) : Prop := F.planes = 1 ∧ ∀ w h, PlaneIs F 0 size w h (w * size) h

/-- The one-plane formats with their bytes per pixel (44_buffer_descriptor R250, 30_encoding R105). -/
def packedSizes : List (FullFmt × Nat) :=
  [(.rgba, 4), (.bgra, 4), (.argb, 4), (.abgr, 4), (.rgbaPa, 4), (.bgraPa, 4), (.argbPa, 4), (.abgrPa, 4)] ++
  [(.rgb, 3), (.bgr, 3), (.yuv444, 3), (.rgb565be, 2), (.rgb565le, 2), (.bgr565be, 2), (.bgr565le, 2), (.gray8, 1)]

/-- The size of a tight buffer, written out by family (44_buffer_descriptor R260, "Written out"). -/
def writtenOutSize (F : Fmt) (w h : Nat) : Nat :=
  match F with
  | .full .rgba | .full .bgra | .full .argb | .full .abgr => 4 * w * h
  | .full .rgbaPa | .full .bgraPa | .full .argbPa | .full .abgrPa => 4 * w * h
  | .full .rgbaPlanar | .full .rgbaPlanarPa => 4 * w * h
  | .full .rgb | .full .bgr | .full .yuv444 | .full .rgbPlanar => 3 * w * h
  | .full .rgb565be | .full .rgb565le | .full .bgr565be | .full .bgr565le => 2 * w * h
  | .full .gray8 => w * h
  | .sub .i420 | .sub .yv12 => w * h + 2 * (w * h / 4)
  | .sub .nv21 | .sub .nv12 => w * h + w * h / 2

/-- How many bytes of one pixel a full-resolution format stores, over all its planes (41_pixel_codec R150). -/
def pixelLength (F : FullFmt) : Nat := if F.planar then fmtPlanes F.ident else fmtBypp F.ident

/-- Format `F` decodes by `dec` and encodes by `enc`, whatever the matrix (41_pixel_codec R150). -/
def CodecIs (F : FullFmt) (dec : (Nat → Byte) → Color) (enc : Color → List Byte) : Prop :=
  ∀ (csc : CscMatrix) (m : Nat → Byte) (c : Color), decodePixel csc F m = dec m ∧ encodePixel csc F c = enc c

/-- An opaque Color with these three numbers for red, green and blue. -/
def OpaqueOf (c : Color) (r g b : Nat) : Prop := c.r.toNat = r ∧ c.g.toNat = g ∧ c.b.toNat = b ∧ c.a = 255

/-- The number a 5/6/5 format stores of its `hi`, `mid` and `lo` channels (41_pixel_codec R161, R162). -/
def number565 (hi mid lo : Byte) : Nat := hi.toNat / 8 * 2048 + mid.toNat / 4 * 32 + lo.toNat / 8

/-- A number clamped to [0, 255] (00_scope R10). -/
def clampTo255 (x : Int) : Int := max 0 (min 255 x)

/-- `quantize(c, F)` (41_pixel_codec R179). -/
def quantize (csc : CscMatrix) (F : FullFmt) (c : Color) : Color :=
  match F with
  | .rgba | .bgra | .argb | .abgr | .rgbaPa | .bgraPa | .argbPa | .abgrPa | .rgbaPlanar | .rgbaPlanarPa => c
  | .rgb | .bgr | .rgbPlanar => { c with a := 255 }
  | .rgb565be | .rgb565le | .bgr565be | .bgr565le => { r := c.r &&& 0xF8, g := c.g &&& 0xFC, b := c.b &&& 0xF8, a := 255 }
  | .gray8 =>
    let l : Byte := BitVec.ofNat 8 ((c.r.toNat + c.g.toNat + c.b.toNat) / 3)
    { r := l, g := l, b := l, a := 255 }
  | .yuv444 =>
    let t := rgb2yuv csc c.r c.g c.b
    let d := yuv2rgb csc t.y t.u t.v
    { r := d.r, g := d.g, b := d.b, a := 255 }

/-- What the alpha operation does to a Color between decode and encode (41_pixel_codec R177): un-premultiply first,
premultiply last, at most one of the two. -/
def applyAlpha (aop : AlphaOp) (c : Color) : Color :=
  match aop with
  | .plain => c
  | .unpremul => unpremul c
  | .premul => premul c

/-- Byte `n` of source pixel (x, y) of a job, as memory `m` holds it (41_pixel_codec R178). -/
def srcPixelByte (m : Memory) (F : FullFmt) (j : Job) (x y n : Nat) : Byte := m.readAt (pixelByteAddr F j.src x y n)

/-- Byte `n` of destination pixel (x, y) of a job, as memory `m` holds it (41_pixel_codec R178). -/
def dstPixelByte (m : Memory) (G : FullFmt) (j : Job) (x y n : Nat) : Byte := m.readAt (pixelByteAddr G j.dst x y n)

/-- The YUV triple of source pixel (x, y) (42_chroma_sampler R206): the stored bytes of YUV444, else the matrix of the
decoded colour, un-premultiplied first where the job asks for it. -/
def sourceTriple (csc : CscMatrix) (m : Memory) (F : FullFmt) (j : Job) (x y : Nat) : Yuv :=
  if F = .yuv444 then
    { y := srcPixelByte m F j x y 0, u := srcPixelByte m F j x y 1, v := srcPixelByte m F j x y 2 }
  else
    let c := decodePixel csc F fun n => srcPixelByte m F j x y n
    let d := if j.aop = .unpremul then unpremul c else c
    rgb2yuv csc d.r d.g d.b

/-- The bytes an upsampled triple is stored as (42_chroma_sampler R207): itself into YUV444, else the encoded colour of
the matrix with alpha 255, on which a premultiplication would change nothing. -/
def storedTriple (csc : CscMatrix) (G : FullFmt) (t : Yuv) : List Byte :=
  if G = .yuv444 then [t.y, t.u, t.v]
  else
    let c := yuv2rgb csc t.y t.u t.v
    encodePixel csc G { r := c.r, g := c.g, b := c.b, a := 255 }

/-- Every byte outside the destination footprint of `j` reads in `m'` as in `m` (20_memory R71). -/
def UnchangedOutside (j : Job) (m m' : Memory) : Prop :=
  ∀ a : Nat, rowsHold j.dstRows (a : Int) = false → m'.read a = m.read a

/-- Two states agree on everything a command may read: registers, memory, platform (10_state R42). -/
def SameInputs (s u : State) : Prop :=
  u.operands = s.operands ∧ u.result = s.result ∧ u.mem = s.mem ∧ u.platform = s.platform

/-- Two outcomes of a command agree on registers and memory, or on the reason of the stop. -/
def SameOutputs (o p : Host.Outcome State Fault Refusal) : Prop :=
  match o, p with
  | .next t, .next u => u.operands = t.operands ∧ u.status = t.status ∧ u.result = t.result ∧ u.mem = t.mem
  | .fault r, .fault q => q = r
  | .refused r, .refused q => q = r
  | _, _ => False

/-- Two outcomes of a command leave the same memory, or stop for the same reason. -/
def SameMemory (o p : Host.Outcome State Fault Refusal) : Prop :=
  match o, p with
  | .next t, .next u => u.mem = t.mem
  | .fault r, .fault q => q = r
  | .refused r, .refused q => q = r
  | _, _ => False

end Sys2Proof.Safety
end

