-- ==== Sys2Proof/Certificates/Slice0/Obligations.lean ====
section
/-! DEFINITION. The statements about PFC for the provers, each from numbered rules of the spec. -/

open Sys2Proof Sys2Proof.Machine Sys2Proof.Safety

/-! ### Encoding (30_encoding) -/

/-- R90, R91, R92, R98: decoding inverts encoding for every command, and a written 64-bit value starts command `i` exactly
when the bits `i` reads are those of its encoding; no other bit matters. -/
def Obligations.WrittenValueSelectsCommand : Prop :=
  (∀ i : Instr, decode (encode i) = .ok i) ∧
    ∀ (v : BitVec 64) (i : Instr), decodeWritten v = .ok i ↔ v &&& readMask i = (encode i).setWidth 64

/-- R98, and the words R103, R223, R224, R260 and R261 print: each decodes to the command it stands for. -/
def Obligations.WrittenOutWordsDecode : Prop :=
  decode 0x000#11 = .ok .nop ∧ decode 0x001#11 = .ok (.conv1d .none) ∧ decode 0x101#11 = .ok (.conv1d .unpremul) ∧
    decode 0x201#11 = .ok (.conv1d .premul) ∧ decode 0x301#11 = .ok (.conv1d .reserved) ∧
    decode 0x002#11 = .ok (.conv2d .none) ∧ decode 0x102#11 = .ok (.conv2d .unpremul) ∧
    decode 0x202#11 = .ok (.conv2d .premul) ∧ decode 0x302#11 = .ok (.conv2d .reserved) ∧
    decode 0x010#11 = .ok (.fqSpace .src) ∧ decode 0x41A#11 = .ok (.fqTwin .dst) ∧
    decode 0x01B#11 = .ok (.fqRgbeq .src) ∧ decode 0x020#11 = .ok (.bdSize .src) ∧
    decode 0x420#11 = .ok (.bdSize .dst) ∧ decode 0x021#11 = .ok (.bdNorm .src) ∧ decode 0x421#11 = .ok (.bdNorm .dst)

/-- R99: which `OP` values are reserved; a reserved command, and a conversion with `ALPHA` = 3, complete with nothing
changed but the flags; a field a command does not read is ignored. That the engine's turn comes when nothing is scheduled
or an engine event is next is the model's (log entry 9), and so is that it completes the command in one step (log entry
3). -/
def Obligations.ReservedEncodingsAreNoOps : Prop :=
  (∀ w : BitVec 11,
      (∃ e, decode w = .error e) ↔
        (3 ≤ w.toNat % 256 ∧ w.toNat % 256 ≤ 0x0F) ∨ (0x1C ≤ w.toNat % 256 ∧ w.toNat % 256 ≤ 0x1F) ∨
          0x22 ≤ w.toNat % 256) ∧
    (∀ (s : State) (e : DecodeError), s.busy = true → s.schedule = [] → decode s.cmd = .error e →
      step s = .next { s with status := 2#2 }) ∧
    (∀ (s : State) (e : DecodeError) (rest : List Event), s.busy = true → s.schedule = .engine :: rest →
      decode s.cmd = .error e → step s = .next { s with schedule := rest, status := 2#2 }) ∧
    (∀ s : State, exec (.conv1d .reserved) s = .next { s with status := 2#2 }) ∧
    (∀ s : State, exec (.conv2d .reserved) s = .next { s with status := 2#2 }) ∧
    ∀ (i : Instr) (v w : BitVec 64), v &&& readMask i = w &&& readMask i →
      (decodeWritten v = .ok i ↔ decodeWritten w = .ok i)

/-- R26, R74, R283: the engine's turn on a busy machine executes the command `CMD` holds, on an idle machine it changes
nothing. That the turn comes when nothing is scheduled or an engine event is next is the model's (log entry 9); the last
clause is about the model's own `withFetchWord` (log entry 12). -/
def Obligations.StepRunsDecodedCommand : Prop :=
  (∀ (s : State) (i : Instr), s.busy = true → decode s.cmd = .ok i → s.schedule = [] → step s = exec i s) ∧
    (∀ (s : State) (i : Instr) (rest : List Event), s.busy = true → decode s.cmd = .ok i →
      s.schedule = .engine :: rest → step s = exec i { s with schedule := rest }) ∧
    (∀ s : State, s.busy = false → s.schedule = [] → step s = .next s) ∧
    (∀ (s : State) (rest : List Event), s.busy = false → s.schedule = .engine :: rest →
      step s = .next { s with schedule := rest }) ∧
    ∀ (s : State) (nbits w : Nat) (i : Instr), decodeTableWord nbits w = some i →
      step (s.withFetchWord nbits w) = exec i (s.accept (BitVec.ofNat 64 (w % 2 ^ nbits)))

/-! ### The register file and the command protocol (10_state) -/

/-- R22, R32: a host write to an idle engine's `rw` register stores its low bits, a write to a `ro` or reserved register
changes nothing, and no other register, and no memory, moves. -/
def Obligations.IdleRegisterWriteStoresLowBits : Prop :=
  ∀ (s : State) (n : Fin 32) (v : BitVec 64) (rest : List Event),
    s.busy = false → n.val ≠ 0 → s.schedule = .regWrite n v :: rest →
      ∃ t, step s = .next t ∧ t.schedule = rest ∧
        (t.slot (regOfNumber n)).toNat =
          (if hostWritable n then v.toNat % 2 ^ registerWidth s.platform.aw n
           else (s.slot (regOfNumber n)).toNat) ∧
        (∀ m, m ≠ n → t.slot (regOfNumber m) = s.slot (regOfNumber m)) ∧
        t.mem = s.mem ∧ t.window = s.window ∧ t.readData = s.readData ∧ t.platform = s.platform

/-- R22: in a state that meets the invariant, the bits of every register above its width read as zero; a reserved register
reads 0. -/
def Obligations.BitsAboveRegisterWidthReadZero : Prop :=
  ∀ (s : State) (n : Fin 32), Inv s → (s.slot (regOfNumber n)).toNat < 2 ^ registerWidth s.platform.aw n

/-- R32, R304: while `BUSY` = 1 a register write is ignored, whatever the register, `CMD` included. -/
def Obligations.BusyRegisterWriteIsIgnored : Prop :=
  ∀ (s : State) (n : Fin 32) (v : BitVec 64) (rest : List Event),
    s.busy = true → s.schedule = .regWrite n v :: rest → step s = .next { s with schedule := rest }

/-- R26: a write of `v` to `CMD` while idle is the acceptance of a command: `CMD` takes bits 10:0, `BUSY` is set, `DONE`
cleared, the operands are sampled (R293), and nothing else moves. -/
def Obligations.IdleCommandWriteIsAcceptance : Prop :=
  ∀ (s : State) (v : BitVec 64) (rest : List Event),
    s.busy = false → s.schedule = .regWrite 0 v :: rest →
      ∃ t, step s = .next t ∧ t.cmd.toNat = v.toNat % 2 ^ 11 ∧ t.busy = true ∧ t.done = false ∧
        t.window = s.window ++ [t.operands] ∧
        (∀ n : Fin 32, n.val ≠ 0 → n.val ≠ 1 → t.slot (regOfNumber n) = s.slot (regOfNumber n)) ∧
        t.mem = s.mem ∧ t.schedule = rest ∧ t.platform = s.platform

/-- R32, R76: `RegRead` answers the register's slot and moves no register and no memory, busy or idle. The clause about
`window` is the model's form of R73's "until the host has observed its completion" (log entry 2). -/
def Obligations.RegisterReadHasNoSideEffect : Prop :=
  ∀ (s : State) (n : Fin 32) (rest : List Event), s.schedule = .regRead n :: rest →
    ∃ t, step s = .next t ∧ t.readData = s.slot (regOfNumber n) ∧
      (∀ m : Fin 32, t.slot (regOfNumber m) = s.slot (regOfNumber m)) ∧
      t.mem = s.mem ∧ t.schedule = rest ∧ t.platform = s.platform ∧
      t.window = (if n.val = 1 ∧ s.done = true then [] else s.window)

/-- R33: with the register file mapped at `base`, an aligned 64-bit access at `base + 8 * n` is `RegRead(n)` or
`RegWrite(n, v)`, and any narrower or misaligned access to the region is refused. That an access wider than 64 bits is refused too is the
model's (log entry 20). The last clause, the refusal of an access where this engine
has no register, is the model's (log entry 18). -/
def Obligations.MappedRegistersAreWholeAndAligned : Prop :=
  (∀ (s : State) (base : Nat) (n : Fin 32) (rest : List Event), s.platform.regBase = some base →
      step { s with schedule := .busRead (base + 8 * n.val) 8 :: rest } =
        step { s with schedule := .regRead n :: rest }) ∧
    (∀ (s : State) (base : Nat) (n : Fin 32) (v : BitVec 64) (rest : List Event), s.platform.regBase = some base →
      step { s with schedule := .busWrite (base + 8 * n.val) 8 v :: rest } =
        step { s with schedule := .regWrite n v :: rest }) ∧
    (∀ (s : State) (base addr size : Nat) (v : BitVec 64) (rest : List Event), s.platform.regBase = some base →
      base ≤ addr → addr < base + 256 → ¬(size = 8 ∧ (addr - base) % 8 = 0) →
        step { s with schedule := .busRead addr size :: rest } = .refused .registerAccessShape ∧
          step { s with schedule := .busWrite addr size v :: rest } = .refused .registerAccessShape) ∧
    ∀ (s : State) (addr size : Nat) (v : BitVec 64) (rest : List Event),
      (∀ base, s.platform.regBase = some base → ¬(base ≤ addr ∧ addr < base + 256)) →
        step { s with schedule := .busRead addr size :: rest } = .refused .noRegisterThere ∧
          step { s with schedule := .busWrite addr size v :: rest } = .refused .noRegisterThere

/-- R23, R25, R26, R31, R61: what every command leaves alone and how each completes. No command writes `WIDTH`, `HEIGHT`, a
format or a pointer register; only BD.NORM writes strides, and only its own descriptor's; only the queries write
`RESULT`; only the conversions write memory; `STATUS` is 2 at the end. -/
def Obligations.CommandFrame : Prop :=
  ∀ (i : Instr) (s t : State), exec i s = .next t →
    SameBut s t ∧ t.status = 2#2 ∧
      (keepsResult i = true → t.result = s.result) ∧
      (∀ sel, i ≠ .bdNorm sel → (t.descriptor sel).stride = (s.descriptor sel).stride) ∧
      (conversionOf i s = none → t.mem = s.mem)

/-- R42, R306, R307: what a command does is a function of the registers, the memory and the platform; what was scheduled,
read or sampled before, and how often the host polled, do not matter. -/
def Obligations.CommandDependsOnInputsOnly : Prop :=
  ∀ (i : Instr) (s u : State), SameInputs s u → SameOutputs (exec i s) (exec i u)

/-- The invariant is kept by every step, of the engine, of the host, of another agent and of the platform (10_state R22,
R25, R29, R32; 20_memory R60). -/
def Obligations.StepKeepsInvariant : Prop :=
  ∀ s t : State, Inv s → step s = .next t → Inv t

/-- The reset machine meets the invariant. The platform's values in `State.reset` are the spec's defaults and the model's
choices (log entries 4 to 8). -/
def Obligations.ResetMeetsInvariant : Prop := Inv State.reset

/-! ### NOP and the Format Descriptor queries (43_converters R220, 40_format_descriptor) -/

/-- R220: NOP changes nothing but the completion flags. -/
def Obligations.NopOnlyCompletes : Prop :=
  ∀ s : State, exec .nop s = .next { s with status := 2#2 }

/-- R121, R122, R123, R124, R129: the five queries that answer a field of the identifier, with their `OP`. -/
def Obligations.FieldQueriesAnswerTheirField : Prop :=
  ∀ (sel : Sel) (s : State), let f := (s.descriptor sel).fmt.toNat
    (exec (.fqSpace sel) s = .next { s with result := BitVec.ofNat 64 (f / 2 ^ 28 % 16), status := 2#2 } ∧
      (Instr.fqSpace sel).op = 0x10#8) ∧
    (exec (.fqAlpha sel) s = .next { s with result := BitVec.ofNat 64 (f / 2 ^ 27 % 2), status := 2#2 } ∧
      (Instr.fqAlpha sel).op = 0x11#8) ∧
    (exec (.fqPa sel) s = .next { s with result := BitVec.ofNat 64 (f / 2 ^ 26 % 2), status := 2#2 } ∧
      (Instr.fqPa sel).op = 0x12#8) ∧
    (exec (.fqPlanes sel) s = .next { s with result := BitVec.ofNat 64 (f / 2 ^ 24 % 4 + 1), status := 2#2 } ∧
      (Instr.fqPlanes sel).op = 0x13#8) ∧
    (exec (.fqUid sel) s = .next { s with result := BitVec.ofNat 64 (f % 256), status := 2#2 } ∧
      (Instr.fqUid sel).op = 0x18#8)

/-- R125, R126, R127, R128: the four size queries, bits and bytes (rounded up) per sample and per pixel, with their `OP`. -/
def Obligations.SizeQueriesRoundUpToBytes : Prop :=
  ∀ (sel : Sel) (s : State), let f := (s.descriptor sel).fmt.toNat
    (exec (.fqBps sel) s = .next { s with result := BitVec.ofNat 64 (f / 2 ^ 16 % 256), status := 2#2 } ∧
      (Instr.fqBps sel).op = 0x14#8) ∧
    (exec (.fqByps sel) s =
        .next { s with result := BitVec.ofNat 64 ((f / 2 ^ 16 % 256 + 7) / 8), status := 2#2 } ∧
      (Instr.fqByps sel).op = 0x15#8) ∧
    (exec (.fqBpp sel) s = .next { s with result := BitVec.ofNat 64 (f / 2 ^ 8 % 256), status := 2#2 } ∧
      (Instr.fqBpp sel).op = 0x16#8) ∧
    (exec (.fqBypp sel) s =
        .next { s with result := BitVec.ofNat 64 ((f / 2 ^ 8 % 256 + 7) / 8), status := 2#2 } ∧
      (Instr.fqBypp sel).op = 0x17#8) ∧
    ∀ F : SubFmt, fmtBypp F.ident = 2

/-- R130: FQ.IS420 compares two fields; on recognised formats it answers 1 exactly for the four 4:2:0 ones, where `is420`
holds; an unrecognised identifier may answer 1, and no conversion acts on that answer. -/
def Obligations.Is420QueryComparesTwoFields : Prop :=
  (∀ (sel : Sel) (s : State), let f := (s.descriptor sel).fmt.toNat
    exec (.fqIs420 sel) s =
      .next
        { s with
          result := if f / 2 ^ 28 % 16 = 2 ∧ f / 2 ^ 8 % 256 = 12 then 1#64 else 0#64
          status := 2#2 } ∧
      (Instr.fqIs420 sel).op = 0x19#8) ∧
    (∀ f : BitVec 32, recognised f = true →
      (fmtIs420q f = 1 ↔ is420 f = true) ∧
        (is420 f = true ↔ f ∈ [0x22080CB0#32, 0x22080CB1#32, 0x21080CB2#32, 0x21080CB3#32])) ∧
    fmtIs420q 0x20000C00#32 = 1 ∧ recognised 0x20000C00#32 = false ∧
    ∀ (alpha : AlphaMode) (s : State), recognised s.src.fmt = false ∨ recognised s.dst.fmt = false →
      exec (.conv1d alpha) s = .next { s with status := 2#2 } ∧ exec (.conv2d alpha) s = .next { s with status := 2#2 }

/-- R131: FQ.TWIN answers the other alpha variant, and the identifier itself where there is none; the three laws of the
lookup. -/
def Obligations.TwinQueryTogglesPremultiplication : Prop :=
  (∀ (sel : Sel) (s : State),
    exec (.fqTwin sel) s =
        .next { s with result := (fmtTwin (s.descriptor sel).fmt).setWidth 64, status := 2#2 } ∧
      (Instr.fqTwin sel).op = 0x1A#8) ∧
    (∀ p ∈ twinPairs, fmtTwin p.1 = p.2 ∧ fmtTwin p.2 = p.1) ∧
    (∀ f : BitVec 32, (∀ p ∈ twinPairs, f ≠ p.1 ∧ f ≠ p.2) → fmtTwin f = f) ∧
    (∀ f : BitVec 32, fmtTwin (fmtTwin f) = f) ∧
    (∀ f : BitVec 32, fmtTwin f ≠ f ↔ ∃ p ∈ twinPairs, f = p.1 ∨ f = p.2) ∧
    ∀ f : BitVec 32, fmtTwin f ≠ f →
      (fmtTwin f ^^^ f) &&& 0xFBFFFF00#32 = 0#32 ∧ (fmtTwin f ^^^ f).getLsbD 26 = true ∧ fmtUid (fmtTwin f) ≠ fmtUid f

/-- R132: FQ.RGBEQ answers `RGB` for the five YUV formats and the identifier itself for every other value. -/
def Obligations.RgbeqQueryAnswersRgbOrItself : Prop :=
  ∀ (sel : Sel) (s : State), let f := (s.descriptor sel).fmt
    exec (.fqRgbeq sel) s =
        .next { s with result := if f ∈ yuvIdents then 0x10181810#64 else f.setWidth 64, status := 2#2 } ∧
      (Instr.fqRgbeq sel).op = 0x1B#8

/-- R96, R97: an identifier is recognised exactly when it is one of the 23 of the table, and is then the format of that
name; `is420` holds exactly of the last four. -/
def Obligations.RecognitionIsTheTable : Prop :=
  (∀ f : BitVec 32, recognised f = true ↔ f ∈ identTable.map Prod.fst) ∧
    (∀ p ∈ identTable, recognise p.1 = some p.2) ∧ (identTable.map Prod.fst).Nodup ∧ identTable.length = 23 ∧
    recognised 0 = false ∧ recognised 0x18202009#32 = false ∧
    ∀ f : BitVec 32, is420 f = true ↔ recognised f = true ∧ 0xB0 ≤ f.toNat % 256 ∧ f.toNat % 256 ≤ 0xB3

/-- R120, R133: every query completes, its answer fits 32 bits and depends on the selected format register alone. -/
def Obligations.QueryDependsOnSelectedFormatOnly : Prop :=
  ∀ (i : Instr) (sel : Sel) (s u : State), queryOf i = some sel → (s.descriptor sel).fmt = (u.descriptor sel).fmt →
    ∃ t v, exec i s = .next t ∧ exec i u = .next v ∧ t.result = v.result ∧ t.result.toNat < 2 ^ 32

/-! ### The Buffer Descriptor commands (44_buffer_descriptor) -/

/-- R260: BD.SIZE answers the written-out size of the selected descriptor's tight buffer mod 2^64, and 0 for an unrecognised
identifier. -/
def Obligations.SizeCommandAnswersTightSize : Prop :=
  ∀ (sel : Sel) (s : State),
    (recognise (s.descriptor sel).fmt = none →
      exec (.bdSize sel) s = .next { s with result := 0#64, status := 2#2 }) ∧
    (∀ F, recognise (s.descriptor sel).fmt = some F →
      exec (.bdSize sel) s =
        .next
          { s with
            result := BitVec.ofNat 64 (writtenOutSize F s.width.toNat s.height.toNat)
            status := 2#2 }) ∧
    (Instr.bdSize sel).op = 0x20#8

/-- R262 (a): for even dimensions the tight size is the number of bytes of all the planes' rows. -/
def Obligations.TightSizeIsSumOfPlaneBytes : Prop :=
  ∀ (F : Fmt) (w h : Nat), w % 2 = 0 → h % 2 = 0 →
    tightSize F w h = ((planeIndices F.planes).map fun k => F.rowBytes k w * F.rowCount k h).sum

/-- R261: BD.NORM writes the tight stride into each zero stride register of the selected descriptor below the plane count,
where it is not 0 and fits 31 bits; it answers how many; run again at once it answers 0; an unrecognised identifier changes
nothing and answers 0; its two command words. -/
def Obligations.NormCommandFillsZeroStrides : Prop :=
  ∀ (sel : Sel) (s : State),
    (recognise (s.descriptor sel).fmt = none →
      exec (.bdNorm sel) s = .next { s with result := 0#64, status := 2#2 }) ∧
    (∀ F, recognise (s.descriptor sel).fmt = some F →
      let fills : Fin 4 → Prop := fun k =>
        k.val < F.planes ∧ ((s.descriptor sel).stride.get k).toInt = 0 ∧ 0 < F.rowBytes k s.width.toNat ∧
          F.rowBytes k s.width.toNat < 2 ^ 31
      ∃ t, exec (.bdNorm sel) s = .next t ∧ SameBut s t ∧ t.status = 2#2 ∧ t.mem = s.mem ∧
        (∀ other, other ≠ sel → t.descriptor other = s.descriptor other) ∧
        (∀ k, (fills k → ((t.descriptor sel).stride.get k).toNat = F.rowBytes k s.width.toNat) ∧
          (¬fills k → (t.descriptor sel).stride.get k = (s.descriptor sel).stride.get k)) ∧
        (∃ filled : List (Fin 4), filled.Nodup ∧ (∀ k, k ∈ filled ↔ fills k) ∧ t.result.toNat = filled.length) ∧
        exec (.bdNorm sel) t = .next { t with result := 0#64 }) ∧
    encode (.bdNorm .src) = 0x021#11 ∧ encode (.bdNorm .dst) = 0x421#11

/-- R262 (d): after BD.NORM on both descriptors every conversion leaves the same memory as without it, or stops for the same
reason. -/
def Obligations.ConversionAfterNormIsUnchanged : Prop :=
  ∀ (s t u : State) (i : Instr) (mode : AlphaMode) (h : Nat), conversionOf i s = some (mode, h) →
    exec (.bdNorm .src) s = .next t → exec (.bdNorm .dst) t = .next u → SameMemory (exec i s) (exec i u)

/-! ### The Pixel Codec (41_pixel_codec) and Color (10_state R40) -/

/-- R179, R150: decode of encode quantises as the rule's table says, for every format and every matrix; encode of decode is
the identity on the bytes of the pixel for every format but YUV444; the width is the number of bytes stored. -/
def Obligations.CodecRoundTrip : Prop :=
  (∀ (csc : CscMatrix) (F : FullFmt) (c : Color),
    (encodePixel csc F c).length = pixelLength F ∧
      decodePixel csc F (fun n => (encodePixel csc F c).getD n 0) = quantize csc F c) ∧
    ∀ (csc : CscMatrix) (F : FullFmt) (m : Nat → Byte), F ≠ .yuv444 →
      encodePixel csc F (decodePixel csc F m) = (List.range (pixelLength F)).map m

/-- R151 to R160, R167 to R169: which channel stands in which byte of the packed and planar formats with whole 8-bit
channels, in both directions; the premultiplied twins are stored as their plain formats; RGB, BGR and RGB_PLANAR drop
alpha and decode it as 255. R152, R40: the bytes of BGRA are those of the Color's 32-bit image, the lowest first. -/
def Obligations.ChannelsStandInTheirBytes : Prop :=
  (∀ F ∈ [FullFmt.rgba, .rgbaPa, .rgbaPlanar, .rgbaPlanarPa],
    CodecIs F (fun m => { r := m 0, g := m 1, b := m 2, a := m 3 }) fun c => [c.r, c.g, c.b, c.a]) ∧
    (∀ F ∈ [FullFmt.bgra, .bgraPa],
      CodecIs F (fun m => { b := m 0, g := m 1, r := m 2, a := m 3 }) fun c => [c.b, c.g, c.r, c.a]) ∧
    (∀ F ∈ [FullFmt.argb, .argbPa],
      CodecIs F (fun m => { a := m 0, r := m 1, g := m 2, b := m 3 }) fun c => [c.a, c.r, c.g, c.b]) ∧
    (∀ F ∈ [FullFmt.abgr, .abgrPa],
      CodecIs F (fun m => { a := m 0, b := m 1, g := m 2, r := m 3 }) fun c => [c.a, c.b, c.g, c.r]) ∧
    (∀ F ∈ [FullFmt.rgb, .rgbPlanar],
      CodecIs F (fun m => { r := m 0, g := m 1, b := m 2, a := 255 }) fun c => [c.r, c.g, c.b]) ∧
    CodecIs .bgr (fun m => { b := m 0, g := m 1, r := m 2, a := 255 }) (fun c => [c.b, c.g, c.r]) ∧
    ∀ F ∈ [FullFmt.bgra, .bgraPa], ∀ (csc : CscMatrix) (c : Color),
      let w := (colorWord c).toNat
      (encodePixel csc F c).map BitVec.toNat = [w % 256, w / 2 ^ 8 % 256, w / 2 ^ 16 % 256, w / 2 ^ 24]

/-- R161 to R166, R173: the 5/6/5 formats, GRAY8 and YUV444 as numbers, in both directions: which colour is in the high field,
which byte comes first, widening without replication, narrowing and the gray average truncated, alpha dropped and decoded
as 255; YUV444's bytes are the matrix's Y, U, V in that order, and its raw access is the bytes themselves. -/
def Obligations.NarrowedCodecsAreTheirFormulas : Prop :=
  ∀ (csc : CscMatrix) (m : Nat → Byte) (c : Color) (t : Yuv),
    let be := (m 0).toNat * 256 + (m 1).toNat
    let le := (m 1).toNat * 256 + (m 0).toNat
    let rgb := number565 c.r c.g c.b
    let bgr := number565 c.b c.g c.r
    (OpaqueOf (decodePixel csc .rgb565be m) (be / 2048 * 8) (be / 32 % 64 * 4) (be % 32 * 8) ∧
      (encodePixel csc .rgb565be c).map BitVec.toNat = [rgb / 256, rgb % 256]) ∧
    (OpaqueOf (decodePixel csc .rgb565le m) (le / 2048 * 8) (le / 32 % 64 * 4) (le % 32 * 8) ∧
      (encodePixel csc .rgb565le c).map BitVec.toNat = [rgb % 256, rgb / 256]) ∧
    (OpaqueOf (decodePixel csc .bgr565be m) (be % 32 * 8) (be / 32 % 64 * 4) (be / 2048 * 8) ∧
      (encodePixel csc .bgr565be c).map BitVec.toNat = [bgr / 256, bgr % 256]) ∧
    (OpaqueOf (decodePixel csc .bgr565le m) (le % 32 * 8) (le / 32 % 64 * 4) (le / 2048 * 8) ∧
      (encodePixel csc .bgr565le c).map BitVec.toNat = [bgr % 256, bgr / 256]) ∧
    (OpaqueOf (decodePixel csc .gray8 m) (m 0).toNat (m 0).toNat (m 0).toNat ∧
      (encodePixel csc .gray8 c).map BitVec.toNat = [(c.r.toNat + c.g.toNat + c.b.toNat) / 3]) ∧
    (let d := yuv2rgb csc (m 0) (m 1) (m 2)
     let e := rgb2yuv csc c.r c.g c.b
     decodePixel csc .yuv444 m = { r := d.r, g := d.g, b := d.b, a := 255 } ∧ encodePixel csc .yuv444 c = [e.y, e.u, e.v]) ∧
    decodeYuv m = { y := m 0, u := m 1, v := m 2 } ∧ encodeYuv t = [t.y, t.u, t.v]

/-- R40: the 32-bit image of a Color has blue least significant, then green, red, alpha, and two Colors are equal exactly
when their images are. -/
def Obligations.ColorWordIsLittleEndianBgra : Prop :=
  (∀ c : Color,
    (colorWord c).toNat = c.b.toNat + c.g.toNat * 2 ^ 8 + c.r.toNat * 2 ^ 16 + c.a.toNat * 2 ^ 24) ∧
    ∀ c d : Color, colorWord c = colorWord d ↔ c = d

/-- R174: `Premul` by its formula, without loss to narrowing; the identity at alpha 255; zero colour at alpha 0. -/
def Obligations.PremultiplyFormula : Prop :=
  ∀ c : Color,
    (premul c).r.toNat = c.r.toNat * (c.a.toNat + 1) / 256 ∧ (premul c).g.toNat = c.g.toNat * (c.a.toNat + 1) / 256 ∧
      (premul c).b.toNat = c.b.toNat * (c.a.toNat + 1) / 256 ∧ (premul c).a = c.a ∧
      (c.a = 255 → premul c = c) ∧ (c.a = 0 → premul c = { r := 0, g := 0, b := 0, a := 0 })

/-- R175: `Unpremul` by its formula, clamped above; the identity at alpha 255; at alpha 0 every non-zero channel is 255. -/
def Obligations.UnpremultiplyFormula : Prop :=
  ∀ c : Color,
    (unpremul c).r.toNat = min 255 (c.r.toNat * 256 / (c.a.toNat + 1)) ∧
      (unpremul c).g.toNat = min 255 (c.g.toNat * 256 / (c.a.toNat + 1)) ∧
      (unpremul c).b.toNat = min 255 (c.b.toNat * 256 / (c.a.toNat + 1)) ∧ (unpremul c).a = c.a ∧
      (c.a = 255 → unpremul c = c) ∧
      (c.a = 0 →
        unpremul c =
          { r := if c.r = 0 then 0 else 255, g := if c.g = 0 then 0 else 255, b := if c.b = 0 then 0 else 255,
            a := 0 })

/-- R180: the loss of un-premultiply after premultiply: never a gain, none at alpha 255, total at alpha 0, and for alpha
A >= 1 at most 256 / (A + 1) rounded up. -/
def Obligations.AlphaRoundTripLossIsBounded : Prop :=
  ∀ p a : Byte, let u := unpremulChannel (premulChannel p a) a
    u.toNat ≤ p.toNat ∧ (a = 255 → u = p) ∧ (a = 0 → u = 0) ∧
      (1 ≤ a.toNat → p.toNat - u.toNat ≤ (256 + a.toNat) / (a.toNat + 1))

/-- R176: the three lines of `AlphaOp` on the fields `f[27]` and `f[26]` of any two identifiers. -/
def Obligations.AlphaOperationIsTheTable : Prop :=
  ∀ sf df : BitVec 32,
    alphaOp sf df .unpremul = (if sf.toNat / 2 ^ 27 % 2 = 1 then .unpremul else .plain) ∧
      alphaOp sf df .premul = (if df.toNat / 2 ^ 27 % 2 = 1 then .premul else .plain) ∧
      alphaOp sf df .none =
        (if sf.toNat / 2 ^ 26 % 2 = 1 ∧ df.toNat / 2 ^ 26 % 2 = 0 then .unpremul
         else if sf.toNat / 2 ^ 26 % 2 = 0 ∧ df.toNat / 2 ^ 26 % 2 = 1 then .premul
         else .plain)

/-- Consequences of R176 on recognised formats: `U` is chosen only for an RGB-space source with alpha and `P` only for an
RGB-space destination with alpha; equal formats with no request need no transform; a format and its twin always need one. -/
def Obligations.AlphaOperationFollowsFormats : Prop :=
  (∀ (F G : Fmt) (mode : AlphaMode), alphaOp F.ident G.ident mode = .unpremul →
      fmtHasAlpha F.ident = 1 ∧ fmtSpace F.ident = 1) ∧
    (∀ (F G : Fmt) (mode : AlphaMode), alphaOp F.ident G.ident mode = .premul →
      fmtHasAlpha G.ident = 1 ∧ fmtSpace G.ident = 1) ∧
    (∀ F : Fmt, alphaOp F.ident F.ident .none = .plain) ∧
    (∀ (F G : Fmt) (mode : AlphaMode), fmtHasAlpha F.ident = 0 → fmtHasAlpha G.ident = 0 →
      alphaOp F.ident G.ident mode = .plain) ∧
    (∀ F : Fmt, fmtTwin F.ident ≠ F.ident →
      alphaOp F.ident (fmtTwin F.ident) .none = if fmtIsPa F.ident = 1 then .unpremul else .premul) ∧
    ∀ F G : Fmt, fmtHasAlpha F.ident = 1 → fmtHasAlpha G.ident = 1 →
      alphaOp F.ident G.ident .unpremul = .unpremul ∧ alphaOp F.ident G.ident .premul = .premul

/-- R172, the default instance of `CSC_MATRIX`, which the spec itself marks as general knowledge (log entry 8): its forward
half never leaves the nominal range. No statement about another matrix follows. -/
def Obligations.DefaultMatrixStaysNominal : Prop :=
  ∀ r g b : Byte, let t := rgb2yuv .bt601 r g b
    16 ≤ t.y.toNat ∧ t.y.toNat ≤ 235 ∧ 16 ≤ t.u.toNat ∧ t.u.toNat ≤ 240 ∧ 16 ≤ t.v.toNat ∧ t.v.toNat ≤ 240

/-- R172, the default instance of `CSC_MATRIX`, which the spec itself marks as general knowledge (G1, log entry 8): both
halves by their formulas, on integers, `>> 8` being the division by 256 rounded down (R10). No statement about another
matrix follows. -/
def Obligations.DefaultMatrixIsItsFormula : Prop :=
  (∀ r g b : Byte, let t := rgb2yuv .bt601 r g b
    (t.y.toNat : Int) = clampTo255 (Int.fdiv (66 * r.toNat + 129 * g.toNat + 25 * b.toNat + 128) 256 + 16) ∧
      (t.u.toNat : Int) = clampTo255 (Int.fdiv (-38 * r.toNat - 74 * g.toNat + 112 * b.toNat + 128) 256 + 128) ∧
      (t.v.toNat : Int) = clampTo255 (Int.fdiv (112 * r.toNat - 94 * g.toNat - 18 * b.toNat + 128) 256 + 128)) ∧
    ∀ y u v : Byte, let t := yuv2rgb .bt601 y u v
      let c : Int := y.toNat - 16
      let d : Int := u.toNat - 128
      let e : Int := v.toNat - 128
      (t.r.toNat : Int) = clampTo255 (Int.fdiv (298 * c + 409 * e + 128) 256) ∧
        (t.g.toNat : Int) = clampTo255 (Int.fdiv (298 * c - 100 * d - 208 * e + 128) 256) ∧
        (t.b.toNat : Int) = clampTo255 (Int.fdiv (298 * c + 516 * d + 128) 256)

/-- R208, R211: the chroma mean is rounded half up, its clamp never acts, and four equal samples give that sample. -/
def Obligations.ChromaMeanRoundsHalfUp : Prop :=
  (∀ a b c d : Byte, (chromaMean a b c d).toNat = (a.toNat + b.toNat + c.toNat + d.toNat + 2) / 4) ∧
    ∀ c : Byte, chromaMean c c c c = c

/-! ### The conversions (43_converters, 42_chroma_sampler, 20_memory) -/

/-- R222, R221: exactly when a conversion is a no-op, and that it then only completes; every pair of recognised formats is a
conversion otherwise, of the plane pointers as they stand (R254) and the strides normalised plane by plane (R102, R253). -/
def Obligations.NoOpConversionOnlyCompletes : Prop :=
  ∀ (i : Instr) (s : State) (mode : AlphaMode) (h : Nat), conversionOf i s = some (mode, h) →
    let degenerate : Prop :=
      mode = .reserved ∨ recognise s.src.fmt = none ∨ recognise s.dst.fmt = none ∨ s.width.toNat = 0 ∨ h = 0 ∨
        ((is420 s.src.fmt = true ∨ is420 s.dst.fmt = true) ∧ (s.width.toNat % 2 = 1 ∨ h % 2 = 1))
    (degenerate → exec i s = .next { s with status := 2#2 }) ∧
      (¬degenerate → ∃ j, jobOf s.operands h mode = some j ∧ some j.src.fmt = recognise s.src.fmt ∧
        some j.dst.fmt = recognise s.dst.fmt ∧ j.w = s.width.toNat ∧ j.h = h ∧
        j.aop = alphaOp s.src.fmt s.dst.fmt mode ∧
        (∀ k : Fin 4, k.val < j.src.fmt.planes →
          j.src.ptr.get k = (s.src.ptr.get k).toNat ∧
            j.src.rs.get k =
              if s.src.stride.get k = 0#32 then (j.src.fmt.rowBytes k s.width.toNat : Int)
              else (s.src.stride.get k).toInt) ∧
        ∀ k : Fin 4, k.val < j.dst.fmt.planes →
          j.dst.ptr.get k = (s.dst.ptr.get k).toNat ∧
            j.dst.rs.get k =
              if s.dst.stride.get k = 0#32 then (j.dst.fmt.rowBytes k s.width.toNat : Int)
              else (s.dst.stride.get k).toInt)

/-- R250, R251: planes, sample strides, bytes per row and rows of every plane, family by family. -/
def Obligations.PlaneGeometryIsTheTable : Prop :=
  (∀ F ∈ [FullFmt.rgba, .bgra, .argb, .abgr, .rgbaPa, .bgraPa, .argbPa, .abgrPa], OnePlane (.full F) 4) ∧
    (∀ F ∈ [FullFmt.rgb, .bgr, .yuv444], OnePlane (.full F) 3) ∧
    (∀ F ∈ [FullFmt.rgb565be, .rgb565le, .bgr565be, .bgr565le], OnePlane (.full F) 2) ∧ OnePlane (.full .gray8) 1 ∧
    (∀ F ∈ [FullFmt.rgbaPlanar, .rgbaPlanarPa], (Fmt.full F).planes = 4 ∧
      ∀ k w h, PlaneIs (.full F) k 1 w h w h) ∧
    ((Fmt.full .rgbPlanar).planes = 3 ∧ ∀ (k : Fin 4) (w h : Nat), k.val < 3 → PlaneIs (.full .rgbPlanar) k 1 w h w h) ∧
    (∀ F ∈ [SubFmt.i420, .yv12], (Fmt.sub F).planes = 3 ∧ ∀ w h, PlaneIs (.sub F) 0 1 w h w h ∧
      PlaneIs (.sub F) 1 1 w h (w / 2) (h / 2) ∧ PlaneIs (.sub F) 2 1 w h (w / 2) (h / 2)) ∧
    ∀ F ∈ [SubFmt.nv21, .nv12], (Fmt.sub F).planes = 2 ∧ ∀ w h, PlaneIs (.sub F) 0 1 w h w h ∧
      PlaneIs (.sub F) 1 2 w h (2 * (w / 2)) (h / 2)

/-- R202 to R205, R66: where the luma, U and V samples of the four 4:2:0 arrangements stand, as expressions in the plane
pointers, the row strides and the position. -/
def Obligations.ChromaSitesAreThoseOfTheSpec : Prop :=
  ∀ (sd : Side) (x y : Nat),
    (sd.fmt = .sub .i420 →
      lumaAddr sd x y = (sd.ptr.p0 : Int) + y * sd.rs.p0 + x ∧
        uAddr .i420 sd x y = (sd.ptr.p1 : Int) + y * sd.rs.p1 + x ∧
        vAddr .i420 sd x y = (sd.ptr.p2 : Int) + y * sd.rs.p2 + x) ∧
    (sd.fmt = .sub .yv12 →
      lumaAddr sd x y = (sd.ptr.p0 : Int) + y * sd.rs.p0 + x ∧
        vAddr .yv12 sd x y = (sd.ptr.p1 : Int) + y * sd.rs.p1 + x ∧
        uAddr .yv12 sd x y = (sd.ptr.p2 : Int) + y * sd.rs.p2 + x) ∧
    (sd.fmt = .sub .nv21 →
      lumaAddr sd x y = (sd.ptr.p0 : Int) + y * sd.rs.p0 + x ∧
        vAddr .nv21 sd x y = (sd.ptr.p1 : Int) + y * sd.rs.p1 + x * 2 ∧
        uAddr .nv21 sd x y = (sd.ptr.p1 : Int) + y * sd.rs.p1 + x * 2 + 1) ∧
    (sd.fmt = .sub .nv12 →
      lumaAddr sd x y = (sd.ptr.p0 : Int) + y * sd.rs.p0 + x ∧
        uAddr .nv12 sd x y = (sd.ptr.p1 : Int) + y * sd.rs.p1 + x * 2 ∧
        vAddr .nv12 sd x y = (sd.ptr.p1 : Int) + y * sd.rs.p1 + x * 2 + 1)

/-- R178, R66: where byte `n` of pixel (x, y) of a full-resolution side stands: at offset `n` of a packed pixel of 4, 3, 2 or
1 bytes, or in plane `n` of a planar format (`RGB_PLANAR` has no plane 3). -/
def Obligations.PixelBytesAreThoseOfTheSpec : Prop :=
  (∀ (F : FullFmt) (size : Nat) (sd : Side) (x y n : Nat), (F, size) ∈ packedSizes → sd.fmt = .full F →
    pixelByteAddr F sd x y n = (sd.ptr.p0 : Int) + y * sd.rs.p0 + x * size + n) ∧
    ∀ (F : FullFmt) (sd : Side) (x y : Nat), F ∈ [FullFmt.rgbaPlanar, .rgbaPlanarPa, .rgbPlanar] → sd.fmt = .full F →
      pixelByteAddr F sd x y 0 = (sd.ptr.p0 : Int) + y * sd.rs.p0 + x ∧
        pixelByteAddr F sd x y 1 = (sd.ptr.p1 : Int) + y * sd.rs.p1 + x ∧
        pixelByteAddr F sd x y 2 = (sd.ptr.p2 : Int) + y * sd.rs.p2 + x ∧
        (F ≠ .rgbPlanar → pixelByteAddr F sd x y 3 = (sd.ptr.p3 : Int) + y * sd.rs.p3 + x)

/-- R72 (a), (b): a conversion whose footprints share an address, or two of whose destination rows do, is refused. The names,
and that (a) is named before (b) and either before a broken R68, are the model's (log entry 17). -/
def Obligations.BrokenFootprintContractIsRefused : Prop :=
  ∀ (i : Instr) (s : State) (mode : AlphaMode) (h : Nat) (j : Job), conversionOf i s = some (mode, h) →
    jobOf s.operands h mode = some j →
      ((∃ a, rowsHold j.srcRows a = true ∧ rowsHold j.dstRows a = true) → exec i s = .refused .aliasedFootprints) ∧
        ((∀ a, ¬(rowsHold j.srcRows a = true ∧ rowsHold j.dstRows a = true)) →
          ¬(j.dstRows.Pairwise fun r q => ∀ a, ¬(r.holds a = true ∧ q.holds a = true)) →
            exec i s = .refused .overlappingDestinationRows)

/-- R237 (h), R270, R301: with both contracts met, a command with an address of a footprint that is not admitted never
completes; the fault that stands for it is the model's (log entry 14). R60, R66, R301: an address outside 0 to 2^AW - 1, or
in a register region, is never admitted. -/
def Obligations.UnadmittedAccessNeverCompletes : Prop :=
  (∀ (i : Instr) (s : State) (mode : AlphaMode) (h : Nat) (j : Job), conversionOf i s = some (mode, h) →
    jobOf s.operands h mode = some j →
      (∀ a, ¬(rowsHold j.srcRows a = true ∧ rowsHold j.dstRows a = true)) →
        (j.dstRows.Pairwise fun r q => ∀ a, ¬(r.holds a = true ∧ q.holds a = true)) →
          ((∃ a, rowsHold j.srcRows a = true ∧ s.platform.admitsRead a = false) ∨
            ∃ a, rowsHold j.dstRows a = true ∧ s.platform.admitsWrite a = false) →
              exec i s = .fault .neverCompletes) ∧
    ∀ (p : Platform) (a : Int),
      (a < 0 ∨ 2 ^ p.aw ≤ a ∨ ∃ base : Nat, (p.regBase = some base ∨ base ∈ p.otherRegBases) ∧ (base : Int) ≤ a ∧
          a < (base : Int) + 256) →
        p.admitsRead a = false ∧ p.admitsWrite a = false

/-- R238, R275: the engine's turn on a busy machine completes its command, whatever the word (a reserved `OP` too), with
`BUSY` = 0 and `DONE` = 1, provided a conversion that is not a no-op meets its contract. When the turn comes, and that it is
the whole command, are the model's (log entries 9 and 3). -/
def Obligations.AdmittedCommandCompletes : Prop :=
  (∀ (s : State) (i : Instr), s.busy = true → (s.schedule = [] ∨ ∃ rest, s.schedule = .engine :: rest) →
    decode s.cmd = .ok i →
      (∀ mode h j, conversionOf i s = some (mode, h) → jobOf s.operands h mode = some j → Contract s j) →
        ∃ t, step s = .next t ∧ t.busy = false ∧ t.done = true ∧ t.cmd = s.cmd) ∧
    ∀ (s : State) (e : DecodeError), s.busy = true → (s.schedule = [] ∨ ∃ rest, s.schedule = .engine :: rest) →
      decode s.cmd = .error e → ∃ t, step s = .next t ∧ t.busy = false ∧ t.done = true ∧ t.cmd = s.cmd

/-- R71: a conversion changes no byte outside its destination footprint, whatever its path. -/
def Obligations.ConversionWritesOnlyItsFootprint : Prop :=
  ∀ (i : Instr) (s t : State) (mode : AlphaMode) (h : Nat) (j : Job), conversionOf i s = some (mode, h) →
    jobOf s.operands h mode = some j → exec i s = .next t → UnchangedOutside j s.mem t.mem

/-- R231: identical formats with no alpha operation are copied, row footprint for row footprint, byte for byte. -/
def Obligations.CopyMovesEveryByte : Prop :=
  ∀ (i : Instr) (s : State) (j : Job) (F : FullFmt), s.mem.wf → Ready i s j → j.src.fmt = .full F → j.dst.fmt = .full F →
    j.aop = .plain →
      ∃ m, exec i s = .next { s with mem := m, status := 2#2 } ∧
        (∀ (k : Fin 4) (y n : Nat), k.val < j.src.fmt.planes → y < j.src.fmt.rowCount k j.h →
          n < j.src.fmt.rowBytes k j.w →
            m.readAt ((j.dst.ptr.get k : Int) + (y : Int) * j.dst.rs.get k + (n : Int)) =
              s.mem.readAt ((j.src.ptr.get k : Int) + (y : Int) * j.src.rs.get k + (n : Int))) ∧
        UnchangedOutside j s.mem m

/-- R234, R177: every other full-resolution pair decodes each pixel, applies the alpha operation and encodes it. -/
def Obligations.TranscodeStoresEveryPixel : Prop :=
  ∀ (i : Instr) (s : State) (j : Job) (F G : FullFmt), s.mem.wf → Ready i s j → j.src.fmt = .full F →
    j.dst.fmt = .full G → ¬(F = G ∧ j.aop = .plain) →
      ∃ m, exec i s = .next { s with mem := m, status := 2#2 } ∧
        (∀ x y n : Nat, x < j.w → y < j.h → n < pixelLength G →
          dstPixelByte m G j x y n =
            (encodePixel s.platform.csc G
              (applyAlpha j.aop (decodePixel s.platform.csc F fun k => srcPixelByte s.mem F j x y k))).getD n 0) ∧
        UnchangedOutside j s.mem m

/-- R208, R232, R206: into a 4:2:0 format every pixel's luma is stored, and each block's U and V are the rounded means of its
four pixels' U and V. -/
def Obligations.SubsampleStoresLumaAndMeans : Prop :=
  ∀ (i : Instr) (s : State) (j : Job) (F : FullFmt) (G : SubFmt), s.mem.wf → Ready i s j → j.src.fmt = .full F →
    j.dst.fmt = .sub G →
      let t := sourceTriple s.platform.csc s.mem F j
      ∃ m, exec i s = .next { s with mem := m, status := 2#2 } ∧
        (∀ x y : Nat, x < j.w → y < j.h → m.readAt (lumaAddr j.dst x y) = (t x y).y) ∧
        (∀ cx cy : Nat, cx < j.w / 2 → cy < j.h / 2 →
          (m.readAt (uAddr G j.dst cx cy)).toNat =
              ((t (2 * cx) (2 * cy)).u.toNat + (t (2 * cx + 1) (2 * cy)).u.toNat +
                (t (2 * cx) (2 * cy + 1)).u.toNat + (t (2 * cx + 1) (2 * cy + 1)).u.toNat + 2) / 4 ∧
            (m.readAt (vAddr G j.dst cx cy)).toNat =
              ((t (2 * cx) (2 * cy)).v.toNat + (t (2 * cx + 1) (2 * cy)).v.toNat +
                (t (2 * cx) (2 * cy + 1)).v.toNat + (t (2 * cx + 1) (2 * cy + 1)).v.toNat + 2) / 4) ∧
        UnchangedOutside j s.mem m

/-- R209, R233, R207: out of a 4:2:0 format every pixel takes its own luma and its block's one chroma pair; an RGB-space
destination gets alpha 255, YUV444 the triple itself. -/
def Obligations.UpsampleDuplicatesChroma : Prop :=
  ∀ (i : Instr) (s : State) (j : Job) (F : SubFmt) (G : FullFmt), s.mem.wf → Ready i s j → j.src.fmt = .sub F →
    j.dst.fmt = .full G →
      ∃ m, exec i s = .next { s with mem := m, status := 2#2 } ∧
        (∀ x y n : Nat, x < j.w → y < j.h → n < pixelLength G →
          dstPixelByte m G j x y n =
            (storedTriple s.platform.csc G
              { y := s.mem.readAt (lumaAddr j.src x y)
                u := s.mem.readAt (uAddr F j.src (x / 2) (y / 2))
                v := s.mem.readAt (vAddr F j.src (x / 2) (y / 2)) }).getD n 0) ∧
        UnchangedOutside j s.mem m

/-- R210, R230: between 4:2:0 formats every sample is copied unchanged. -/
def Obligations.ReshuffleCopiesEverySample : Prop :=
  ∀ (i : Instr) (s : State) (j : Job) (F G : SubFmt), s.mem.wf → Ready i s j → j.src.fmt = .sub F → j.dst.fmt = .sub G →
    ∃ m, exec i s = .next { s with mem := m, status := 2#2 } ∧
      (∀ x y : Nat, x < j.w → y < j.h → m.readAt (lumaAddr j.dst x y) = s.mem.readAt (lumaAddr j.src x y)) ∧
      (∀ cx cy : Nat, cx < j.w / 2 → cy < j.h / 2 →
        m.readAt (uAddr G j.dst cx cy) = s.mem.readAt (uAddr F j.src cx cy) ∧
          m.readAt (vAddr G j.dst cx cy) = s.mem.readAt (vAddr F j.src cx cy)) ∧
      UnchangedOutside j s.mem m

/-- R235: converting a format to itself with no request, or with one that does not apply, makes the destination footprint
byte-identical to the source footprint, 4:2:0 formats included. -/
def Obligations.IdentityConversionIsVerbatim : Prop :=
  ∀ (i : Instr) (s : State) (j : Job) (mode : AlphaMode) (h : Nat), s.mem.wf → Ready i s j →
    conversionOf i s = some (mode, h) → j.src.fmt = j.dst.fmt → mode = .none ∨ fmtHasAlpha j.src.fmt.ident = 0 →
      ∃ t, exec i s = .next t ∧
        ∀ (k : Fin 4) (y n : Nat), k.val < j.src.fmt.planes → y < j.src.fmt.rowCount k j.h →
          n < j.src.fmt.rowBytes k j.w →
            t.mem.readAt ((j.dst.ptr.get k : Int) + (y : Int) * j.dst.rs.get k + (n : Int)) =
              s.mem.readAt ((j.src.ptr.get k : Int) + (y : Int) * j.src.rs.get k + (n : Int))

/-- R70, R74: two machines with the same registers and platform whose memories agree on `SrcFoot` end with the same bytes in
all of `DstFoot`, whatever stands anywhere else, in `DstFoot` too. -/
def Obligations.ConversionIsFunctionOfSourceFootprint : Prop :=
  ∀ (i : Instr) (s u : State) (j : Job), s.mem.wf → u.mem.wf → Ready i s j → u.operands = s.operands →
    u.platform = s.platform →
    (∀ a : Int, rowsHold j.srcRows a = true → u.mem.readAt a = s.mem.readAt a) →
      ∃ t v, exec i s = .next t ∧ exec i u = .next v ∧
        ∀ a : Int, rowsHold j.dstRows a = true → v.mem.readAt a = t.mem.readAt a

/-- R223: CONV1D reads neither `HEIGHT` nor a stride register. -/
def Obligations.ScanlineIgnoresHeightAndStrides : Prop :=
  ∀ (alpha : AlphaMode) (s : State) (h : BitVec 32) (p q : Quad (BitVec 32)),
    SameMemory (exec (.conv1d alpha) s)
      (exec (.conv1d alpha) (({ s with height := h }.setStrides .src p).setStrides .dst q))

/-- R23, R250: pointer and stride slots at or above the plane count of the format concerned are never read by a
conversion. -/
def Obligations.UnusedPlaneSlotsAreIgnored : Prop :=
  ∀ (i : Instr) (s u : State) (mode : AlphaMode) (h : Nat) (F G : Fmt), conversionOf i s = some (mode, h) →
    recognise s.src.fmt = some F → recognise s.dst.fmt = some G →
    u.cmd = s.cmd → u.width = s.width → u.height = s.height → u.src.fmt = s.src.fmt → u.dst.fmt = s.dst.fmt →
    u.mem = s.mem → u.platform = s.platform →
    (∀ k : Fin 4, k.val < F.planes → u.src.ptr.get k = s.src.ptr.get k ∧ u.src.stride.get k = s.src.stride.get k) →
    (∀ k : Fin 4, k.val < G.planes → u.dst.ptr.get k = s.dst.ptr.get k ∧ u.dst.stride.get k = s.dst.stride.get k) →
      SameMemory (exec i s) (exec i u)

/-! ### Other agents and reset (20_memory R73, 70_reset_and_hazards) -/

/-- R73: from acceptance until completion is observed (the model's window, log entry 2), another agent's read of `DstFoot`,
and its write of `SrcFoot` or `DstFoot`, race; that they are refused is the model's choice of the two treatments R73 allows
(log entry 15). Every other access to memory reads the byte, or stores it and nothing else. -/
def Obligations.ExclusivityContractIsEnforced : Prop :=
  (∀ (s : State) (a : Nat) (v : Byte) (o : Operands) (j : Job) (rest : List Event), o ∈ s.window →
    commandJob o = some j → s.platform.isMemory a = true →
      (rowsHold j.dstRows (a : Int) = true →
        step { s with schedule := .memRead a :: rest } = .refused .dataRace) ∧
      (rowsHold j.srcRows (a : Int) = true ∨ rowsHold j.dstRows (a : Int) = true →
        step { s with schedule := .memWrite a v :: rest } = .refused .dataRace)) ∧
    (∀ (s : State) (a : Nat) (rest : List Event), s.platform.isMemory a = true →
      (∀ o ∈ s.window, ∀ j, commandJob o = some j → rowsHold j.dstRows (a : Int) = false) →
        step { s with schedule := .memRead a :: rest } =
          .next { s with schedule := rest, readData := (s.mem.read a).setWidth 64 }) ∧
    ∀ (s : State) (a : Nat) (v : Byte) (rest : List Event), s.mem.wf → s.platform.isMemory a = true →
      (∀ o ∈ s.window, ∀ j, commandJob o = some j →
        rowsHold j.srcRows (a : Int) = false ∧ rowsHold j.dstRows (a : Int) = false) →
        ∃ m, step { s with schedule := .memWrite a v :: rest } = .next { s with schedule := rest, mem := m } ∧
          m.wf ∧ m.read a = v ∧ ∀ b, b ≠ a → m.read b = s.mem.read b

/-- R300: the withdrawal of region number `i` of the admission map changes nothing else; no address becomes admitted by it, and
one that only region `i` backed is admitted no longer. The event is the model's (log entry 13). -/
def Obligations.UnmapWithdrawsARegion : Prop :=
  ∀ (s : State) (i : Nat) (rest : List Event), s.schedule = .unmap i :: rest →
    ∃ p : Platform, step s = .next { s with schedule := rest, platform := p } ∧ p.aw = s.platform.aw ∧
      p.regBase = s.platform.regBase ∧ p.otherRegBases = s.platform.otherRegBases ∧ p.csc = s.platform.csc ∧
      (∀ a, p.admitsRead a = true → s.platform.admitsRead a = true) ∧
      (∀ a, p.admitsWrite a = true → s.platform.admitsWrite a = true) ∧
      (∀ a, (∃ j r, j ≠ i ∧ s.platform.regions[j]? = some r ∧ r.readable = true ∧ r.backs a.toNat = true) →
        p.admitsRead a = s.platform.admitsRead a) ∧
      (∀ a, (∃ j r, j ≠ i ∧ s.platform.regions[j]? = some r ∧ r.writable = true ∧ r.backs a.toNat = true) →
        p.admitsWrite a = s.platform.admitsWrite a) ∧
      ∀ a, (∀ j r, s.platform.regions[j]? = some r → r.backs a.toNat = true → j = i) →
        p.admitsRead a = false ∧ p.admitsWrite a = false

/-- R290: after a reset every register reads 0, reserved registers included, and no command is in progress; that the
exclusivity window is emptied is the model's (log entry 16). -/
def Obligations.ResetZeroesEveryRegister : Prop :=
  (∀ n : Fin 32, State.reset.slot (regOfNumber n) = 0#64) ∧
    ∀ (s : State) (rest : List Event), s.schedule = .reset :: rest →
      ∃ t, step s = .next t ∧ (∀ n : Fin 32, t.slot (regOfNumber n) = 0#64) ∧ t.busy = false ∧ t.window = [] ∧
        t.schedule = rest ∧ t.platform = s.platform

/-- R291: a reset changes no byte outside the abandoned command's `DstFoot`, and no byte at all when the engine is idle or
its command accesses no memory; every byte of the `DstFoot` of a busy engine's command holds a free value (log entry 11),
whether or not PFC may write it; the memory stays in canonical form. The clause on the free value holds for every value of
it and of the counter. That all this holds of an abandoned command that breaks R72 or R68 too, of which R72 says nothing, is
the model's (log entry 16). -/
def Obligations.ResetFreesExactlyTheDestination : Prop :=
  ∀ (s : State) (rest : List Event), s.schedule = .reset :: rest →
    ∃ t, step s = .next t ∧ (s.mem.wf → t.mem.wf) ∧
      ((s.busy = false ∨ commandJob s.operands = none) → t.mem = s.mem) ∧
      (∀ j, commandJob s.operands = some j → UnchangedOutside j s.mem t.mem) ∧
      ∀ j, s.mem.wf → s.busy = true → commandJob s.operands = some j → ∀ a : Nat, rowsHold j.dstRows (a : Int) = true →
        s.platform.namesByte (a : Int) = true → t.mem.read a = Config.abandonedByte s.freeCount a

/-- R292: straight after reset every command is harmless: it completes, touches no memory, and the queries answer for the
identifier 0 (all 0 but FQ.PLANES, which answers 1). -/
def Obligations.CommandsAfterResetAreHarmless : Prop :=
  ∀ i : Instr, ∃ t, exec i State.reset = .next t ∧ t.mem = State.reset.mem ∧ t.status = 2#2 ∧
    t.result = (match i with
      | .fqPlanes _ => 1#64
      | _ => 0#64)
end

