-- ==== Sys2Proof/Laws/Memory.lean ====
section
/-! SUPPORT. The laws of memory: a read after a write, what a write leaves alone, and that every memory operation keeps the
canonical form and the address bound. -/

namespace Sys2Proof.Machine

/-- A read of a smaller address than any listed one finds nothing. -/
theorem Memory.read_eq_unlisted {m : Memory} {a : Nat} (h : ∀ c ∈ m, a < c.1) : m.read a = Memory.unlisted := by
  induction m with
  | nil => rfl
  | cons c rest ih =>
    obtain ⟨k, w⟩ := c
    have hk : a < k := h (k, w) (by simp)
    simp only [Memory.read, if_neg (Nat.ne_of_gt hk)]
    exact ih fun d hd => h d (by simp [hd])

theorem Memory.wf_tail {k : Nat} {w : Byte} {rest : Memory} (h : Memory.wf ((k, w) :: rest)) : Memory.wf rest := by
  obtain ⟨hp, hv⟩ := h
  simp only [List.map_cons, List.pairwise_cons] at hp
  exact ⟨hp.2, fun c hc => hv c (by simp [hc])⟩

theorem Memory.wf_head {k : Nat} {w : Byte} {rest : Memory} (h : Memory.wf ((k, w) :: rest)) :
    (∀ c ∈ rest, k < c.1) ∧ w ≠ Memory.unlisted := by
  obtain ⟨hp, hv⟩ := h
  simp only [List.map_cons, List.pairwise_cons] at hp
  exact ⟨fun c hc => hp.1 c.1 (List.mem_map_of_mem hc), hv (k, w) (by simp)⟩

theorem Memory.wf_cons {k : Nat} {w : Byte} {rest : Memory} (hr : Memory.wf rest) (hk : ∀ c ∈ rest, k < c.1)
    (hw : w ≠ Memory.unlisted) : Memory.wf ((k, w) :: rest) := by
  refine ⟨?_, ?_⟩
  · simp only [List.map_cons, List.pairwise_cons]
    refine ⟨?_, hr.1⟩
    intro a ha
    obtain ⟨c, hc, rfl⟩ := List.mem_map.1 ha
    exact hk c hc
  · intro c hc
    rcases List.mem_cons.1 hc with rfl | hc
    · exact hw
    · exact hr.2 c hc

/-- What a write leaves alone: every other address, whatever the form of the memory. -/
theorem Memory.read_write_ne (m : Memory) {a b : Nat} (v : Byte) (h : b ≠ a) : (m.write a v).read b = m.read b := by
  induction m with
  | nil =>
    simp only [Memory.write]
    split
    · rfl
    · simp [Memory.read, Ne.symm h]
  | cons c rest ih =>
    obtain ⟨k, w⟩ := c
    simp only [Memory.write]
    split
    · split
      · rfl
      · simp [Memory.read, Ne.symm h]
    · split
      · rename_i hk
        subst hk
        split <;> simp [Memory.read, Ne.symm h]
      · simp only [Memory.read, ih]

/-- A read after a write to the same place, in a memory of canonical form. -/
theorem Memory.read_write_same {m : Memory} (hm : m.wf) (a : Nat) (v : Byte) : (m.write a v).read a = v := by
  induction m with
  | nil =>
    simp only [Memory.write]
    split
    · rename_i hv; simp [Memory.read, hv]
    · simp [Memory.read]
  | cons c rest ih =>
    obtain ⟨k, w⟩ := c
    have hh := Memory.wf_head hm
    simp only [Memory.write]
    split
    · rename_i hak
      split
      · rename_i hv
        rw [hv]
        refine Memory.read_eq_unlisted ?_
        intro d hd
        rcases List.mem_cons.1 hd with rfl | hd
        · exact hak
        · exact Nat.lt_trans hak (hh.1 d hd)
      · simp [Memory.read]
    · split
      · rename_i hk
        subst hk
        split
        · rename_i hv
          rw [hv]
          exact Memory.read_eq_unlisted hh.1
        · simp [Memory.read]
      · rename_i h1 h2
        simp only [Memory.read, if_neg (Ne.symm h2)]
        exact ih (Memory.wf_tail hm)

/-- Every address a write lists is the written one or was listed before. -/
theorem Memory.mem_write {m : Memory} {a : Nat} {v : Byte} {c : Host.Cell} (h : c ∈ m.write a v) :
    c ∈ m ∨ c.1 = a := by
  induction m with
  | nil =>
    simp only [Memory.write] at h
    split at h
    · simp at h
    · simp only [List.mem_singleton] at h
      exact .inr (by rw [h])
  | cons d rest ih =>
    obtain ⟨k, w⟩ := d
    simp only [Memory.write] at h
    split at h
    · split at h
      · exact .inl h
      · rcases List.mem_cons.1 h with rfl | h
        · exact .inr rfl
        · exact .inl h
    · split at h
      · split at h
        · exact .inl (by simp [h])
        · rcases List.mem_cons.1 h with rfl | h
          · exact .inr rfl
          · exact .inl (by simp [h])
      · rcases List.mem_cons.1 h with rfl | h
        · exact .inl (by simp)
        · rcases ih h with h | h
          · exact .inl (by simp [h])
          · exact .inr h

/-- A write keeps the canonical form. -/
theorem Memory.write_wf {m : Memory} (hm : m.wf) (a : Nat) (v : Byte) : (m.write a v).wf := by
  induction m with
  | nil =>
    simp only [Memory.write]
    split
    · exact hm
    · rename_i hv
      exact Memory.wf_cons hm (by simp) hv
  | cons c rest ih =>
    obtain ⟨k, w⟩ := c
    have hh := Memory.wf_head hm
    have ht := Memory.wf_tail hm
    simp only [Memory.write]
    split
    · rename_i hak
      split
      · exact hm
      · rename_i hv
        refine Memory.wf_cons hm ?_ hv
        intro d hd
        rcases List.mem_cons.1 hd with rfl | hd
        · exact hak
        · exact Nat.lt_trans hak (hh.1 d hd)
    · split
      · rename_i hk
        subst hk
        split
        · exact ht
        · rename_i hv
          exact Memory.wf_cons ht hh.1 hv
      · rename_i h1 h2
        refine Memory.wf_cons (ih ht) ?_ hh.2
        intro d hd
        rcases Memory.mem_write hd with hd | hd
        · exact hh.1 d hd
        · omega

theorem Memory.write_within {m : Memory} {aw a : Nat} (hm : m.within aw) (ha : a < 2 ^ aw) (v : Byte) :
    (m.write a v).within aw := by
  intro c hc
  rcases Memory.mem_write hc with hc | hc
  · exact hm c hc
  · rw [hc]; exact ha

theorem Memory.writeAll_append (m : Memory) (ws us : List (Nat × Byte)) :
    m.writeAll (ws ++ us) = (m.writeAll ws).writeAll us := by
  induction ws generalizing m with
  | nil => rfl
  | cons w rest ih => exact ih _

theorem Memory.writeAll_wf {m : Memory} (hm : m.wf) (ws : List (Nat × Byte)) : (m.writeAll ws).wf := by
  induction ws generalizing m with
  | nil => exact hm
  | cons w rest ih => exact ih (Memory.write_wf hm w.1 w.2)

theorem Memory.writeAll_within {m : Memory} {aw : Nat} (hm : m.within aw) (ws : List (Nat × Byte))
    (h : ∀ w ∈ ws, w.1 < 2 ^ aw) : (m.writeAll ws).within aw := by
  induction ws generalizing m with
  | nil => exact hm
  | cons w rest ih =>
    exact ih (Memory.write_within hm (h w (by simp)) w.2) fun u hu => h u (by simp [hu])

/-- What a list of writes leaves alone. -/
theorem Memory.read_writeAll_of_not_mem (m : Memory) (ws : List (Nat × Byte)) {a : Nat} (h : a ∉ ws.map Prod.fst) :
    (m.writeAll ws).read a = m.read a := by
  induction ws generalizing m with
  | nil => rfl
  | cons w rest ih =>
    simp only [List.map_cons, List.mem_cons, not_or] at h
    exact (ih (m.write w.1 w.2) h.2).trans (Memory.read_write_ne m w.2 h.1)

/-- A byte of a list of writes to distinct addresses reads as written. -/
theorem Memory.read_writeAll_of_mem {m : Memory} (hm : m.wf) {ws : List (Nat × Byte)}
    (hd : (ws.map Prod.fst).Nodup) {a : Nat} {v : Byte} (h : (a, v) ∈ ws) : (m.writeAll ws).read a = v := by
  induction ws generalizing m with
  | nil => simp at h
  | cons w rest ih =>
    simp only [List.map_cons, List.nodup_cons] at hd
    rcases List.mem_cons.1 h with rfl | h
    · exact (Memory.read_writeAll_of_not_mem _ rest hd.1).trans (Memory.read_write_same hm a v)
    · exact ih (Memory.write_wf hm w.1 w.2) hd.2 h

theorem Memory.storeAt_wf {m : Memory} (hm : m.wf) (ws : List (Int × Byte)) : (m.storeAt ws).wf :=
  Memory.writeAll_wf hm _

theorem Job.result_wf {m : Memory} (hm : m.wf) (j : Job) (csc : CscMatrix) : (j.result csc m).wf :=
  Memory.storeAt_wf hm _

/-- What a store at computed addresses leaves alone. -/
theorem Memory.read_storeAt_of_not_mem (m : Memory) (ws : List (Int × Byte)) {a : Nat}
    (h : ∀ w ∈ ws, w.1.toNat ≠ a) : (m.storeAt ws).read a = m.read a := by
  refine Memory.read_writeAll_of_not_mem m _ ?_
  simp only [List.map_map, List.mem_map, not_exists, not_and]
  intro w hw
  exact h w hw

/-- The memory right after reset is in canonical form. -/
theorem State.reset_mem_wf : State.reset.mem.wf := by decide

end Sys2Proof.Machine
end

