-- ==== Sys2Proof/Laws/State.lean ====
section
/-! SUPPORT. One lemma per field per update of State: what an update writes and what it leaves. -/

namespace Sys2Proof.Machine

variable (s : State)

/-! ### `complete` -/

@[simp] theorem State.complete_cmd : (s.complete).cmd = s.cmd := rfl

@[simp] theorem State.complete_status : (s.complete).status = statusDone := rfl

@[simp] theorem State.complete_result : (s.complete).result = s.result := rfl

@[simp] theorem State.complete_width : (s.complete).width = s.width := rfl

@[simp] theorem State.complete_height : (s.complete).height = s.height := rfl

@[simp] theorem State.complete_src : (s.complete).src = s.src := rfl

@[simp] theorem State.complete_dst : (s.complete).dst = s.dst := rfl

@[simp] theorem State.complete_mem : (s.complete).mem = s.mem := rfl

@[simp] theorem State.complete_window : (s.complete).window = s.window := rfl

@[simp] theorem State.complete_schedule : (s.complete).schedule = s.schedule := rfl

@[simp] theorem State.complete_readData : (s.complete).readData = s.readData := rfl

@[simp] theorem State.complete_freeCount : (s.complete).freeCount = s.freeCount := rfl

@[simp] theorem State.complete_platform : (s.complete).platform = s.platform := rfl

/-! ### `completeWith` -/

@[simp] theorem State.completeWith_cmd (v : BitVec 64) : (s.completeWith v).cmd = s.cmd := rfl

@[simp] theorem State.completeWith_status (v : BitVec 64) : (s.completeWith v).status = statusDone := rfl

@[simp] theorem State.completeWith_result (v : BitVec 64) : (s.completeWith v).result = v := rfl

@[simp] theorem State.completeWith_width (v : BitVec 64) : (s.completeWith v).width = s.width := rfl

@[simp] theorem State.completeWith_height (v : BitVec 64) : (s.completeWith v).height = s.height := rfl

@[simp] theorem State.completeWith_src (v : BitVec 64) : (s.completeWith v).src = s.src := rfl

@[simp] theorem State.completeWith_dst (v : BitVec 64) : (s.completeWith v).dst = s.dst := rfl

@[simp] theorem State.completeWith_mem (v : BitVec 64) : (s.completeWith v).mem = s.mem := rfl

@[simp] theorem State.completeWith_window (v : BitVec 64) : (s.completeWith v).window = s.window := rfl

@[simp] theorem State.completeWith_schedule (v : BitVec 64) : (s.completeWith v).schedule = s.schedule := rfl

@[simp] theorem State.completeWith_readData (v : BitVec 64) : (s.completeWith v).readData = s.readData := rfl

@[simp] theorem State.completeWith_freeCount (v : BitVec 64) : (s.completeWith v).freeCount = s.freeCount := rfl

@[simp] theorem State.completeWith_platform (v : BitVec 64) : (s.completeWith v).platform = s.platform := rfl

/-! ### `accept` -/

@[simp] theorem State.accept_cmd (v : BitVec 64) : (s.accept v).cmd = commandWord v := rfl

@[simp] theorem State.accept_status (v : BitVec 64) : (s.accept v).status = statusBusy := rfl

@[simp] theorem State.accept_result (v : BitVec 64) : (s.accept v).result = s.result := rfl

@[simp] theorem State.accept_width (v : BitVec 64) : (s.accept v).width = s.width := rfl

@[simp] theorem State.accept_height (v : BitVec 64) : (s.accept v).height = s.height := rfl

@[simp] theorem State.accept_src (v : BitVec 64) : (s.accept v).src = s.src := rfl

@[simp] theorem State.accept_dst (v : BitVec 64) : (s.accept v).dst = s.dst := rfl

@[simp] theorem State.accept_mem (v : BitVec 64) : (s.accept v).mem = s.mem := rfl

@[simp] theorem State.accept_window (v : BitVec 64) : (s.accept v).window = s.window ++ [(s.accept v).operands] := rfl

@[simp] theorem State.accept_schedule (v : BitVec 64) : (s.accept v).schedule = s.schedule := rfl

@[simp] theorem State.accept_readData (v : BitVec 64) : (s.accept v).readData = s.readData := rfl

@[simp] theorem State.accept_freeCount (v : BitVec 64) : (s.accept v).freeCount = s.freeCount := rfl

@[simp] theorem State.accept_platform (v : BitVec 64) : (s.accept v).platform = s.platform := rfl

/-! ### `hardReset` -/

@[simp] theorem State.hardReset_cmd : (s.hardReset).cmd = 0 := rfl

@[simp] theorem State.hardReset_status : (s.hardReset).status = 0 := rfl

@[simp] theorem State.hardReset_result : (s.hardReset).result = 0 := rfl

@[simp] theorem State.hardReset_width : (s.hardReset).width = 0 := rfl

@[simp] theorem State.hardReset_height : (s.hardReset).height = 0 := rfl

@[simp] theorem State.hardReset_src : (s.hardReset).src = Descriptor.zero := rfl

@[simp] theorem State.hardReset_dst : (s.hardReset).dst = Descriptor.zero := rfl

@[simp] theorem State.hardReset_mem : (s.hardReset).mem = s.memAfterReset := rfl

@[simp] theorem State.hardReset_window : (s.hardReset).window = [] := rfl

@[simp] theorem State.hardReset_schedule : (s.hardReset).schedule = s.schedule := rfl

@[simp] theorem State.hardReset_readData : (s.hardReset).readData = s.readData := rfl

@[simp] theorem State.hardReset_freeCount : (s.hardReset).freeCount = s.freeCount + 1 := rfl

@[simp] theorem State.hardReset_platform : (s.hardReset).platform = s.platform := rfl

/-! ### `unmap` -/

@[simp] theorem State.unmap_cmd (i : Nat) : (s.unmap i).cmd = s.cmd := rfl

@[simp] theorem State.unmap_status (i : Nat) : (s.unmap i).status = s.status := rfl

@[simp] theorem State.unmap_result (i : Nat) : (s.unmap i).result = s.result := rfl

@[simp] theorem State.unmap_width (i : Nat) : (s.unmap i).width = s.width := rfl

@[simp] theorem State.unmap_height (i : Nat) : (s.unmap i).height = s.height := rfl

@[simp] theorem State.unmap_src (i : Nat) : (s.unmap i).src = s.src := rfl

@[simp] theorem State.unmap_dst (i : Nat) : (s.unmap i).dst = s.dst := rfl

@[simp] theorem State.unmap_mem (i : Nat) : (s.unmap i).mem = s.mem := rfl

@[simp] theorem State.unmap_window (i : Nat) : (s.unmap i).window = s.window := rfl

@[simp] theorem State.unmap_schedule (i : Nat) : (s.unmap i).schedule = s.schedule := rfl

@[simp] theorem State.unmap_readData (i : Nat) : (s.unmap i).readData = s.readData := rfl

@[simp] theorem State.unmap_freeCount (i : Nat) : (s.unmap i).freeCount = s.freeCount := rfl

@[simp] theorem State.unmap_platform (i : Nat) : (s.unmap i).platform = { s.platform with regions := s.platform.regions.eraseIdx i } := rfl

/-! ### `setStrides` -/

@[simp] theorem State.setStrides_cmd (sel : Sel) (q : Quad (BitVec 32)) : (s.setStrides sel q).cmd = s.cmd := by cases sel <;> rfl

@[simp] theorem State.setStrides_status (sel : Sel) (q : Quad (BitVec 32)) : (s.setStrides sel q).status = s.status := by cases sel <;> rfl

@[simp] theorem State.setStrides_result (sel : Sel) (q : Quad (BitVec 32)) : (s.setStrides sel q).result = s.result := by cases sel <;> rfl

@[simp] theorem State.setStrides_width (sel : Sel) (q : Quad (BitVec 32)) : (s.setStrides sel q).width = s.width := by cases sel <;> rfl

@[simp] theorem State.setStrides_height (sel : Sel) (q : Quad (BitVec 32)) : (s.setStrides sel q).height = s.height := by cases sel <;> rfl

@[simp] theorem State.setStrides_mem (sel : Sel) (q : Quad (BitVec 32)) : (s.setStrides sel q).mem = s.mem := by cases sel <;> rfl

@[simp] theorem State.setStrides_window (sel : Sel) (q : Quad (BitVec 32)) : (s.setStrides sel q).window = s.window := by cases sel <;> rfl

@[simp] theorem State.setStrides_schedule (sel : Sel) (q : Quad (BitVec 32)) : (s.setStrides sel q).schedule = s.schedule := by cases sel <;> rfl

@[simp] theorem State.setStrides_readData (sel : Sel) (q : Quad (BitVec 32)) : (s.setStrides sel q).readData = s.readData := by cases sel <;> rfl

@[simp] theorem State.setStrides_freeCount (sel : Sel) (q : Quad (BitVec 32)) : (s.setStrides sel q).freeCount = s.freeCount := by cases sel <;> rfl

@[simp] theorem State.setStrides_platform (sel : Sel) (q : Quad (BitVec 32)) : (s.setStrides sel q).platform = s.platform := by cases sel <;> rfl

@[simp] theorem State.setStrides_descriptor (sel : Sel) (q : Quad (BitVec 32)) :
    ((s.setStrides sel q).descriptor sel).stride = q := by cases sel <;> rfl

@[simp] theorem State.setStrides_src_fmt (sel : Sel) (q : Quad (BitVec 32)) :
    (s.setStrides sel q).src.fmt = s.src.fmt := by cases sel <;> rfl

@[simp] theorem State.setStrides_dst_fmt (sel : Sel) (q : Quad (BitVec 32)) :
    (s.setStrides sel q).dst.fmt = s.dst.fmt := by cases sel <;> rfl

@[simp] theorem State.setStrides_src_ptr (sel : Sel) (q : Quad (BitVec 32)) :
    (s.setStrides sel q).src.ptr = s.src.ptr := by cases sel <;> rfl

@[simp] theorem State.setStrides_dst_ptr (sel : Sel) (q : Quad (BitVec 32)) :
    (s.setStrides sel q).dst.ptr = s.dst.ptr := by cases sel <;> rfl

@[simp] theorem State.setStrides_src_dst (q : Quad (BitVec 32)) : (s.setStrides .src q).dst = s.dst := rfl

@[simp] theorem State.setStrides_dst_src (q : Quad (BitVec 32)) : (s.setStrides .dst q).src = s.src := rfl

@[simp] theorem State.regRead_cmd (n : Fin 32) : (s.regRead n).cmd = s.cmd := by
  unfold State.regRead; dsimp only; split <;> rfl

@[simp] theorem State.regRead_status (n : Fin 32) : (s.regRead n).status = s.status := by
  unfold State.regRead; dsimp only; split <;> rfl

@[simp] theorem State.regRead_result (n : Fin 32) : (s.regRead n).result = s.result := by
  unfold State.regRead; dsimp only; split <;> rfl

@[simp] theorem State.regRead_width (n : Fin 32) : (s.regRead n).width = s.width := by
  unfold State.regRead; dsimp only; split <;> rfl

@[simp] theorem State.regRead_height (n : Fin 32) : (s.regRead n).height = s.height := by
  unfold State.regRead; dsimp only; split <;> rfl

@[simp] theorem State.regRead_src (n : Fin 32) : (s.regRead n).src = s.src := by
  unfold State.regRead; dsimp only; split <;> rfl

@[simp] theorem State.regRead_dst (n : Fin 32) : (s.regRead n).dst = s.dst := by
  unfold State.regRead; dsimp only; split <;> rfl

@[simp] theorem State.regRead_mem (n : Fin 32) : (s.regRead n).mem = s.mem := by
  unfold State.regRead; dsimp only; split <;> rfl

@[simp] theorem State.regRead_schedule (n : Fin 32) : (s.regRead n).schedule = s.schedule := by
  unfold State.regRead; dsimp only; split <;> rfl

@[simp] theorem State.regRead_freeCount (n : Fin 32) : (s.regRead n).freeCount = s.freeCount := by
  unfold State.regRead; dsimp only; split <;> rfl

@[simp] theorem State.regRead_platform (n : Fin 32) : (s.regRead n).platform = s.platform := by
  unfold State.regRead; dsimp only; split <;> rfl

@[simp] theorem State.regRead_readData (n : Fin 32) : (s.regRead n).readData = s.slot (regOfNumber n) := by
  unfold State.regRead; dsimp only; split <;> rfl

/-! ### Flags and operands -/

@[simp] theorem State.complete_busy : s.complete.busy = false :=
  (by decide : statusDone.getLsbD 0 = false)

@[simp] theorem State.complete_done : s.complete.done = true :=
  (by decide : statusDone.getLsbD 1 = true)

@[simp] theorem State.completeWith_busy (v : BitVec 64) : (s.completeWith v).busy = false :=
  (by decide : statusDone.getLsbD 0 = false)

@[simp] theorem State.completeWith_done (v : BitVec 64) : (s.completeWith v).done = true :=
  (by decide : statusDone.getLsbD 1 = true)

@[simp] theorem State.accept_busy (v : BitVec 64) : (s.accept v).busy = true :=
  (by decide : statusBusy.getLsbD 0 = true)

@[simp] theorem State.accept_done (v : BitVec 64) : (s.accept v).done = false :=
  (by decide : statusBusy.getLsbD 1 = false)

@[simp] theorem State.complete_operands : s.complete.operands = s.operands := rfl

@[simp] theorem State.hardReset_busy : s.hardReset.busy = false :=
  (by decide : (0 : BitVec 2).getLsbD 0 = false)

/-! ### Plane slots -/

@[simp] theorem quad_get_set_same {α : Type} (q : Quad α) (k : Fin 4) (v : α) : (q.set k v).get k = v := by
  fin_cases k <;> rfl

@[simp] theorem quad_get_set_ne {α : Type} (q : Quad α) {k l : Fin 4} (v : α) (h : l ≠ k) :
    (q.set k v).get l = q.get l := by
  fin_cases k <;> fin_cases l <;> first | rfl | exact absurd rfl h

end Sys2Proof.Machine
end

