-- ==== Sys2Proof/Laws/Ops.lean ====
section
/-! SUPPORT. For each shared operation, one lemma that says everything it can do; and the facts about the table of formats
that other rules rely on. -/

namespace Sys2Proof.Machine

/-! ### The table of formats -/

/-- Recognition is equality with an identifier of the table (30_encoding R97). -/
theorem recognise_eq_some_iff {f : BitVec 32} {F : Fmt} : recognise f = some F ↔ F.ident = f := by
  constructor
  · intro h
    simpa using List.find?_some h
  · rintro rfl
    revert F
    intro F
    rcases F with F | F <;> cases F <;> decide

/-- No two recognised formats share an identifier (30_encoding R96). -/
theorem Fmt.ident_injective {F G : Fmt} (h : F.ident = G.ident) : F = G := by
  have hF := recognise_eq_some_iff.2 (rfl : F.ident = F.ident)
  have hG := recognise_eq_some_iff.2 (rfl : G.ident = G.ident)
  rw [h, hG] at hF
  exact (Option.some.inj hF).symm

@[simp] theorem recognise_ident (F : Fmt) : recognise F.ident = some F := recognise_eq_some_iff.2 rfl

@[simp] theorem recognise_none_format : recognise 0 = none := by decide

/-- The facts of 40_format_descriptor R134, from the table: a change of the table that breaks one stops the build. -/
theorem format_table_facts (F : Fmt) :
    (fmtIsPa F.ident = 1 → fmtHasAlpha F.ident = 1) ∧
      (fmtHasAlpha F.ident = 1 → fmtSpace F.ident = 1) ∧
      (is420 F.ident = true → fmtHasAlpha F.ident = 0 ∧ fmtSpace F.ident = 2) ∧
      (is420 F.ident = false → fmtSpace F.ident = 2 → F = .full .yuv444) ∧
      (F.planes = 1 ↔ ∃ G : FullFmt, F = .full G ∧ G.planar = false) := by
  rcases F with F | F <;> cases F <;> simp [FullFmt.planar] <;> decide

/-- The sample strides of the one-plane formats (44_buffer_descriptor R250, 30_encoding R105). -/
theorem pixelBytes_table (F : FullFmt) (h : F.planar = false) :
    F.pixelBytes = fmtBypp F.ident ∧ 1 ≤ F.pixelBytes ∧ F.pixelBytes ≤ 4 := by
  cases F <;> simp [FullFmt.planar] at h ⊢ <;> decide

/-! ### Queries -/

/-- Everything the template of a query does (40_format_descriptor R120). -/
theorem answerQuery_eq (q : BitVec 32 → Nat) (sel : Sel) (s : State) :
    answerQuery q sel s =
      .next { s with result := BitVec.ofNat 64 (q (s.descriptor sel).fmt), status := statusDone } := rfl

theorem execBdSize_of_some {sel : Sel} {s : State} {F : Fmt} (h : recognise (s.descriptor sel).fmt = some F) :
    execBdSize sel s = .next (s.completeWith (BitVec.ofNat 64 (tightSize F s.width.toNat s.height.toNat))) := by
  simp only [execBdSize, h]

theorem execBdSize_of_none {sel : Sel} {s : State} (h : recognise (s.descriptor sel).fmt = none) :
    execBdSize sel s = .next (s.completeWith 0) := by
  simp only [execBdSize, h]

theorem execBdNorm_of_some {sel : Sel} {s : State} {F : Fmt} (h : recognise (s.descriptor sel).fmt = some F) :
    execBdNorm sel s =
      .next
        ((s.setStrides sel (filledStrides F s.width.toNat (s.descriptor sel).stride)).completeWith
          (BitVec.ofNat 64 (filledCount F s.width.toNat (s.descriptor sel).stride))) := by
  simp only [execBdNorm, h]

theorem execBdNorm_of_none {sel : Sel} {s : State} (h : recognise (s.descriptor sel).fmt = none) :
    execBdNorm sel s = .next (s.completeWith 0) := by
  simp only [execBdNorm, h]

/-! ### Conversions -/

/-- When a conversion has a job, and which (43_converters R222, R224). -/
theorem jobOf_eq_some_iff {o : Operands} {h : Nat} {mode : AlphaMode} {j : Job} :
    jobOf o h mode = some j ↔
      isNoOp o.src.fmt o.dst.fmt o.width.toNat h mode = false ∧
        ∃ F G, recognise o.src.fmt = some F ∧ recognise o.dst.fmt = some G ∧
          j =
            { src := sideOf F o.src o.width.toNat
              dst := sideOf G o.dst o.width.toNat
              w := o.width.toNat
              h := h
              aop := alphaOp o.src.fmt o.dst.fmt mode } := by
  unfold jobOf
  dsimp only
  cases hn : isNoOp o.src.fmt o.dst.fmt o.width.toNat h mode
  · cases hF : recognise o.src.fmt <;> cases hG : recognise o.dst.fmt <;> simp [eq_comm]
  · simp

/-- A conversion has no job exactly when it is a no-op. -/
theorem jobOf_eq_none_iff {o : Operands} {h : Nat} {mode : AlphaMode} :
    jobOf o h mode = none ↔ isNoOp o.src.fmt o.dst.fmt o.width.toNat h mode = true := by
  unfold jobOf
  dsimp only
  cases hn : isNoOp o.src.fmt o.dst.fmt o.width.toNat h mode
  · simp only [isNoOp, recognised, Bool.or_eq_false_iff] at hn
    cases hF : recognise o.src.fmt <;> cases hG : recognise o.dst.fmt <;> simp_all
  · simp

theorem runConversion_of_none {s : State} {h : Nat} {mode : AlphaMode} (hj : jobOf s.operands h mode = none) :
    runConversion s h mode = .next s.complete := by
  simp only [runConversion, hj]

/-- Everything a conversion can do when it answers a next state: a no-op, or the job's result. -/
theorem runConversion_next_iff {s t : State} {h : Nat} {mode : AlphaMode} :
    runConversion s h mode = .next t ↔
      (jobOf s.operands h mode = none ∧ t = s.complete) ∨
        ∃ j, jobOf s.operands h mode = some j ∧ j.footprintsDisjoint = true ∧ j.dstRowsDisjoint = true ∧
          j.admitted s.platform = true ∧
          t = State.complete { s with mem := j.result s.platform.csc s.mem } := by
  unfold runConversion
  cases hj : jobOf s.operands h mode with
  | none =>
    constructor
    · intro e
      exact .inl ⟨rfl, (Host.Outcome.next.inj e).symm⟩
    · rintro (⟨-, rfl⟩ | ⟨j, e, -⟩)
      · rfl
      · cases e
  | some j =>
    dsimp only
    constructor
    · intro e
      split at e
      · split at e
        · split at e
          · exact .inr ⟨j, rfl, ‹_›, ‹_›, ‹_›, (Host.Outcome.next.inj e).symm⟩
          · cases e
        · cases e
      · cases e
    · rintro (⟨e, -⟩ | ⟨j', e, h1, h2, h3, rfl⟩)
      · cases e
      · cases e
        rw [if_pos h1, if_pos h2, if_pos h3]

/-- A conversion whose contracts hold completes with its job's result (43_converters R224). -/
theorem runConversion_of_ready {s : State} {h : Nat} {mode : AlphaMode} {j : Job}
    (hj : jobOf s.operands h mode = some j) (h1 : j.footprintsDisjoint = true) (h2 : j.dstRowsDisjoint = true)
    (h3 : j.admitted s.platform = true) :
    runConversion s h mode = .next (State.complete { s with mem := j.result s.platform.csc s.mem }) :=
  runConversion_next_iff.2 (.inr ⟨j, hj, h1, h2, h3, rfl⟩)

/-! ### Rows -/

theorem Row.holds_iff {r : Row} {a : Int} : r.holds a = true ↔ r.start ≤ a ∧ a < r.start + r.len := by
  simp [Row.holds]

theorem Row.mem_addrs_iff {r : Row} {a : Int} : a ∈ r.addrs ↔ r.holds a = true := by
  rw [Row.holds_iff]
  simp only [Row.addrs, List.mem_map, List.mem_range]
  constructor
  · rintro ⟨i, hi, rfl⟩
    omega
  · rintro ⟨h1, h2⟩
    exact ⟨(a - r.start).toNat, by omega, by omega⟩

theorem rowsHold_iff {rows : List Row} {a : Int} : rowsHold rows a = true ↔ ∃ r ∈ rows, r.holds a = true := by
  simp [rowsHold]

/-- The test of disjointness says what it is for: no address in both rows (20_memory R72). -/
theorem Row.disjoint_iff {r q : Row} :
    r.disjoint q = true ↔ ∀ a, ¬(r.holds a = true ∧ q.holds a = true) := by
  simp only [Row.holds_iff, Row.disjoint, Bool.or_eq_true, decide_eq_true_eq]
  constructor
  · intro h a
    omega
  · intro h
    by_cases h1 : r.start ≤ q.start
    · have := h q.start
      omega
    · have := h r.start
      omega

theorem rowsDisjoint_iff {rs qs : List Row} :
    rowsDisjoint rs qs = true ↔ ∀ a, ¬(rowsHold rs a = true ∧ rowsHold qs a = true) := by
  simp only [rowsDisjoint, List.all_eq_true, Row.disjoint_iff, rowsHold_iff]
  constructor
  · rintro h a ⟨⟨r, hr, hra⟩, q, hq, hqa⟩
    exact h r hr q hq a ⟨hra, hqa⟩
  · intro h r hr q hq a ⟨hra, hqa⟩
    exact h a ⟨⟨r, hr, hra⟩, q, hq, hqa⟩

theorem rowsPairwiseDisjoint_iff {rows : List Row} :
    rowsPairwiseDisjoint rows = true ↔ rows.Pairwise fun r q => ∀ a, ¬(r.holds a = true ∧ q.holds a = true) := by
  induction rows with
  | nil => simp [rowsPairwiseDisjoint]
  | cons r rest ih =>
    simp only [rowsPairwiseDisjoint, Bool.and_eq_true, List.all_eq_true, Row.disjoint_iff, ih, List.pairwise_cons]

/-! ### Admission -/

theorem Job.admitted_iff {j : Job} {p : Platform} :
    j.admitted p = true ↔
      (∀ a, rowsHold j.srcRows a = true → p.admitsRead a = true) ∧
        ∀ a, rowsHold j.dstRows a = true → p.admitsWrite a = true := by
  simp only [Job.admitted, Bool.and_eq_true, List.all_eq_true, Row.mem_addrs_iff, rowsHold_iff]
  constructor
  · rintro ⟨h1, h2⟩
    exact ⟨fun a ⟨r, hr, ha⟩ => h1 r hr a ha, fun a ⟨r, hr, ha⟩ => h2 r hr a ha⟩
  · rintro ⟨h1, h2⟩
    exact ⟨fun r hr a ha => h1 a ⟨r, hr, ha⟩, fun r hr a ha => h2 a ⟨r, hr, ha⟩⟩

theorem namesByte_bounds {p : Platform} {a : Int} (h : p.namesByte a = true) : 0 ≤ a ∧ a.toNat < 2 ^ p.aw := by
  simp only [Platform.namesByte, Bool.and_eq_true, decide_eq_true_eq] at h
  exact h.1

theorem admitsWrite_bounds {p : Platform} {a : Int} (h : p.admitsWrite a = true) : 0 ≤ a ∧ a.toNat < 2 ^ p.aw := by
  simp only [Platform.admitsWrite, Bool.and_eq_true] at h
  exact namesByte_bounds h.1

theorem admitsRead_bounds {p : Platform} {a : Int} (h : p.admitsRead a = true) : 0 ≤ a ∧ a.toNat < 2 ^ p.aw := by
  simp only [Platform.admitsRead, Bool.and_eq_true] at h
  exact namesByte_bounds h.1

/-! ### The engine's turn and the step -/

theorem engineTurn_of_ok {s : State} {i : Instr} (hb : s.busy = true) (hi : decode s.cmd = .ok i) :
    engineTurn s = exec i s := by
  simp only [engineTurn, hb, hi, if_true]

theorem engineTurn_of_idle {s : State} (hb : s.busy = false) : engineTurn s = .next s := by
  simp [engineTurn, hb]

theorem step_of_nil {s : State} (h : s.schedule = []) : step s = engineTurn s := by
  simp only [step, nextEvent, h, runEvent]

theorem step_of_cons {s : State} {e : Event} {rest : List Event} (h : s.schedule = e :: rest) :
    step s = runEvent e { s with schedule := rest } := by
  simp only [step, nextEvent, h]

end Sys2Proof.Machine
end

