-- ==== Sys2Proof/Laws/Footprint.lean ====
section
/-! SUPPORT. What a conversion stores, whatever its path: exactly one byte at every address of its destination footprint
(20_memory R71), each a function of the bytes of its source footprint (20_memory R70). The paths' own values follow from
membership in `Job.writes`. -/

namespace Sys2Proof.Machine

theorem mem_planeIndices {n : Nat} {k : Fin 4} : k ∈ planeIndices n ↔ k.val < n := by
  simp only [planeIndices, List.mem_filter, decide_eq_true_eq, and_iff_right_iff_imp]
  intro _
  fin_cases k <;> simp

theorem nodup_planeIndices (n : Nat) : (planeIndices n).Nodup := by
  unfold planeIndices
  exact List.Nodup.filter _ (by decide)

/-- Byte `n` of row `y` of plane `k` of a side exists in a region of `w` by `h` pixels. -/
structure Side.Has (sd : Side) (w h : Nat) (k : Fin 4) (y n : Nat) : Prop where
  plane : k.val < sd.fmt.planes
  row : y < sd.fmt.rowCount k h
  byte : n < sd.fmt.rowBytes k w

/-- The address of byte `n` of row `y` of plane `k` (20_memory R70). -/
def Side.byteAddr (sd : Side) (k : Fin 4) (y n : Nat) : Int := (sd.ptr.get k : Int) + (y : Int) * sd.rs.get k + (n : Int)

theorem Side.mem_rows_iff {sd : Side} {w h : Nat} {r : Row} :
    r ∈ sd.rows w h ↔ ∃ (k : Fin 4) (y : Nat), k.val < sd.fmt.planes ∧ y < sd.fmt.rowCount k h ∧
      r = { start := (sd.ptr.get k : Int) + (y : Int) * sd.rs.get k, len := sd.fmt.rowBytes k w } := by
  simp only [Side.rows, List.mem_flatMap, mem_planeIndices, List.mem_map, List.mem_range]
  constructor
  · rintro ⟨k, hk, y, hy, rfl⟩
    exact ⟨k, y, hk, hy, rfl⟩
  · rintro ⟨k, y, hk, hy, rfl⟩
    exact ⟨k, hk, y, hy, rfl⟩

/-- A footprint is the set of its bytes' addresses (20_memory R70, R71). -/
theorem Side.rowsHold_rows_iff {sd : Side} {w h : Nat} {a : Int} :
    rowsHold (sd.rows w h) a = true ↔ ∃ k y n, sd.Has w h k y n ∧ a = sd.byteAddr k y n := by
  simp only [rowsHold_iff, Side.mem_rows_iff]
  constructor
  · rintro ⟨r, ⟨k, y, hk, hy, rfl⟩, ha⟩
    rw [Row.holds_iff] at ha
    dsimp only at ha
    refine ⟨k, y, (a - ((sd.ptr.get k : Int) + (y : Int) * sd.rs.get k)).toNat, ⟨hk, hy, by omega⟩, ?_⟩
    unfold Side.byteAddr
    omega
  · rintro ⟨k, y, n, ⟨hk, hy, hn⟩, rfl⟩
    refine ⟨_, ⟨k, y, hk, hy, rfl⟩, ?_⟩
    rw [Row.holds_iff]
    unfold Side.byteAddr
    dsimp only
    omega

/-- A symmetric relation that holds pairwise along a list holds between any two different members. -/
theorem pairwise_apart {α : Type} {R : α → α → Prop} (hs : ∀ a b, R a b → R b a) {l : List α} (hl : l.Pairwise R) {a b : α}
    (ha : a ∈ l) (hb : b ∈ l) (hne : a ≠ b) : R a b := by
  have : Std.Symm R := ⟨hs⟩
  exact hl.forall ha hb hne

/-- With pairwise disjoint rows no address belongs to two bytes (20_memory R72 (b)). -/
theorem Side.byte_unique {sd : Side} {w h : Nat}
    (hp : (sd.rows w h).Pairwise fun r q => ∀ a, ¬(r.holds a = true ∧ q.holds a = true))
    {k k' : Fin 4} {y y' n n' : Nat} (h1 : sd.Has w h k y n) (h2 : sd.Has w h k' y' n')
    (he : sd.byteAddr k y n = sd.byteAddr k' y' n') : k = k' ∧ y = y' ∧ n = n' := by
  have holds : ∀ {k : Fin 4} {y n : Nat}, sd.Has w h k y n →
      Row.holds { start := (sd.ptr.get k : Int) + (y : Int) * sd.rs.get k, len := sd.fmt.rowBytes k w }
        (sd.byteAddr k y n) = true := by
    intro k y n hh
    have := hh.byte
    rw [Row.holds_iff]
    unfold Side.byteAddr
    dsimp only
    omega
  unfold Side.rows at hp
  rw [List.pairwise_flatMap] at hp
  obtain ⟨hin, hout⟩ := hp
  have hk : k = k' := by
    by_contra hne
    have := pairwise_apart (fun x z hxz r hr q hq a hh => hxz q hq r hr a ⟨hh.2, hh.1⟩) hout (mem_planeIndices.2 h1.plane)
      (mem_planeIndices.2 h2.plane) hne _ (List.mem_map.2 ⟨y, List.mem_range.2 h1.row, rfl⟩) _
      (List.mem_map.2 ⟨y', List.mem_range.2 h2.row, rfl⟩) (sd.byteAddr k y n)
    exact this ⟨holds h1, he ▸ holds h2⟩
  subst hk
  have hy : y = y' := by
    by_contra hne
    have hrow := hin k (mem_planeIndices.2 h1.plane)
    rw [List.pairwise_map] at hrow
    have := pairwise_apart (fun x z hxz a hh => hxz a ⟨hh.2, hh.1⟩) hrow (List.mem_range.2 h1.row) (List.mem_range.2 h2.row) hne
      (sd.byteAddr k y n)
    exact this ⟨holds h1, he ▸ holds h2⟩
  subst hy
  unfold Side.byteAddr at he
  exact ⟨rfl, rfl, by omega⟩

/-! ### What a path stores -/

/-- A list of writes stores exactly one value at every byte of a side's footprint, and nothing else. -/
def Side.Covers (sd : Side) (w h : Nat) (ws : List (Int × Byte)) : Prop :=
  ∃ value : Fin 4 → Nat → Nat → Byte, ∀ p, p ∈ ws ↔ ∃ k y n, sd.Has w h k y n ∧ p = (sd.byteAddr k y n, value k y n)

theorem mem_forRegion {α : Type} {w h : Nat} {f : Nat → Nat → List α} {p : α} :
    p ∈ forRegion w h f ↔ ∃ x y, x < w ∧ y < h ∧ p ∈ f x y := by
  simp only [forRegion, List.mem_flatMap, List.mem_range]
  constructor
  · rintro ⟨y, hy, x, hx, hp⟩
    exact ⟨x, y, hx, hy, hp⟩
  · rintro ⟨x, y, hx, hy, hp⟩
    exact ⟨y, hy, x, hx, hp⟩

theorem mem_storePixelBytes {F : FullFmt} {sd : Side} {x y : Nat} {bytes : List Byte} {p : Int × Byte} :
    p ∈ storePixelBytes F sd x y bytes ↔ ∃ i, i < bytes.length ∧ p = (pixelByteAddr F sd x y i, bytes.getD i 0) := by
  simp only [storePixelBytes, List.mem_map, Prod.exists, List.mem_zipIdx_iff_getElem?]
  constructor
  · rintro ⟨v, i, hv, rfl⟩
    obtain ⟨hi, hv'⟩ := List.getElem?_eq_some_iff.1 hv
    exact ⟨i, hi, by simp [List.getD, hv]⟩
  · rintro ⟨i, hi, rfl⟩
    exact ⟨bytes[i], i, by simp [hi], by simp [List.getD, hi]⟩

/-- How many bytes of one pixel a full-resolution format stores (41_pixel_codec R150). -/
theorem encodePixel_length (csc : CscMatrix) (F : FullFmt) (c : Color) :
    (encodePixel csc F c).length = if F.planar then (Fmt.full F).planes else F.pixelBytes := by
  cases F <;> simp [encodePixel, encodeYuv, FullFmt.planar] <;> decide

theorem planes_of_planar {F : FullFmt} (h : F.planar = true) : (Fmt.full F).planes ≤ 4 ∧ 3 ≤ (Fmt.full F).planes := by
  cases F <;> simp [FullFmt.planar] at h ⊢ <;> decide

theorem planes_of_packed {F : FullFmt} (h : F.planar = false) : (Fmt.full F).planes = 1 := by
  cases F <;> simp [FullFmt.planar] at h ⊢ <;> decide

/-- Byte `i` of pixel (x, y) as a byte of the side: row `y` of plane `i`, or of plane 0 (41_pixel_codec R178). -/
theorem pixelByteAddr_planar {F : FullFmt} {sd : Side} (hf : sd.fmt = .full F) (h : F.planar = true) (x y : Nat)
    (k : Fin 4) : pixelByteAddr F sd x y k.val = sd.byteAddr k y x := by
  fin_cases k <;> simp [pixelByteAddr, h, Side.addr, addrOf, Side.byteAddr, Fmt.sampleStride, hf]

theorem pixelByteAddr_packed {F : FullFmt} {sd : Side} (hf : sd.fmt = .full F) (h : F.planar = false) (x y i : Nat) :
    pixelByteAddr F sd x y i = sd.byteAddr 0 y (x * F.pixelBytes + i) := by
  simp only [pixelByteAddr, h, Side.addr, addrOf, Side.byteAddr, Fmt.sampleStride, hf]
  simp
  omega

/-- A list of stored pixels covers a full-resolution side. -/
theorem covers_of_pixels {F : FullFmt} {sd : Side} {w h : Nat} {ws : List (Int × Byte)} (hf : sd.fmt = .full F)
    (f : Nat → Nat → List Byte)
    (hl : ∀ x y, (f x y).length = if F.planar then (Fmt.full F).planes else F.pixelBytes)
    (hws : ∀ p, p ∈ ws ↔ ∃ x y, x < w ∧ y < h ∧ p ∈ storePixelBytes F sd x y (f x y)) : sd.Covers w h ws := by
  cases hpl : F.planar
  · refine ⟨fun _ y n => (f (n / F.pixelBytes) y).getD (n % F.pixelBytes) 0, fun p => ?_⟩
    have hpos : 0 < F.pixelBytes := (pixelBytes_table F hpl).2.1
    simp only [hws, mem_storePixelBytes, hl, hpl, pixelByteAddr_packed hf hpl]
    constructor
    · rintro ⟨x, y, hx, hy, i, hi, rfl⟩
      simp only [Bool.false_eq_true, if_false] at hi
      refine ⟨0, y, x * F.pixelBytes + i, ⟨by rw [hf, planes_of_packed hpl]; decide, by rw [hf]; exact hy, ?_⟩, ?_⟩
      · rw [hf]
        simp only [Fmt.rowBytes, hpl, Bool.false_eq_true, if_false]
        calc x * F.pixelBytes + i < x * F.pixelBytes + F.pixelBytes := by omega
          _ = (x + 1) * F.pixelBytes := by rw [Nat.succ_mul]
          _ ≤ w * F.pixelBytes := Nat.mul_le_mul_right _ hx
      · have e1 : (x * F.pixelBytes + i) / F.pixelBytes = x := by
          rw [Nat.mul_comm, Nat.mul_add_div hpos, Nat.div_eq_of_lt hi, Nat.add_zero]
        have e2 : (x * F.pixelBytes + i) % F.pixelBytes = i := by
          rw [Nat.mul_comm, Nat.mul_add_mod, Nat.mod_eq_of_lt hi]
        rw [e1, e2]
    · rintro ⟨k, y, n, ⟨hk, hy, hn⟩, rfl⟩
      rw [hf] at hk hy hn
      rw [planes_of_packed hpl] at hk
      simp only [Fmt.rowBytes, hpl, Bool.false_eq_true, if_false] at hn
      simp only [Fmt.rowCount] at hy
      have hk0 : k = 0 := by omega
      subst hk0
      refine ⟨n / F.pixelBytes, y, (Nat.div_lt_iff_lt_mul hpos).2 hn, hy, n % F.pixelBytes, ?_, ?_⟩
      · simpa using Nat.mod_lt n hpos
      · rw [Nat.div_add_mod']
  · refine ⟨fun k y n => (f n y).getD k.val 0, fun p => ?_⟩
    have hle := (planes_of_planar hpl).1
    simp only [hws, mem_storePixelBytes, hl, hpl, if_true]
    constructor
    · rintro ⟨x, y, hx, hy, i, hi, rfl⟩
      refine ⟨⟨i, by omega⟩, y, x, ⟨by rw [hf]; exact hi, by rw [hf]; exact hy, ?_⟩, ?_⟩
      · rw [hf]
        simpa only [Fmt.rowBytes, hpl, if_true] using hx
      · rw [← pixelByteAddr_planar hf hpl]
    · rintro ⟨k, y, n, ⟨hk, hy, hn⟩, rfl⟩
      rw [hf] at hk hy hn
      simp only [Fmt.rowBytes, hpl, if_true] at hn
      simp only [Fmt.rowCount] at hy
      exact ⟨n, y, hn, hy, k.val, hk, by rw [pixelByteAddr_planar hf hpl]⟩

theorem lumaAddr_eq {F : SubFmt} {sd : Side} (hf : sd.fmt = .sub F) (x y : Nat) : lumaAddr sd x y = sd.byteAddr 0 y x := by
  cases F <;> simp [lumaAddr, Side.addr, addrOf, Side.byteAddr, Fmt.sampleStride, hf]


/-- The plane, and the byte of a row of it, where a 4:2:0 format keeps the U and V samples of a block column. -/
def uSite (F : SubFmt) (cx : Nat) : Fin 4 × Nat :=
  match F with
  | .i420 => (1, cx)
  | .yv12 => (2, cx)
  | .nv21 => (1, 2 * cx + 1)
  | .nv12 => (1, 2 * cx)

/-- See `uSite`. -/
def vSite (F : SubFmt) (cx : Nat) : Fin 4 × Nat :=
  match F with
  | .i420 => (2, cx)
  | .yv12 => (1, cx)
  | .nv21 => (1, 2 * cx)
  | .nv12 => (1, 2 * cx + 1)

theorem uAddr_eq {F : SubFmt} {sd : Side} (hf : sd.fmt = .sub F) (cx cy : Nat) :
    uAddr F sd cx cy = sd.byteAddr (uSite F cx).1 cy (uSite F cx).2 := by
  cases F <;> simp [uAddr, uSite, Side.addr, addrOf, Side.byteAddr, Fmt.sampleStride, hf] <;> omega

theorem vAddr_eq {F : SubFmt} {sd : Side} (hf : sd.fmt = .sub F) (cx cy : Nat) :
    vAddr F sd cx cy = sd.byteAddr (vSite F cx).1 cy (vSite F cx).2 := by
  cases F <;> simp [vAddr, vSite, Side.addr, addrOf, Side.byteAddr, Fmt.sampleStride, hf] <;> omega

/-- The bytes of a 4:2:0 side are its luma samples and its two kinds of chroma samples, and nothing is two of them. -/
theorem Side.has_sub_iff {F : SubFmt} {sd : Side} (hf : sd.fmt = .sub F) {w h : Nat} {k : Fin 4} {y n : Nat} :
    sd.Has w h k y n ↔
      (k = 0 ∧ y < h ∧ n < w) ∨
        (y < h / 2 ∧ ∃ cx, cx < w / 2 ∧ (uSite F cx = (k, n) ∨ vSite F cx = (k, n))) := by
  have hpl : sd.fmt.planes = if F = .i420 ∨ F = .yv12 then 3 else 2 := by
    rw [hf]; cases F <;> decide
  constructor
  · rintro ⟨hk, hy, hn⟩
    rw [hpl] at hk
    rw [hf] at hy hn
    by_cases hk0 : k = 0
    · subst hk0
      left
      cases F <;> simp_all [Fmt.rowCount, Fmt.rowBytes]
    · right
      have hk0' : k.val ≠ 0 := fun e => hk0 (Fin.ext e)
      simp only [Fmt.rowCount, if_neg hk0'] at hy
      refine ⟨hy, ?_⟩
      cases F <;> simp [Fmt.rowBytes, hk0'] at hn hk
      · refine ⟨n, hn, ?_⟩
        have : k = 1 ∨ k = 2 := by omega
        simp only [uSite, vSite, Prod.mk.injEq]
        tauto
      · refine ⟨n, hn, ?_⟩
        have : k = 1 ∨ k = 2 := by omega
        simp only [uSite, vSite, Prod.mk.injEq]
        tauto
      all_goals
        have : k = 1 := by omega
        subst this
        refine ⟨n / 2, by omega, ?_⟩
        simp only [uSite, vSite, Prod.mk.injEq, true_and]
        omega
  · rintro (⟨rfl, hy, hn⟩ | ⟨hy, cx, hcx, hs⟩)
    · refine ⟨?_, ?_, ?_⟩
      · rw [hpl]; cases F <;> decide
      · rw [hf]; simpa [Fmt.rowCount] using hy
      · rw [hf]; cases F <;> simpa [Fmt.rowBytes] using hn
    · have hk : k.val ≠ 0 ∧ k.val < sd.fmt.planes := by
        rw [hpl]
        cases F <;> simp only [uSite, vSite, Prod.mk.injEq] at hs <;> rcases hs with ⟨rfl, -⟩ | ⟨rfl, -⟩ <;> decide
      refine ⟨hk.2, ?_, ?_⟩
      · rw [hf]; simpa [Fmt.rowCount, hk.1] using hy
      · rw [hf]
        cases F <;> simp only [uSite, vSite, Prod.mk.injEq, Fmt.rowBytes, if_neg hk.1] at hs ⊢ <;> omega

/-- A list of luma, U and V writes covers a 4:2:0 side. -/
theorem covers_of_samples {F : SubFmt} {sd : Side} {w h : Nat} {ws : List (Int × Byte)} (hf : sd.fmt = .sub F)
    (l u v : Nat → Nat → Byte)
    (hws : ∀ p, p ∈ ws ↔
      (∃ x y, x < w ∧ y < h ∧ p = (lumaAddr sd x y, l x y)) ∨
        ∃ cx cy, cx < w / 2 ∧ cy < h / 2 ∧ (p = (uAddr F sd cx cy, u cx cy) ∨ p = (vAddr F sd cx cy, v cx cy))) :
    sd.Covers w h ws := by
  have hval : ∃ value : Fin 4 → Nat → Nat → Byte,
      (∀ y n, value 0 y n = l n y) ∧
        ∀ cy cx, value (uSite F cx).1 cy (uSite F cx).2 = u cx cy ∧ value (vSite F cx).1 cy (vSite F cx).2 = v cx cy := by
    cases F
    · exact ⟨fun k y n => if k = 0 then l n y else if k = 1 then u n y else v n y, by simp, by simp [uSite, vSite]⟩
    · exact ⟨fun k y n => if k = 0 then l n y else if k = 2 then u n y else v n y, by simp, by simp [uSite, vSite]⟩
    · refine ⟨fun k y n => if k = 0 then l n y else if n % 2 = 1 then u (n / 2) y else v (n / 2) y, by simp, ?_⟩
      intro cy cx
      have e : (2 * cx + 1) / 2 = cx := by omega
      simp [uSite, vSite, e, Nat.add_mod]
    · refine ⟨fun k y n => if k = 0 then l n y else if n % 2 = 0 then u (n / 2) y else v (n / 2) y, by simp, ?_⟩
      intro cy cx
      have e : (2 * cx + 1) / 2 = cx := by omega
      simp [uSite, vSite, e, Nat.add_mod]
  obtain ⟨value, hl, huv⟩ := hval
  refine ⟨value, fun p => ?_⟩
  rw [hws]
  constructor
  · rintro (⟨x, y, hx, hy, rfl⟩ | ⟨cx, cy, hcx, hcy, rfl | rfl⟩)
    · exact ⟨0, y, x, (Side.has_sub_iff hf).2 (.inl ⟨rfl, hy, hx⟩), by rw [lumaAddr_eq hf, hl]⟩
    · exact ⟨(uSite F cx).1, cy, (uSite F cx).2, (Side.has_sub_iff hf).2 (.inr ⟨hcy, cx, hcx, .inl rfl⟩), by
        rw [uAddr_eq hf, (huv cy cx).1]⟩
    · exact ⟨(vSite F cx).1, cy, (vSite F cx).2, (Side.has_sub_iff hf).2 (.inr ⟨hcy, cx, hcx, .inr rfl⟩), by
        rw [vAddr_eq hf, (huv cy cx).2]⟩
  · rintro ⟨k, y, n, hh, rfl⟩
    rcases (Side.has_sub_iff hf).1 hh with ⟨rfl, hy, hn⟩ | ⟨hy, cx, hcx, hs | hs⟩
    · exact .inl ⟨n, y, hn, hy, by rw [lumaAddr_eq hf, hl]⟩
    · have h1 := (huv y cx).1
      rw [hs] at h1
      exact .inr ⟨cx, y, hcx, hy, .inl (by rw [uAddr_eq hf, hs, h1])⟩
    · have h1 := (huv y cx).2
      rw [hs] at h1
      exact .inr ⟨cx, y, hcx, hy, .inr (by rw [vAddr_eq hf, hs, h1])⟩

/-! ### Jobs -/

/-- In a job one of whose formats is 4:2:0 both dimensions are even (43_converters R222). -/
theorem jobOf_even {o : Operands} {h : Nat} {mode : AlphaMode} {j : Job} (hj : jobOf o h mode = some j)
    (hs : (∃ F, j.src.fmt = .sub F) ∨ ∃ F, j.dst.fmt = .sub F) : j.w % 2 = 0 ∧ j.h % 2 = 0 := by
  obtain ⟨hn, F, G, hF, hG, rfl⟩ := jobOf_eq_some_iff.1 hj
  have h420 : (is420 o.src.fmt || is420 o.dst.fmt) = true := by
    dsimp only [sideOf] at hs
    rcases hs with ⟨f, rfl⟩ | ⟨f, rfl⟩
    · simp [is420, hF]
    · simp [is420, hG]
  simp only [isNoOp, Bool.or_eq_false_iff, h420, Bool.true_and, decide_eq_false_iff_not] at hn
  dsimp only
  omega

theorem mem_blockPixels {p : Nat × Nat} : p ∈ blockPixels ↔ p.1 < 2 ∧ p.2 < 2 := by
  obtain ⟨i, k⟩ := p
  simp only [blockPixels, List.mem_cons, Prod.mk.injEq, List.not_mem_nil, or_false]
  omega

theorem dstStore_eq (csc : CscMatrix) (aop : AlphaOp) (G : FullFmt) (sd : Side) (x y : Nat) (c : Color) :
    dstStore csc aop G sd x y c =
      storePixelBytes G sd x y (encodePixel csc G (if aop = .premul then premul c else c)) := rfl

/-- The bytes `DstYUV` stores (42_chroma_sampler R207). -/
def upsampledBytes (csc : CscMatrix) (aop : AlphaOp) (G : FullFmt) (t : Yuv) : List Byte :=
  if G = .yuv444 then encodeYuv t
  else
    let c := yuv2rgb csc t.y t.u t.v
    let d : Color := { r := c.r, g := c.g, b := c.b, a := 255 }
    encodePixel csc G (if aop = .premul then premul d else d)

theorem dstYuv_eq (csc : CscMatrix) (aop : AlphaOp) (G : FullFmt) (sd : Side) (x y : Nat) (t : Yuv) :
    dstYuv csc aop G sd x y t = storePixelBytes G sd x y (upsampledBytes csc aop G t) := by
  unfold dstYuv upsampledBytes
  split
  · rfl
  · rfl

theorem upsampledBytes_length (csc : CscMatrix) (aop : AlphaOp) (G : FullFmt) (t : Yuv) :
    (upsampledBytes csc aop G t).length = if G.planar then (Fmt.full G).planes else G.pixelBytes := by
  unfold upsampledBytes
  split
  · rename_i h
    subst h
    simp [encodeYuv, FullFmt.planar]
    decide
  · exact encodePixel_length _ _ _

theorem mem_transcodeWrites {csc : CscMatrix} {rd : Int → Byte} {F G : FullFmt} {j : Job} {p : Int × Byte} :
    p ∈ transcodeWrites csc rd F G j ↔ ∃ x y, x < j.w ∧ y < j.h ∧
      p ∈ dstStore csc j.aop G j.dst x y (srcColor csc rd j.aop F j.src x y) := by
  simp only [transcodeWrites, mem_forRegion]

theorem mem_copyWrites {rd : Int → Byte} {j : Job} {p : Int × Byte} :
    p ∈ copyWrites rd j ↔ ∃ k y n, j.src.Has j.w j.h k y n ∧ p = (j.dst.byteAddr k y n, rd (j.src.byteAddr k y n)) := by
  simp only [copyWrites, List.mem_flatMap, mem_planeIndices, mem_forRegion, List.mem_singleton, Side.byteAddr]
  constructor
  · rintro ⟨k, hk, n, y, hn, hy, rfl⟩
    exact ⟨k, y, n, ⟨hk, hy, hn⟩, rfl⟩
  · rintro ⟨k, y, n, ⟨hk, hy, hn⟩, rfl⟩
    exact ⟨k, hk, n, y, hn, hy, rfl⟩

theorem mem_reshuffleWrites {rd : Int → Byte} {F G : SubFmt} {j : Job} {p : Int × Byte} :
    p ∈ reshuffleWrites rd F G j ↔
      (∃ x y, x < j.w ∧ y < j.h ∧ p = (lumaAddr j.dst x y, rd (lumaAddr j.src x y))) ∨
        ∃ cx cy, cx < j.w / 2 ∧ cy < j.h / 2 ∧
          (p = (uAddr G j.dst cx cy, rd (uAddr F j.src cx cy)) ∨ p = (vAddr G j.dst cx cy, rd (vAddr F j.src cx cy))) := by
  simp only [reshuffleWrites, List.mem_append, mem_forRegion, List.mem_cons, List.not_mem_nil, or_false]

/-- The chroma sample of one block of `Subsample` (42_chroma_sampler R208). -/
def blockMean (t : Nat → Nat → Yuv) (part : Yuv → Byte) (cx cy : Nat) : Byte :=
  chromaMean (part (t (2 * cx) (2 * cy))) (part (t (2 * cx + 1) (2 * cy))) (part (t (2 * cx) (2 * cy + 1)))
    (part (t (2 * cx + 1) (2 * cy + 1)))

theorem mem_subsampleWrites {csc : CscMatrix} {rd : Int → Byte} {F : FullFmt} {G : SubFmt} {j : Job} {p : Int × Byte}
    (he : j.w % 2 = 0 ∧ j.h % 2 = 0) :
    p ∈ subsampleWrites csc rd F G j ↔
      (∃ x y, x < j.w ∧ y < j.h ∧ p = (lumaAddr j.dst x y, (srcYuv csc rd j.aop F j.src x y).y)) ∨
        ∃ cx cy, cx < j.w / 2 ∧ cy < j.h / 2 ∧
          (p = (uAddr G j.dst cx cy, blockMean (srcYuv csc rd j.aop F j.src) Yuv.u cx cy) ∨
            p = (vAddr G j.dst cx cy, blockMean (srcYuv csc rd j.aop F j.src) Yuv.v cx cy)) := by
  simp only [subsampleWrites, mem_forRegion, List.mem_append, List.mem_map, Prod.exists, mem_blockPixels, List.mem_cons,
    List.not_mem_nil, or_false, blockMean, Nat.add_zero]
  constructor
  · rintro ⟨cx, cy, hcx, hcy, ⟨i, k, ⟨hi, hk⟩, rfl⟩ | hp⟩
    · exact .inl ⟨2 * cx + i, 2 * cy + k, by omega, by omega, rfl⟩
    · exact .inr ⟨cx, cy, hcx, hcy, hp⟩
  · rintro (⟨x, y, hx, hy, rfl⟩ | ⟨cx, cy, hcx, hcy, hp⟩)
    · refine ⟨x / 2, y / 2, by omega, by omega, .inl ⟨x % 2, y % 2, ⟨by omega, by omega⟩, ?_⟩⟩
      rw [Nat.div_add_mod, Nat.div_add_mod]
    · exact ⟨cx, cy, hcx, hcy, .inr hp⟩

theorem mem_upsampleWrites {csc : CscMatrix} {rd : Int → Byte} {F : SubFmt} {G : FullFmt} {j : Job} {p : Int × Byte}
    (he : j.w % 2 = 0 ∧ j.h % 2 = 0) :
    p ∈ upsampleWrites csc rd F G j ↔ ∃ x y, x < j.w ∧ y < j.h ∧
      p ∈ dstYuv csc j.aop G j.dst x y
        { y := rd (lumaAddr j.src x y), u := rd (uAddr F j.src (x / 2) (y / 2)),
          v := rd (vAddr F j.src (x / 2) (y / 2)) } := by
  simp only [upsampleWrites, mem_forRegion, List.mem_flatMap, Prod.exists, mem_blockPixels]
  constructor
  · rintro ⟨cx, cy, hcx, hcy, i, k, ⟨hi, hk⟩, hp⟩
    refine ⟨2 * cx + i, 2 * cy + k, by omega, by omega, ?_⟩
    have e1 : (2 * cx + i) / 2 = cx := by omega
    have e2 : (2 * cy + k) / 2 = cy := by omega
    rw [e1, e2]
    exact hp
  · rintro ⟨x, y, hx, hy, hp⟩
    refine ⟨x / 2, y / 2, by omega, by omega, x % 2, y % 2, ⟨by omega, by omega⟩, ?_⟩
    rw [Nat.div_add_mod, Nat.div_add_mod]
    exact hp

/-- A conversion stores exactly one byte at every address of its destination footprint, and nothing else, whatever its path
(20_memory R71). -/
theorem Job.writes_covers {o : Operands} {h : Nat} {mode : AlphaMode} {j : Job} (hj : jobOf o h mode = some j)
    (csc : CscMatrix) (rd : Int → Byte) : j.dst.Covers j.w j.h (j.writes csc rd) := by
  unfold Job.writes
  split
  · rename_i F G hF hG
    exact covers_of_samples hG _ _ _ fun p => mem_reshuffleWrites
  · rename_i F G hF hG
    exact covers_of_samples hG _ _ _ fun p => mem_subsampleWrites (jobOf_even hj (.inr ⟨G, hG⟩))
  · rename_i F G hF hG
    refine covers_of_pixels hG
      (fun x y => upsampledBytes csc j.aop G
        { y := rd (lumaAddr j.src x y), u := rd (uAddr F j.src (x / 2) (y / 2)),
          v := rd (vAddr F j.src (x / 2) (y / 2)) })
      (fun x y => upsampledBytes_length csc j.aop G _) fun p => ?_
    rw [mem_upsampleWrites (jobOf_even hj (.inl ⟨F, hF⟩))]
    simp only [dstYuv_eq]
  · rename_i F G hF hG
    split
    · rename_i hc
      refine ⟨fun k y n => rd (j.src.byteAddr k y n), fun p => ?_⟩
      have e : ∀ k y n, j.src.Has j.w j.h k y n ↔ j.dst.Has j.w j.h k y n := by
        intro k y n
        have hfmt : j.src.fmt = j.dst.fmt := by rw [hF, hG, hc.1]
        constructor
        · rintro ⟨h1, h2, h3⟩
          exact ⟨hfmt ▸ h1, hfmt ▸ h2, hfmt ▸ h3⟩
        · rintro ⟨h1, h2, h3⟩
          exact ⟨hfmt ▸ h1, hfmt ▸ h2, hfmt ▸ h3⟩
      simp only [mem_copyWrites, e]
    · refine covers_of_pixels hG
        (fun x y =>
          encodePixel csc G
            (if j.aop = .premul then premul (srcColor csc rd j.aop F j.src x y) else srcColor csc rd j.aop F j.src x y))
        (fun x y => encodePixel_length csc G _) fun p => ?_
      simp only [mem_transcodeWrites, dstStore_eq]

/-- Every address a conversion stores to is in its destination footprint (20_memory R71). -/
theorem Job.writes_in_dst {o : Operands} {h : Nat} {mode : AlphaMode} {j : Job} (hj : jobOf o h mode = some j)
    {csc : CscMatrix} {rd : Int → Byte} {p : Int × Byte} (hp : p ∈ j.writes csc rd) : rowsHold j.dstRows p.1 = true := by
  obtain ⟨value, hv⟩ := Job.writes_covers hj csc rd
  obtain ⟨k, y, n, hh, rfl⟩ := (hv p).1 hp
  exact Side.rowsHold_rows_iff.2 ⟨k, y, n, hh, rfl⟩

/-- Every address of the destination footprint is stored to (20_memory R71). -/
theorem Job.exists_write {o : Operands} {h : Nat} {mode : AlphaMode} {j : Job} (hj : jobOf o h mode = some j)
    (csc : CscMatrix) (rd : Int → Byte) {a : Int} (ha : rowsHold j.dstRows a = true) :
    ∃ v, (a, v) ∈ j.writes csc rd := by
  obtain ⟨value, hv⟩ := Job.writes_covers hj csc rd
  obtain ⟨k, y, n, hh, rfl⟩ := Side.rowsHold_rows_iff.1 ha
  exact ⟨value k y n, (hv _).2 ⟨k, y, n, hh, rfl⟩⟩

/-- A byte of a list of writes that gives no address two values reads as written. -/
theorem Memory.read_writeAll_of_agree {m : Memory} (hm : m.wf) {ws : List (Nat × Byte)} {a : Nat} {v : Byte}
    (hv : ∀ w ∈ ws, w.1 = a → w.2 = v) (h : (a, v) ∈ ws) : (m.writeAll ws).read a = v := by
  induction ws generalizing m with
  | nil => simp at h
  | cons w rest ih =>
    by_cases hr : (a, v) ∈ rest
    · exact ih (Memory.write_wf hm w.1 w.2) (fun u hu => hv u (by simp [hu])) hr
    · have hn : a ∉ rest.map Prod.fst := by
        intro hmem
        obtain ⟨u, hu, rfl⟩ := List.mem_map.1 hmem
        exact hr (by rw [← hv u (by simp [hu]) rfl]; exact hu)
      rcases List.mem_cons.1 h with rfl | h
      · exact (Memory.read_writeAll_of_not_mem _ rest hn).trans (Memory.read_write_same hm a v)
      · exact absurd h hr

/-- What a conversion whose contract holds leaves at an address it stores to. -/
theorem Job.readAt_result {o : Operands} {h : Nat} {mode : AlphaMode} {j : Job} (hj : jobOf o h mode = some j)
    {p : Platform} {m : Memory} (hm : m.wf) (h2 : j.dstRowsDisjoint = true) (h3 : j.admitted p = true) {csc : CscMatrix}
    {a : Int} {v : Byte} (ha : (a, v) ∈ j.writes csc m.readAt) : (j.result csc m).readAt a = v := by
  have hadm := (Job.admitted_iff.1 h3).2
  have hrows := rowsPairwiseDisjoint_iff.1 h2
  obtain ⟨value, hv⟩ := Job.writes_covers hj csc m.readAt
  unfold Job.result Memory.storeAt
  refine Memory.read_writeAll_of_agree hm ?_ (List.mem_map.2 ⟨_, ha, rfl⟩)
  rintro w hw he
  obtain ⟨q, hq, rfl⟩ := List.mem_map.1 hw
  dsimp only at he ⊢
  have b1 := (admitsWrite_bounds (hadm _ (Job.writes_in_dst hj hq))).1
  have b2 := (admitsWrite_bounds (hadm _ (Job.writes_in_dst hj ha))).1
  have he' : q.1 = a := by
    dsimp only at b2
    omega
  obtain ⟨k, y, n, hh, rfl⟩ := (hv q).1 hq
  obtain ⟨k', y', n', hh', hp'⟩ := (hv _).1 ha
  obtain ⟨rfl, rfl⟩ := Prod.mk.inj hp'
  obtain ⟨rfl, rfl, rfl⟩ := Side.byte_unique hrows hh hh' he'
  rfl

/-- What a conversion whose contract holds leaves alone (20_memory R71). -/
theorem Job.read_result_of_outside {o : Operands} {h : Nat} {mode : AlphaMode} {j : Job} (hj : jobOf o h mode = some j)
    {p : Platform} (h3 : j.admitted p = true) (csc : CscMatrix) (m : Memory) {a : Nat}
    (ha : rowsHold j.dstRows (a : Int) = false) : (j.result csc m).read a = m.read a := by
  refine Memory.read_storeAt_of_not_mem m _ fun w hw he => ?_
  have hin := Job.writes_in_dst hj hw
  have hb := (admitsWrite_bounds ((Job.admitted_iff.1 h3).2 _ hin)).1
  have : w.1 = (a : Int) := by omega
  rw [this, ha] at hin
  cases hin

/-- A conversion keeps memory in the address space (20_memory R60). -/
theorem Job.result_within {o : Operands} {h : Nat} {mode : AlphaMode} {j : Job} (hj : jobOf o h mode = some j)
    {p : Platform} (h3 : j.admitted p = true) (csc : CscMatrix) {m : Memory} (hm : m.within p.aw) :
    (j.result csc m).within p.aw := by
  refine Memory.writeAll_within hm _ fun w hw => ?_
  obtain ⟨q, hq, rfl⟩ := List.mem_map.1 hw
  exact (admitsWrite_bounds ((Job.admitted_iff.1 h3).2 _ (Job.writes_in_dst hj hq))).2

/-! ### What a conversion reads (20_memory R70) -/

theorem forRegion_congr {α : Type} {w h : Nat} {f g : Nat → Nat → List α}
    (hfg : ∀ x y, x < w → y < h → f x y = g x y) : forRegion w h f = forRegion w h g := by
  simp only [forRegion, List.flatMap]
  refine congrArg List.flatten (List.map_congr_left fun y hy => congrArg List.flatten (List.map_congr_left fun x hx => ?_))
  exact hfg x y (List.mem_range.1 hx) (List.mem_range.1 hy)

/-- A decoder reads the bytes of its own pixel only (41_pixel_codec R150). -/
theorem decodePixel_congr (csc : CscMatrix) (F : FullFmt) {m m' : Nat → Byte}
    (h : ∀ i, i < (if F.planar then (Fmt.full F).planes else F.pixelBytes) → m i = m' i) :
    decodePixel csc F m = decodePixel csc F m' := by
  cases F <;> simp only [decodePixel] <;>
    first
    | rw [h 0 (by decide), h 1 (by decide), h 2 (by decide), h 3 (by decide)]
    | rw [h 0 (by decide), h 1 (by decide), h 2 (by decide)]
    | rw [h 0 (by decide), h 1 (by decide)]
    | rw [h 0 (by decide)]

/-- The bytes of a pixel of the region are in the footprint of its side (20_memory R70). -/
theorem pixelByteAddr_in_rows {F : FullFmt} {sd : Side} {w h : Nat} (hf : sd.fmt = .full F) {x y i : Nat} (hx : x < w)
    (hy : y < h) (hi : i < (if F.planar then (Fmt.full F).planes else F.pixelBytes)) :
    rowsHold (sd.rows w h) (pixelByteAddr F sd x y i) = true := by
  rw [Side.rowsHold_rows_iff]
  cases hpl : F.planar
  · rw [hpl] at hi
    simp only [Bool.false_eq_true, if_false] at hi
    refine ⟨0, y, x * F.pixelBytes + i, ⟨by rw [hf, planes_of_packed hpl]; decide, by rw [hf]; exact hy, ?_⟩,
      pixelByteAddr_packed hf hpl x y i⟩
    rw [hf]
    simp only [Fmt.rowBytes, hpl, Bool.false_eq_true, if_false]
    calc x * F.pixelBytes + i < x * F.pixelBytes + F.pixelBytes := by omega
      _ = (x + 1) * F.pixelBytes := by rw [Nat.succ_mul]
      _ ≤ w * F.pixelBytes := Nat.mul_le_mul_right _ hx
  · rw [hpl, if_pos rfl] at hi
    have hle := (planes_of_planar hpl).1
    refine ⟨⟨i, by omega⟩, y, x, ⟨by rw [hf]; exact hi, by rw [hf]; exact hy, ?_⟩,
      pixelByteAddr_planar hf hpl x y ⟨i, by omega⟩⟩
    rw [hf]
    simpa only [Fmt.rowBytes, hpl, if_true] using hx

theorem lumaAddr_in_rows {F : SubFmt} {sd : Side} {w h : Nat} (hf : sd.fmt = .sub F) {x y : Nat} (hx : x < w)
    (hy : y < h) : rowsHold (sd.rows w h) (lumaAddr sd x y) = true :=
  Side.rowsHold_rows_iff.2 ⟨0, y, x, (Side.has_sub_iff hf).2 (.inl ⟨rfl, hy, hx⟩), lumaAddr_eq hf x y⟩

theorem uAddr_in_rows {F : SubFmt} {sd : Side} {w h : Nat} (hf : sd.fmt = .sub F) {cx cy : Nat} (hx : cx < w / 2)
    (hy : cy < h / 2) : rowsHold (sd.rows w h) (uAddr F sd cx cy) = true :=
  Side.rowsHold_rows_iff.2
    ⟨_, cy, _, (Side.has_sub_iff hf).2 (.inr ⟨hy, cx, hx, .inl rfl⟩), uAddr_eq hf cx cy⟩

theorem vAddr_in_rows {F : SubFmt} {sd : Side} {w h : Nat} (hf : sd.fmt = .sub F) {cx cy : Nat} (hx : cx < w / 2)
    (hy : cy < h / 2) : rowsHold (sd.rows w h) (vAddr F sd cx cy) = true :=
  Side.rowsHold_rows_iff.2
    ⟨_, cy, _, (Side.has_sub_iff hf).2 (.inr ⟨hy, cx, hx, .inr rfl⟩), vAddr_eq hf cx cy⟩

theorem readColor_congr (csc : CscMatrix) {rd rd' : Int → Byte} {F : FullFmt} {sd : Side} {w h : Nat}
    (hf : sd.fmt = .full F) (hrd : ∀ a, rowsHold (sd.rows w h) a = true → rd a = rd' a) {x y : Nat} (hx : x < w)
    (hy : y < h) : readColor csc rd F sd x y = readColor csc rd' F sd x y :=
  decodePixel_congr csc F fun _ hi => hrd _ (pixelByteAddr_in_rows hf hx hy hi)

theorem srcColor_congr (csc : CscMatrix) {rd rd' : Int → Byte} (aop : AlphaOp) {F : FullFmt} {sd : Side} {w h : Nat}
    (hf : sd.fmt = .full F) (hrd : ∀ a, rowsHold (sd.rows w h) a = true → rd a = rd' a) {x y : Nat} (hx : x < w)
    (hy : y < h) : srcColor csc rd aop F sd x y = srcColor csc rd' aop F sd x y := by
  simp only [srcColor, readColor_congr csc hf hrd hx hy]

theorem srcYuv_congr (csc : CscMatrix) {rd rd' : Int → Byte} (aop : AlphaOp) {F : FullFmt} {sd : Side} {w h : Nat}
    (hf : sd.fmt = .full F) (hrd : ∀ a, rowsHold (sd.rows w h) a = true → rd a = rd' a) {x y : Nat} (hx : x < w)
    (hy : y < h) : srcYuv csc rd aop F sd x y = srcYuv csc rd' aop F sd x y := by
  unfold srcYuv
  split
  · rename_i e
    subst e
    have hb : ∀ i, i < 3 → rd (pixelByteAddr .yuv444 sd x y i) = rd' (pixelByteAddr .yuv444 sd x y i) := fun i hi =>
      hrd _ (pixelByteAddr_in_rows hf hx hy hi)
    simp only [decodeYuv, hb 0 (by decide), hb 1 (by decide), hb 2 (by decide)]
  · simp only [srcColor_congr csc aop hf hrd hx hy]

/-- What a conversion stores depends on the bytes of its source footprint alone (20_memory R70). -/
theorem Job.writes_congr (j : Job) (csc : CscMatrix) {rd rd' : Int → Byte}
    (hrd : ∀ a, rowsHold j.srcRows a = true → rd a = rd' a) :
    j.writes csc rd = j.writes csc rd' := by
  unfold Job.srcRows at hrd
  unfold Job.writes
  split
  · rename_i F G hF hG
    unfold reshuffleWrites
    refine congrArg₂ _ (forRegion_congr fun x y hx hy => ?_) (forRegion_congr fun cx cy hx hy => ?_)
    · rw [hrd _ (lumaAddr_in_rows hF hx hy)]
    · rw [hrd _ (uAddr_in_rows hF hx hy), hrd _ (vAddr_in_rows hF hx hy)]
  · rename_i F G hF hG
    unfold subsampleWrites
    refine forRegion_congr fun cx cy hx hy => ?_
    have e : ∀ i k, i < 2 → k < 2 →
        srcYuv csc rd j.aop F j.src (2 * cx + i) (2 * cy + k) = srcYuv csc rd' j.aop F j.src (2 * cx + i) (2 * cy + k) :=
      fun i k hi hk => srcYuv_congr csc j.aop hF hrd (by omega) (by omega)
    simp only [blockPixels, List.map_cons, List.map_nil, e 0 0 (by decide) (by decide), e 1 0 (by decide) (by decide),
      e 0 1 (by decide) (by decide), e 1 1 (by decide) (by decide)]
  · rename_i F G hF hG
    unfold upsampleWrites
    refine forRegion_congr fun cx cy hx hy => ?_
    have e : ∀ i k, i < 2 → k < 2 →
        rd (lumaAddr j.src (2 * cx + i) (2 * cy + k)) = rd' (lumaAddr j.src (2 * cx + i) (2 * cy + k)) :=
      fun i k hi hk => hrd _ (lumaAddr_in_rows hF (by omega) (by omega))
    simp only [blockPixels, List.flatMap_cons, List.flatMap_nil, e 0 0 (by decide) (by decide),
      e 1 0 (by decide) (by decide), e 0 1 (by decide) (by decide), e 1 1 (by decide) (by decide),
      hrd _ (uAddr_in_rows hF hx hy), hrd _ (vAddr_in_rows hF hx hy)]
  · rename_i F G hF hG
    split
    · simp only [copyWrites, List.flatMap]
      refine congrArg List.flatten (List.map_congr_left fun k hk => forRegion_congr fun n y hn hy => ?_)
      have := hrd _ (Side.rowsHold_rows_iff.2 ⟨k, y, n, ⟨mem_planeIndices.1 hk, hy, hn⟩, rfl⟩)
      unfold Side.byteAddr at this
      rw [this]
    · unfold transcodeWrites
      exact forRegion_congr fun x y hx hy => by rw [srcColor_congr csc j.aop hF hrd hx hy]

end Sys2Proof.Machine
end

