-- ==== Sys2Proof/Laws/PerInstr.lean ====
section
/-! SUPPORT. Statements made of every command, one lemma per constructor. -/

namespace Sys2Proof.Laws.OpField

/-- The encoder puts the command's `OP` in bits 7:0 and sets no bit the command does not read (30_encoding R90, R98). -/
def Statement (i : Instr) : Prop := opField (encode i) = i.op ∧ (encode i).setWidth 64 &&& ~~~(readMask i) = 0#64

theorem nop : Statement .nop := by
  unfold Statement
  decide

theorem conv1d (alpha : AlphaMode) : Statement (.conv1d alpha) := by
  unfold Statement
  cases alpha <;> decide

theorem conv2d (alpha : AlphaMode) : Statement (.conv2d alpha) := by
  unfold Statement
  cases alpha <;> decide

theorem fqSpace (sel : Sel) : Statement (.fqSpace sel) := by
  unfold Statement
  cases sel <;> decide

theorem fqAlpha (sel : Sel) : Statement (.fqAlpha sel) := by
  unfold Statement
  cases sel <;> decide

theorem fqPa (sel : Sel) : Statement (.fqPa sel) := by
  unfold Statement
  cases sel <;> decide

theorem fqPlanes (sel : Sel) : Statement (.fqPlanes sel) := by
  unfold Statement
  cases sel <;> decide

theorem fqBps (sel : Sel) : Statement (.fqBps sel) := by
  unfold Statement
  cases sel <;> decide

theorem fqByps (sel : Sel) : Statement (.fqByps sel) := by
  unfold Statement
  cases sel <;> decide

theorem fqBpp (sel : Sel) : Statement (.fqBpp sel) := by
  unfold Statement
  cases sel <;> decide

theorem fqBypp (sel : Sel) : Statement (.fqBypp sel) := by
  unfold Statement
  cases sel <;> decide

theorem fqUid (sel : Sel) : Statement (.fqUid sel) := by
  unfold Statement
  cases sel <;> decide

theorem fqIs420 (sel : Sel) : Statement (.fqIs420 sel) := by
  unfold Statement
  cases sel <;> decide

theorem fqTwin (sel : Sel) : Statement (.fqTwin sel) := by
  unfold Statement
  cases sel <;> decide

theorem fqRgbeq (sel : Sel) : Statement (.fqRgbeq sel) := by
  unfold Statement
  cases sel <;> decide

theorem bdSize (sel : Sel) : Statement (.bdSize sel) := by
  unfold Statement
  cases sel <;> decide

theorem bdNorm (sel : Sel) : Statement (.bdNorm sel) := by
  unfold Statement
  cases sel <;> decide

end Sys2Proof.Laws.OpField
end

