-- ==== Sys2Proof/Laws/Ready.lean ====
section
/-! SUPPORT. The vocabulary of Safety.lean against the machine: what a conversion command executes, when its contract holds,
and what it leaves when it is ready. -/

namespace Sys2Proof.Safety

open Sys2Proof.Machine

/-- The two conversion commands are one operation on a region height and a mode (43_converters R223, R224). -/
theorem exec_of_conversion {i : Instr} {s : State} {mode : AlphaMode} {h : Nat} (hc : conversionOf i s = some (mode, h)) :
    exec i s = runConversion s h mode := by
  cases i <;> simp [conversionOf] at hc <;> obtain ⟨rfl, rfl⟩ := hc <;> rfl

/-- The contract is what the machine checks (20_memory R72). -/
theorem contract_iff {s : State} {j : Job} :
    Contract s j ↔ j.footprintsDisjoint = true ∧ j.dstRowsDisjoint = true ∧ j.admitted s.platform = true := by
  constructor
  · rintro ⟨h1, h2, h3, h4⟩
    exact ⟨rowsDisjoint_iff.2 h1, rowsPairwiseDisjoint_iff.2 h2, Job.admitted_iff.2 ⟨h3, h4⟩⟩
  · rintro ⟨h1, h2, h3⟩
    exact ⟨rowsDisjoint_iff.1 h1, rowsPairwiseDisjoint_iff.1 h2, (Job.admitted_iff.1 h3).1, (Job.admitted_iff.1 h3).2⟩

theorem ready_iff {i : Instr} {s : State} {j : Job} :
    Ready i s j ↔
      (∃ mode h, conversionOf i s = some (mode, h) ∧ jobOf s.operands h mode = some j) ∧
        j.footprintsDisjoint = true ∧ j.dstRowsDisjoint = true ∧ j.admitted s.platform = true :=
  ⟨fun hr => ⟨hr.job, contract_iff.1 hr.contract⟩, fun hr => ⟨hr.1, contract_iff.2 hr.2⟩⟩

/-- A conversion that is ready answers the state with its job's result in memory. -/
theorem exec_of_ready {i : Instr} {s : State} {j : Job} (hr : Ready i s j) :
    exec i s = .next { s with mem := j.result s.platform.csc s.mem, status := statusDone } := by
  obtain ⟨⟨mode, h, hc, hj⟩, h1, h2, h3⟩ := ready_iff.1 hr
  rw [exec_of_conversion hc]
  exact runConversion_of_ready hj h1 h2 h3

/-- What a ready conversion leaves at an address it stores to. -/
theorem readAt_of_ready {i : Instr} {s : State} {j : Job} (hr : Ready i s j) (hm : s.mem.wf) {a : Int} {v : Byte}
    (ha : (a, v) ∈ j.writes s.platform.csc s.mem.readAt) : (j.result s.platform.csc s.mem).readAt a = v := by
  obtain ⟨⟨mode, h, -, hj⟩, -, h2, h3⟩ := ready_iff.1 hr
  exact Job.readAt_result hj hm h2 h3 ha

end Sys2Proof.Safety
end

