-- ==== Sys2Proof/Laws/Reset.lean ====
section
/-! SUPPORT. What a reset does to memory (70_reset_and_hazards R291): which bytes it frees, and that memory keeps its form. -/

namespace Sys2Proof.Machine

/-- The bytes a reset frees: those of the abandoned command's destination footprint. -/
theorem State.mem_abandonedAddrs_iff {s : State} {a : Int} :
    a ∈ s.abandonedAddrs ↔
      s.busy = true ∧ ∃ j, commandJob s.operands = some j ∧ rowsHold j.dstRows a = true ∧ s.platform.namesByte a = true := by
  unfold State.abandonedAddrs
  split
  · rename_i hb
    cases hj : commandJob s.operands with
    | none => simp
    | some j => simp [hb, List.mem_flatMap, Row.mem_addrs_iff, rowsHold_iff]
  · rename_i hb
    simp [hb]

theorem State.memAfterReset_wf {s : State} (hm : s.mem.wf) : s.memAfterReset.wf := Memory.storeAt_wf hm _

theorem State.memAfterReset_within {s : State} (hm : s.mem.within s.platform.aw) :
    s.memAfterReset.within s.platform.aw := by
  refine Memory.writeAll_within hm _ fun w hw => ?_
  obtain ⟨q, hq, rfl⟩ := List.mem_map.1 hw
  obtain ⟨a, ha, rfl⟩ := List.mem_map.1 hq
  obtain ⟨-, j, -, -, hn⟩ := State.mem_abandonedAddrs_iff.1 ha
  exact (namesByte_bounds hn).2

end Sys2Proof.Machine
end

