-- ==== Sys2Proof/Tests/Slice0.lean ====
section
/-! SUPPORT. Tests of the model against the worked examples and tables of spec/95_test_vectors.md and of the rules, one step
each; the well-formedness smoke test; the decodings of words written out from the spec's encoding. -/

namespace Sys2Proof.Tests

open Sys2Proof.Machine Sys2Proof.Safety

/-! ### Helpers -/

/-- Memory with bytes from an address on. -/
def load (m : Memory) (a : Nat) (bytes : List Byte) : Memory := m.writeAll (bytes.zipIdx.map fun p => (a + p.2, p.1))

/-- `n` bytes of memory from an address on. -/
def dump (m : Memory) (a n : Nat) : List Byte := (List.range n).map fun (i : Nat) => m.read (a + i)

/-- Something of the next state, none where the outcome is no next state. -/
def look {α : Type} (o : Host.Outcome State Fault Refusal) (f : State → α) : Option α :=
  match o with
  | .next t => some (f t)
  | .fault _ => none
  | .refused _ => none

/-- Why the machine is stuck, if it is. -/
def stuck (o : Host.Outcome State Fault Refusal) : Option Fault :=
  match o with
  | .next _ => none
  | .fault r => some r
  | .refused _ => none

/-- Why a run is refused, if it is. -/
def refusal (o : Host.Outcome State Fault Refusal) : Option Refusal :=
  match o with
  | .next _ => none
  | .fault _ => none
  | .refused r => some r

/-- A descriptor with four pointers and four strides. -/
def desc (fmt : BitVec 32) (p0 p1 p2 p3 : BitVec 64) (s0 s1 s2 s3 : BitVec 32) : Descriptor :=
  { fmt := fmt
    ptr := { p0 := p0, p1 := p1, p2 := p2, p3 := p3 }
    stride := { p0 := s0, p1 := s1, p2 := s2, p3 := s3 } }

/-- A descriptor of one plane with stride 0. -/
def tight (fmt : BitVec 32) (p : BitVec 64) : Descriptor := desc fmt p 0 0 0 0 0 0 0

/-- The reset machine with a region, two descriptors and memory. -/
def machine (w h : BitVec 32) (src dst : Descriptor) (m : Memory) : State :=
  { State.reset with width := w, height := h, src := src, dst := dst, mem := m }

/-- The state with one scheduled event. -/
def next (s : State) (e : Event) : State := { s with schedule := [e] }

/-! ### Well-formedness (30_encoding R99) -/

theorem test_wf_plain : (Instr.conv1d .none).wellFormed = true := by decide

theorem test_wf_conv1d_reserved_alpha : (Instr.conv1d .reserved).wellFormed = false := by decide

theorem test_wf_conv2d_reserved_alpha : (Instr.conv2d .reserved).wellFormed = false := by decide

/-! ### Decoding of words from 30_encoding R90, R98, R103 -/

theorem test_decode_nop : decode 0b00000000000#11 = .ok .nop := by decide

theorem test_decode_nop_ignores_fields : decode 0b11100000000#11 = .ok .nop := by decide

theorem test_decode_conv1d_premul : decode 0b01000000001#11 = .ok (.conv1d .premul) := by decide

theorem test_decode_conv1d_ignores_sel : decode 0b10100000001#11 = .ok (.conv1d .unpremul) := by decide

theorem test_decode_conv2d : decode 0b00000000010#11 = .ok (.conv2d .none) := by decide

theorem test_decode_conv2d_reserved : decode 0b01100000010#11 = .ok (.conv2d .reserved) := by decide

theorem test_decode_fqSpace : decode 0b00000010000#11 = .ok (.fqSpace .src) := by decide

theorem test_decode_fqAlpha : decode 0b10000010001#11 = .ok (.fqAlpha .dst) := by decide

theorem test_decode_fqPa : decode 0b00000010010#11 = .ok (.fqPa .src) := by decide

theorem test_decode_fqPlanes : decode 0b10000010011#11 = .ok (.fqPlanes .dst) := by decide

theorem test_decode_fqBps : decode 0b00000010100#11 = .ok (.fqBps .src) := by decide

theorem test_decode_fqByps : decode 0b10000010101#11 = .ok (.fqByps .dst) := by decide

theorem test_decode_fqBpp : decode 0b00000010110#11 = .ok (.fqBpp .src) := by decide

theorem test_decode_fqBypp : decode 0b10000010111#11 = .ok (.fqBypp .dst) := by decide

theorem test_decode_fqUid : decode 0b00000011000#11 = .ok (.fqUid .src) := by decide

theorem test_decode_fqIs420 : decode 0b10000011001#11 = .ok (.fqIs420 .dst) := by decide

theorem test_decode_fqTwin_ignores_alpha : decode 0b11100011010#11 = .ok (.fqTwin .dst) := by decide

theorem test_decode_fqRgbeq : decode 0b00000011011#11 = .ok (.fqRgbeq .src) := by decide

theorem test_decode_bdSize : decode 0b10000100000#11 = .ok (.bdSize .dst) := by decide

theorem test_decode_bdNorm : decode 0b00000100001#11 = .ok (.bdNorm .src) := by decide

theorem test_decode_reserved_low : decode 0x003#11 = .error (.reservedOp 0x03#8) := by decide

theorem test_decode_reserved_high : decode 0x122#11 = .error (.reservedOp 0x22#8) := by decide

/-- T70: `WR CMD, 0xFFFFF802` is CONV2D with `ALPHA` 0. -/
theorem test_decode_written_ignores_high_bits : decodeWritten 0xFFFFF802#64 = .ok (.conv2d .none) := by decide

theorem test_encode_examples :
    encode (.conv2d .none) = 0x002#11 ∧ encode (.conv2d .unpremul) = 0x102#11 ∧ encode (.conv2d .premul) = 0x202#11 ∧
      encode (.conv1d .premul) = 0x201#11 ∧ encode (.fqTwin .dst) = 0x41A#11 ∧ encode (.bdSize .src) = 0x020#11 := by
  decide

/-- No two commands share an `OP` (30_encoding R98). -/
theorem test_ops_distinct :
    ([Instr.nop, .conv1d .none, .conv2d .none, .fqSpace .src, .fqAlpha .src, .fqPa .src, .fqPlanes .src, .fqBps .src,
      .fqByps .src, .fqBpp .src, .fqBypp .src, .fqUid .src, .fqIs420 .src, .fqTwin .src, .fqRgbeq .src, .bdSize .src,
      .bdNorm .src].map Instr.op).Nodup := by decide

/-! ### The first step after reset -/

theorem test_fetch_runs_query :
    look (step (State.reset.withFetchWord 16 0x13)) (fun t => (t.result, t.status, t.cmd, t.schedule)) =
      some (1#64, 2#2, 0x013#11, []) := by decide

theorem test_fetch_runs_reserved_op :
    look (step (State.reset.withFetchWord 16 0x307)) (fun t => (t.result, t.status, t.cmd)) =
      some (0#64, 2#2, 0x307#11) := by decide

/-! ### NOP, CONV1D, CONV2D -/

theorem test_nop : look (exec .nop State.reset) (fun t => (t.status, t.result)) = some (2#2, 0#64) := by decide

/-- The example of R223: two RGBA pixels to gray, `HEIGHT` = 0. -/
def grayRow : State :=
  machine 2 0 (tight 0x18202001 0x1000) (tight 0x10080820 0x2000) (load [] 0x1000 [0xFF, 0, 0, 0xFF, 0, 0xFF, 0, 0xFF])

theorem test_conv1d_gray : look (exec (.conv1d .none) grayRow) (fun t => dump t.mem 0x2000 3) = some [0x55, 0x55, 0] := by
  decide

/-- T50, row 5: CONV1D into or out of a 4:2:0 format is a no-op, and `RESULT` stays. -/
theorem test_conv1d_420_is_no_op :
    look (exec (.conv1d .none)
        { machine 2 2 (desc 0x21080CB3 0x1000 0x1004 0 0 0 0 0 0) (tight 0x18202001 0x2000) [] with result := 0x1234 })
      (fun t => (t.mem, t.status, t.result)) = some ([], 2#2, 0x1234#64) := by decide

/-- T30a: a padded source and a negative destination stride. -/
def paddedCopy : State :=
  machine 2 2 (desc 0x10181810 0x1000 0 0 0 8 0 0 0) (desc 0x10181810 0x2010 0 0 0 0xFFFFFFF0 0 0 0)
    (load (load [] 0x1000 [1, 2, 3, 4, 5, 6, 0xEE, 0xEE, 7, 8, 9, 10, 11, 12, 0xEE, 0xEE]) 0x2000
      (List.replicate 32 0xCC))

theorem test_conv2d_negative_stride :
    look (exec (.conv2d .none) paddedCopy) (fun t => (dump t.mem 0x2000 8, dump t.mem 0x2010 8)) =
      some ([7, 8, 9, 10, 11, 12, 0xCC, 0xCC], [1, 2, 3, 4, 5, 6, 0xCC, 0xCC]) := by decide

/-- P2, step 9: bottom-up BGRA to NV12. -/
def cameraFrame : State :=
  machine 4 2 (desc 0x18202002 0x1014 0 0 0 0xFFFFFFEC 0 0 0) (desc 0x21080CB3 0x2000 0x2008 0 0 0 0 0 0)
    (load []
      0x1000 [0, 0, 255, 255, 0, 0, 255, 255, 255, 255, 255, 255, 0, 0, 0, 255, 0xEE, 0xEE, 0xEE, 0xEE, 0, 0, 255, 255, 0,
        0, 255, 255, 255, 0, 0, 255, 255, 0, 0, 255])

theorem test_conv2d_subsample :
    look (exec (.conv2d .none) cameraFrame) (fun t => dump t.mem 0x2000 12) =
      some [0x52, 0x52, 0x29, 0x29, 0x52, 0x52, 0xEB, 0x10, 0x5A, 0xF0, 0xB8, 0x77] := by decide

/-! ### The Format Descriptor queries, on lines of T10 -/

/-- A machine whose two format registers hold two identifiers. -/
def formats (sf df : BitVec 32) : State := machine 0 0 (tight sf 0) (tight df 0) []

/-- The answer of a command. -/
def answer (i : Instr) (s : State) : Option (BitVec 64) := look (exec i s) State.result

theorem test_fqSpace : answer (.fqSpace .dst) (formats 0 0x20181881) = some 2#64 := by decide

theorem test_fqAlpha : answer (.fqAlpha .src) (formats 0x1B082030 0) = some 1#64 := by decide

theorem test_fqPa : answer (.fqPa .src) (formats 0x1F082031 0) = some 1#64 := by decide

theorem test_fqPlanes : answer (.fqPlanes .dst) (formats 0 0x22080CB0) = some 3#64 := by decide

theorem test_fqBps : answer (.fqBps .src) (formats 0x10181810 0) = some 24#64 := by decide

theorem test_fqByps : answer (.fqByps .src) (formats 0xFFFFFFFF 0) = some 32#64 := by decide

theorem test_fqBpp : answer (.fqBpp .src) (formats 0x1F082031 0) = some 32#64 := by decide

theorem test_fqBypp : answer (.fqBypp .dst) (formats 0 0x21080CB3) = some 2#64 := by decide

theorem test_fqUid : answer (.fqUid .src) (formats 0x21080CB2 0) = some 0xB2#64 := by decide

theorem test_fqIs420 : answer (.fqIs420 .src) (formats 0x20000C00 0) = some 1#64 := by decide

theorem test_fqTwin : answer (.fqTwin .src) (formats 0x1F082031 0) = some 0x1B082030#64 := by decide

theorem test_fqTwin_sentinel : answer (.fqTwin .src) (formats 0x10181810 0) = some 0x10181810#64 := by decide

theorem test_fqRgbeq : answer (.fqRgbeq .dst) (formats 0 0x20181881) = some 0x10181810#64 := by decide

/-! ### The Buffer Descriptor commands, on lines of T60 -/

theorem test_bdSize_odd_420 :
    answer (.bdSize .dst) (machine 3 5 Descriptor.zero (tight 0x21080CB3 0) []) = some 22#64 := by decide

theorem test_bdSize_wraps :
    answer (.bdSize .src) (machine 0xFFFFFFFF 0xFFFFFFFF (tight 0x18202001 0) Descriptor.zero []) =
      some 0xFFFFFFF800000004#64 := by decide

theorem test_bdNorm_i420 :
    look
        (exec (.bdNorm .dst) (machine 6 0 Descriptor.zero (desc 0x22080CB0 0 0 0 0 0 5 0 9) []))
        (fun t => (t.dst.stride, t.result)) =
      some ({ p0 := 6, p1 := 5, p2 := 3, p3 := 9 }, 2#64) := by decide

theorem test_bdNorm_does_not_fit :
    look (exec (.bdNorm .src) (machine 0x20000000 0 (tight 0x18202001 0) Descriptor.zero []))
        (fun t => (t.src.stride.p0, t.result)) =
      some (0#32, 0#64) := by decide

/-! ### The Pixel Codec (T20, T21, T22, S7) -/

theorem test_encode_565 :
    encodePixel .bt601 .rgb565le { r := 0x12, g := 0x34, b := 0x56, a := 0x78 } = [0xAA, 0x11] ∧
      encodePixel .bt601 .bgr565be { r := 0x12, g := 0x34, b := 0x56, a := 0x78 } = [0x51, 0xA2] := by decide

theorem test_decode_565 :
    decodePixel .bt601 .rgb565be (fun i => [(0x1F : Byte), 0x00].getD i 0) = { r := 24, g := 224, b := 0, a := 255 } := by
  decide

/-- The examples of R151 to R154 and R160. -/
theorem test_decode_layouts :
    let m : Nat → Byte := fun i => [(0x11 : Byte), 0x22, 0x33, 0x44].getD i 0
    decodePixel .bt601 .rgba m = { r := 0x11, g := 0x22, b := 0x33, a := 0x44 } ∧
      decodePixel .bt601 .bgra m = { r := 0x33, g := 0x22, b := 0x11, a := 0x44 } ∧
      decodePixel .bt601 .argb m = { r := 0x22, g := 0x33, b := 0x44, a := 0x11 } ∧
      decodePixel .bt601 .abgr m = { r := 0x44, g := 0x33, b := 0x22, a := 0x11 } ∧
      decodePixel .bt601 .bgr m = { r := 0x33, g := 0x22, b := 0x11, a := 0xFF } := by decide

theorem test_matrix :
    rgb2yuv .bt601 200 100 50 = { y := 123, u := 91, v := 175 } ∧
      yuv2rgb .bt601 0 0 0 = { r := 0, g := 135, b := 0 } := by decide

theorem test_alpha_transforms :
    premul { r := 10, g := 20, b := 30, a := 64 } = { r := 2, g := 5, b := 7, a := 64 } ∧
      unpremul { r := 200, g := 0, b := 1, a := 100 } = { r := 255, g := 0, b := 2, a := 100 } := by decide

theorem test_chroma_mean : chromaMean 10 20 30 41 = 25 ∧ chromaMean 255 255 255 254 = 255 := by decide

/-! ### The host's accesses, reset (T70) -/

theorem test_write_keeps_32_bits :
    look (step (next State.reset (.regWrite 3 0x100000002))) State.width = some 2#32 := by decide

theorem test_write_ro_ignored : look (step (next State.reset (.regWrite 1 3))) State.status = some 0#2 := by decide

theorem test_write_cmd_accepts :
    look (step (next State.reset (.regWrite 0 0xFFFFF802))) (fun t => (t.cmd, t.status, t.window.length)) =
      some (0x002#11, 1#2, 1) := by decide

/-! ### Stops of a conversion (20_memory R68, R72) and of another agent (R73) -/

theorem test_aliased_is_refused :
    refusal (exec (.conv1d .none) (machine 1 0 (tight 0x18202001 0x1000) (tight 0x18202001 0x1003) [])) =
      some .aliasedFootprints := by decide

theorem test_adjacent_is_not_refused :
    refusal (exec (.conv1d .none) (machine 1 0 (tight 0x18202001 0x1000) (tight 0x18202001 0x1004) [])) = none := by
  decide

theorem test_overlapping_rows_are_refused :
    refusal
        (exec (.conv2d .none)
          (machine 1 2 (tight 0x18202001 0x1000) (desc 0x18202001 0x2000 0 0 0 3 0 0 0) [])) =
      some .overlappingDestinationRows := by decide

theorem test_below_zero_is_stuck :
    stuck
        (exec (.conv2d .none)
          (machine 1 2 (tight 0x10080820 0x1000) (desc 0x10080820 0 0 0 0 0xFFFFFFFF 0 0 0) [])) =
      some .neverCompletes := by decide

theorem test_unmapped_is_stuck :
    look (step (next grayRow (.unmap 0))) (fun t => stuck (exec (.conv1d .none) t)) = some (some .neverCompletes) := by
  decide

/-- `grayRow` just after its CONV1D was accepted. -/
def grayRowBusy : State := grayRow.accept 1

theorem test_race_is_refused : refusal (step (next grayRowBusy (.memRead 0x2001))) = some .dataRace := by decide

theorem test_source_read_is_no_race :
    look (step (next grayRowBusy (.memRead 0x1000))) State.readData = some 0xFF#64 := by decide

/-! ### Witnesses: for each statement with hypotheses, a state and operands that meet them, clause by clause -/

theorem witness_ReservedEncodingsAreNoOps :
    (State.reset.accept 0x22).busy = true ∧ (State.reset.accept 0x22).schedule = [] ∧
      decode (State.reset.accept 0x22).cmd = .error (.reservedOp 0x22) ∧
      (next (State.reset.accept 0x22) .engine).busy = true ∧
      (next (State.reset.accept 0x22) .engine).schedule = .engine :: [] ∧
      (0x400#64 &&& readMask .nop = 0xF00#64 &&& readMask .nop) := by decide

theorem witness_StepRunsDecodedCommand :
    grayRowBusy.busy = true ∧ decode grayRowBusy.cmd = .ok (.conv1d .none) ∧ grayRowBusy.schedule = [] ∧
      (next grayRowBusy .engine).schedule = [.engine] ∧ (next grayRowBusy .engine).busy = true ∧
      grayRow.busy = false ∧ grayRow.schedule = [] ∧ (next grayRow .engine).schedule = .engine :: [] ∧
      decodeTableWord 11 0x7FF = none ∧ decodeTableWord 11 0x421 = some (.bdNorm .dst) := by decide

theorem witness_IdleRegisterWriteStoresLowBits :
    State.reset.busy = false ∧ (23 : Fin 32).val ≠ 0 ∧ hostWritable 23 = true ∧ hostWritable 24 = false ∧
      hostWritable 7 = false ∧ hostWritable 2 = false ∧
      (next State.reset (.regWrite 23 5)).schedule = [.regWrite 23 5] := by decide

/-- A state the invariant holds in: a busy machine with memory and operands. -/
theorem witness_Inv : Inv grayRowBusy :=
  { platform := by decide
    memory := by decide
    space := by decide
    status := by decide
    srcPointers := fun k => by revert k; decide
    dstPointers := fun k => by revert k; decide
    sampled := by decide }

theorem witness_BitsAboveRegisterWidthReadZero :
    Inv grayRowBusy ∧ registerWidth 64 8 = 64 ∧ registerWidth 64 12 = 32 ∧ registerWidth 64 7 = 0 :=
  ⟨witness_Inv, by decide⟩

theorem witness_StepKeepsInvariant : Inv grayRowBusy ∧ look (step grayRowBusy) State.status = some 2#2 :=
  ⟨witness_Inv, by decide⟩

theorem witness_BusyRegisterWriteIsIgnored :
    grayRowBusy.busy = true ∧ (next grayRowBusy (.regWrite 0 2)).schedule = [.regWrite 0 2] := by decide

theorem witness_IdleCommandWriteIsAcceptance :
    grayRow.busy = false ∧ (next grayRow (.regWrite 0 1)).schedule = [.regWrite 0 1] := by decide

theorem witness_RegisterReadHasNoSideEffect :
    (next { grayRow with status := 2 } (.regRead 1)).schedule = [.regRead 1] ∧
      State.done { grayRow with status := 2 } = true ∧ grayRowBusy.done = false := by decide

/-- The reset machine with its register file mapped. -/
def mapped : State := { State.reset with platform := { Platform.standard with regBase := some 0x4000 } }

theorem witness_MappedRegistersAreWholeAndAligned :
    mapped.platform.regBase = some 0x4000 ∧
      look (step (next mapped (.busRead (0x4000 + 8 * 31) 8))) State.readData = some 0 ∧
      refusal (step (next mapped (.busRead (0x4000 + 255) 1))) = some .registerAccessShape ∧
      refusal (step (next mapped (.busRead (0x4000 + 4) 8))) = some .registerAccessShape ∧
      refusal (step (next mapped (.busRead 0x4000 16))) = some .registerAccessShape ∧
      refusal (step (next mapped (.busRead (0x4000 + 256) 8))) = some .noRegisterThere ∧
      refusal (step (next State.reset (.busWrite 0 8 1))) = some .noRegisterThere := by decide

theorem witness_CommandFrame :
    look (exec (.bdNorm .src) grayRow) State.result = some 1#64 ∧ keepsResult (.conv1d .none) = true ∧
      Instr.bdNorm .src ≠ .bdNorm .dst ∧ conversionOf (.fqPa .src) grayRow = none := by decide

theorem witness_CommandDependsOnInputsOnly :
    SameInputs grayRow { grayRow with readData := 7, freeCount := 3, status := 1 } := ⟨rfl, rfl, rfl, rfl⟩

theorem witness_Is420QueryComparesTwoFields :
    recognised 0x21080CB2#32 = true ∧ recognised 0x10080820#32 = true ∧
      recognised (formats 0x20000C00 0x21080CB2).src.fmt = false ∧
      recognised (formats 0x21080CB2 0x20000C00).dst.fmt = false := by decide

theorem witness_TwinQueryTogglesPremultiplication :
    fmtTwin 0x18202001#32 ≠ 0x18202001#32 ∧ ∀ p ∈ twinPairs, (0x10181810#32 : BitVec 32) ≠ p.1 ∧ 0x10181810#32 ≠ p.2 := by
  simp [fmtTwin, twinPairs]

theorem witness_QueryDependsOnSelectedFormatOnly :
    queryOf (.fqTwin .dst) = some .dst ∧ (grayRow.descriptor .dst).fmt = (grayRowBusy.descriptor .dst).fmt := by decide

theorem witness_SizeCommandAnswersTightSize :
    recognise ((formats 0 0x22080CB0).descriptor .src).fmt = none ∧
      recognise ((formats 0 0x22080CB0).descriptor .dst).fmt = some (.sub .i420) := by decide

theorem witness_NormCommandFillsZeroStrides :
    recognise ((formats 0x18202009 0x22080CB0).descriptor .src).fmt = none ∧
      recognise ((formats 0 0x22080CB0).descriptor .dst).fmt = some (.sub .i420) ∧
      (Fmt.full .rgba).rowBytes 0 0x1FFFFFFF < 2 ^ 31 ∧ ¬(Fmt.full .rgba).rowBytes 0 0x20000000 < 2 ^ 31 ∧
      ¬0 < (Fmt.sub .yv12).rowBytes 1 1 := by decide

theorem witness_ConversionAfterNormIsUnchanged :
    conversionOf (.conv1d .none) grayRow = some (.none, 1) ∧
      look (exec (.bdNorm .src) grayRow) (fun t => answer (.bdNorm .dst) t) = some (some 1#64) := by decide

theorem witness_AlphaOperationFollowsFormats :
    alphaOp (Fmt.full .rgbaPa).ident (Fmt.full .rgb).ident .none = .unpremul ∧
      alphaOp (Fmt.full .rgb).ident (Fmt.full .rgbaPa).ident .none = .premul ∧
      fmtHasAlpha (Fmt.full .gray8).ident = 0 ∧ fmtTwin (Fmt.full .rgbaPlanar).ident ≠ (Fmt.full .rgbaPlanar).ident := by
  decide

theorem witness_NoOpConversionOnlyCompletes :
    conversionOf (.conv2d .none) grayRow = some (.none, 0) ∧ grayRow.height.toNat = 0 ∧
      conversionOf (.conv2d .none) cameraFrame = some (.none, 2) ∧ is420 cameraFrame.dst.fmt = true ∧
      cameraFrame.width.toNat % 2 = 0 ∧ recognise cameraFrame.src.fmt = some (.full .bgra) ∧
      cameraFrame.src.stride.p0.toInt = -20 ∧ cameraFrame.dst.stride.p1 = 0 := by decide

/-- A side of a conversion with four pointers far apart and four row strides, the second descending. -/
def sideAt (F : Fmt) : Side :=
  { fmt := F
    ptr := { p0 := 0x1000, p1 := 0x2000, p2 := 0x3000, p3 := 0x4000 }
    rs := { p0 := 16, p1 := -8, p2 := 4, p3 := 2 } }

/-- R205 and R203, by hand: NV12 keeps U first, YV12 keeps V in plane 1. -/
theorem witness_ChromaSitesAreThoseOfTheSpec :
    (sideAt (.sub .i420)).fmt = .sub .i420 ∧ (sideAt (.sub .nv21)).fmt = .sub .nv21 ∧
      uAddr .nv12 (sideAt (.sub .nv12)) 3 1 = 0x1FFE ∧ vAddr .nv12 (sideAt (.sub .nv12)) 3 1 = 0x1FFF ∧
      vAddr .yv12 (sideAt (.sub .yv12)) 3 1 = 0x1FFB ∧ uAddr .yv12 (sideAt (.sub .yv12)) 3 1 = 0x3007 := by decide

/-- R178, by hand: byte 2 of pixel (3, 1) of RGB, component 1 of pixel (3, 1) of RGB_PLANAR. -/
theorem witness_PixelBytesAreThoseOfTheSpec :
    (FullFmt.rgb, 3) ∈ packedSizes ∧ (sideAt (.full .rgb)).fmt = .full .rgb ∧
      pixelByteAddr .rgb (sideAt (.full .rgb)) 3 1 2 = 0x101B ∧
      FullFmt.rgbPlanar ∈ [FullFmt.rgbaPlanar, .rgbaPlanarPa, .rgbPlanar] ∧ FullFmt.rgbaPlanar ≠ .rgbPlanar ∧
      pixelByteAddr .rgbPlanar (sideAt (.full .rgbPlanar)) 3 1 1 = 0x1FFB := by decide

theorem witness_PlaneGeometryIsTheTable :
    FullFmt.abgrPa ∈ [FullFmt.rgba, .bgra, .argb, .abgr, .rgbaPa, .bgraPa, .argbPa, .abgrPa] ∧
      FullFmt.yuv444 ∈ [FullFmt.rgb, .bgr, .yuv444] ∧ (2 : Fin 4).val < 3 ∧ ¬(3 : Fin 4).val < 3 ∧
      SubFmt.nv12 ∈ [SubFmt.nv21, .nv12] := by decide

theorem witness_RecognitionIsTheTable :
    ((0x21080CB3#32, Fmt.sub .nv12) : BitVec 32 × Fmt) ∈ identTable ∧ 0x18202001#32 ∈ identTable.map Prod.fst := by
  decide

/-- One RGBA pixel onto itself. -/
def aliased : State := machine 1 1 (tight 0x18202001 0x1000) (tight 0x18202001 0x1003) []

/-- Two RGBA rows stored three bytes apart. -/
def crowded : State := machine 1 2 (tight 0x18202001 0x1000) (desc 0x18202001 0x2000 0 0 0 3 0 0 0) []

/-- A gray row below address 0. -/
def offTheEdge : State := machine 1 2 (tight 0x10080820 0x1000) (desc 0x10080820 0 0 0 0 0xFFFFFFFF 0 0 0) []

theorem witness_BrokenFootprintContractIsRefused :
    (∃ j, conversionOf (.conv2d .none) aliased = some (.none, 1) ∧ jobOf aliased.operands 1 .none = some j ∧ ∃ a, rowsHold j.srcRows a = true ∧ rowsHold j.dstRows a = true) ∧
      ∃ j, conversionOf (.conv2d .none) crowded = some (.none, 2) ∧ jobOf crowded.operands 2 .none = some j ∧
        (∀ a, ¬(rowsHold j.srcRows a = true ∧ rowsHold j.dstRows a = true)) ∧
        ¬(j.dstRows.Pairwise fun r q => ∀ a, ¬(r.holds a = true ∧ q.holds a = true)) := by
  refine ⟨⟨_, rfl, rfl, 0x1003, by decide, by decide⟩, ⟨_, rfl, rfl, ?_, ?_⟩⟩
  · exact rowsDisjoint_iff.1 (by decide)
  · rw [← rowsPairwiseDisjoint_iff]
    decide

theorem witness_UnadmittedAccessNeverCompletes :
    (∃ j, conversionOf (.conv2d .none) offTheEdge = some (.none, 2) ∧ jobOf offTheEdge.operands 2 .none = some j ∧
      (∀ a, ¬(rowsHold j.srcRows a = true ∧ rowsHold j.dstRows a = true)) ∧
        (j.dstRows.Pairwise fun r q => ∀ a, ¬(r.holds a = true ∧ q.holds a = true)) ∧
          ∃ a, rowsHold j.dstRows a = true ∧ offTheEdge.platform.admitsWrite a = false) ∧
      mapped.platform.admitsRead 0x40FF = false ∧ mapped.platform.admitsRead 0x4100 = true := by
  refine ⟨⟨_, rfl, rfl, rowsDisjoint_iff.1 (by decide), rowsPairwiseDisjoint_iff.1 (by decide), -1,
    by decide, by decide⟩, ?_⟩
  decide

/-- Readiness from the machine's own checks. -/
theorem ready_of_checks {i : Instr} {s : State} {j : Job} {mode : AlphaMode} {h : Nat}
    (hc : conversionOf i s = some (mode, h)) (hj : jobOf s.operands h mode = some j) (h1 : j.footprintsDisjoint = true)
    (h2 : j.dstRowsDisjoint = true) (h3 : j.admitted s.platform = true) : Ready i s j :=
  ready_iff.2 ⟨⟨mode, h, hc, hj⟩, h1, h2, h3⟩

theorem witness_CopyMovesEveryByte :
    ∃ j, paddedCopy.mem.wf ∧ Ready (.conv2d .none) paddedCopy j ∧ j.src.fmt = .full .rgb ∧ j.dst.fmt = .full .rgb ∧
      j.aop = .plain :=
  ⟨_, by decide, ready_of_checks rfl rfl (by decide) (by decide) (by decide), rfl, rfl, rfl⟩

theorem witness_TranscodeStoresEveryPixel :
    ∃ j, grayRow.mem.wf ∧ Ready (.conv1d .none) grayRow j ∧ j.src.fmt = .full .rgba ∧ j.dst.fmt = .full .gray8 ∧
      ¬(FullFmt.rgba = .gray8 ∧ j.aop = .plain) :=
  ⟨_, by decide, ready_of_checks rfl rfl (by decide) (by decide) (by decide), rfl, rfl, by decide⟩

theorem witness_SubsampleStoresLumaAndMeans :
    ∃ j, cameraFrame.mem.wf ∧ Ready (.conv2d .none) cameraFrame j ∧ j.src.fmt = .full .bgra ∧ j.dst.fmt = .sub .nv12 :=
  ⟨_, by decide, ready_of_checks rfl rfl (by decide) (by decide) (by decide), rfl, rfl⟩

/-- T41: I420 to YUV444. -/
def upsampling : State :=
  machine 2 2 (desc 0x22080CB0 0x2000 0x2004 0x2005 0 0 0 0 0) (tight 0x20181881 0x3000)
    (load [] 0x2000 [0x10, 0x20, 0x30, 0x40, 0x19, 0xFF])

theorem test_conv2d_upsample :
    look (exec (.conv2d .none) upsampling) (fun t => dump t.mem 0x3000 12) =
      some [0x10, 0x19, 0xFF, 0x20, 0x19, 0xFF, 0x30, 0x19, 0xFF, 0x40, 0x19, 0xFF] := by decide

theorem witness_UpsampleDuplicatesChroma :
    ∃ j, upsampling.mem.wf ∧ Ready (.conv2d .none) upsampling j ∧ j.src.fmt = .sub .i420 ∧ j.dst.fmt = .full .yuv444 :=
  ⟨_, by decide, ready_of_checks rfl rfl (by decide) (by decide) (by decide), rfl, rfl⟩

/-- T42, first link: I420 to NV21. -/
def reshuffling : State :=
  machine 4 2 (desc 0x22080CB0 0x1000 0x1008 0x100A 0 0 0 0 0) (desc 0x21080CB2 0x2000 0x2008 0 0 0 0 0 0)
    (load [] 0x1000 [0x10, 0x20, 0x30, 0x40, 0x50, 0x60, 0x70, 0x80, 0xA1, 0xA2, 0xB1, 0xB2])

theorem test_conv2d_reshuffle :
    look (exec (.conv2d .none) reshuffling) (fun t => dump t.mem 0x2000 12) =
      some [0x10, 0x20, 0x30, 0x40, 0x50, 0x60, 0x70, 0x80, 0xB1, 0xA1, 0xB2, 0xA2] := by decide

theorem witness_ReshuffleCopiesEverySample :
    ∃ j, reshuffling.mem.wf ∧ Ready (.conv2d .none) reshuffling j ∧ j.src.fmt = .sub .i420 ∧ j.dst.fmt = .sub .nv21 :=
  ⟨_, by decide, ready_of_checks rfl rfl (by decide) (by decide) (by decide), rfl, rfl⟩

theorem witness_AdmittedCommandCompletes :
    grayRowBusy.busy = true ∧ (grayRowBusy.schedule = [] ∨ ∃ rest, grayRowBusy.schedule = .engine :: rest) ∧
      ((next grayRowBusy .engine).schedule = [] ∨ ∃ rest, (next grayRowBusy .engine).schedule = .engine :: rest) ∧
      decode grayRowBusy.cmd = .ok (.conv1d .none) ∧ decode (State.reset.accept 0x22).cmd = .error (.reservedOp 0x22) ∧
      (∀ mode h j, conversionOf (.conv1d .none) grayRowBusy = some (mode, h) →
        jobOf grayRowBusy.operands h mode = some j → Contract grayRowBusy j) := by
  refine ⟨by decide, .inl rfl, .inr ⟨_, rfl⟩, by decide, by decide, ?_⟩
  intro mode h j hc hj
  obtain ⟨rfl, rfl⟩ := Prod.mk.inj (Option.some.inj hc)
  obtain rfl := Option.some.inj hj
  exact contract_iff.2 ⟨by decide, by decide, by decide⟩

theorem witness_ConversionWritesOnlyItsFootprint :
    conversionOf (.conv1d .none) grayRow = some (.none, 1) ∧ (jobOf grayRow.operands 1 .none).isSome = true ∧
      look (exec (.conv1d .none) grayRow) State.status = some 2#2 := by decide

theorem witness_IdentityConversionIsVerbatim :
    ∃ j, paddedCopy.mem.wf ∧ Ready (.conv2d .none) paddedCopy j ∧
      conversionOf (.conv2d .none) paddedCopy = some (.none, 2) ∧ j.src.fmt = j.dst.fmt :=
  ⟨_, by decide, ready_of_checks rfl rfl (by decide) (by decide) (by decide), rfl, rfl⟩

/-- `grayRow` with another byte outside its source footprint. -/
def grayRowStained : State := { grayRow with mem := grayRow.mem.write 0x3000 9 }

theorem witness_ConversionIsFunctionOfSourceFootprint :
    ∃ j, grayRow.mem.wf ∧ grayRowStained.mem.wf ∧ Ready (.conv1d .none) grayRow j ∧
      grayRowStained.operands = grayRow.operands ∧ grayRowStained.platform = grayRow.platform ∧
      ∀ a : Int, rowsHold j.srcRows a = true → grayRowStained.mem.readAt a = grayRow.mem.readAt a := by
  refine ⟨_, by decide, by decide, ready_of_checks rfl rfl (by decide) (by decide) (by decide), rfl, rfl, ?_⟩
  intro a ha
  refine Memory.read_write_ne _ _ ?_
  obtain ⟨r, hr, hra⟩ := rowsHold_iff.1 ha
  rw [Row.holds_iff] at hra
  change r ∈ ([{ start := 0x1000, len := 8 }] : List Row) at hr
  obtain rfl := List.mem_singleton.1 hr
  dsimp only at hra
  omega

/-- `grayRow` with other values in the slots its formats do not have. -/
def grayRowSlots : State :=
  { grayRow with
    src := desc 0x18202001 0x1000 1 2 3 0 4 5 6
    dst := desc 0x10080820 0x2000 7 8 9 0 10 11 12 }

theorem witness_UnusedPlaneSlotsAreIgnored :
    conversionOf (.conv1d .none) grayRow = some (.none, 1) ∧ recognise grayRow.src.fmt = some (.full .rgba) ∧
      recognise grayRow.dst.fmt = some (.full .gray8) ∧ grayRowSlots.cmd = grayRow.cmd ∧
      grayRowSlots.width = grayRow.width ∧ grayRowSlots.height = grayRow.height ∧
      grayRowSlots.src.fmt = grayRow.src.fmt ∧ grayRowSlots.dst.fmt = grayRow.dst.fmt ∧
      grayRowSlots.mem = grayRow.mem ∧ grayRowSlots.platform = grayRow.platform ∧
      (∀ k : Fin 4, k.val < (Fmt.full .rgba).planes →
        grayRowSlots.src.ptr.get k = grayRow.src.ptr.get k ∧
          grayRowSlots.src.stride.get k = grayRow.src.stride.get k) ∧
      ∀ k : Fin 4, k.val < (Fmt.full .gray8).planes →
        grayRowSlots.dst.ptr.get k = grayRow.dst.ptr.get k ∧
          grayRowSlots.dst.stride.get k = grayRow.dst.stride.get k := by decide

theorem witness_ExclusivityContractIsEnforced :
    (∃ j, grayRowBusy.operands ∈ grayRowBusy.window ∧ commandJob grayRowBusy.operands = some j ∧
      grayRowBusy.platform.isMemory 0x2001 = true ∧ rowsHold j.dstRows 0x2001 = true ∧
      rowsHold j.srcRows 0x1007 = true) ∧
      grayRow.window = [] ∧ grayRow.mem.wf ∧ grayRow.platform.isMemory 0x2002 = true := by
  refine ⟨⟨_, by decide, rfl, by decide, by decide, by decide⟩, by decide⟩

theorem witness_ResetZeroesEveryRegister : (next grayRowBusy .reset).schedule = .reset :: [] := rfl

theorem witness_ResetFreesExactlyTheDestination :
    (next grayRow .reset).schedule = .reset :: [] ∧ grayRow.busy = false ∧
      commandJob State.reset.operands = none ∧
      ∃ j, grayRowBusy.mem.wf ∧ grayRowBusy.busy = true ∧ commandJob grayRowBusy.operands = some j ∧
        rowsHold j.dstRows (0x2001 : Nat) = true ∧ grayRowBusy.platform.namesByte (0x2001 : Nat) = true ∧
        rowsHold j.dstRows (0x2002 : Nat) = false :=
  ⟨rfl, by decide, rfl, _, by decide, by decide, rfl, by decide, by decide, by decide⟩

/-- R291: `DstFoot` is any value after a reset also where the host withdrew its memory after the acceptance (R300). -/
theorem test_reset_frees_withdrawn_memory :
    look (step (next grayRowBusy (.unmap 0))) State.abandonedAddrs = some [0x2000, 0x2001] := by decide

/-- Two regions that overlap: the first may be read and written, the second only read. -/
def twoRegions : State :=
  { State.reset with
    platform :=
      { Platform.standard with
        regions :=
          [{ base := 0, size := 0x2000, readable := true, writable := true },
            { base := 0x1000, size := 0x2000, readable := true, writable := false }] } }

theorem witness_UnmapWithdrawsARegion :
    (next twoRegions (.unmap 0)).schedule = .unmap 0 :: [] ∧
      look (step (next twoRegions (.unmap 0)))
          (fun t => [0xFFF, 0x1000, 0x1FFF, 0x2000].map fun a => (t.platform.admitsRead a, t.platform.admitsWrite a)) =
        some [(false, false), (true, false), (true, false), (true, false)] ∧
      look (step (next twoRegions (.unmap 2))) (fun t => t.platform.regions.length) = some 2 := by decide

theorem witness_TightSizeIsSumOfPlaneBytes :
    640 % 2 = 0 ∧ 480 % 2 = 0 ∧ tightSize (.sub .nv12) 640 480 = 460800 := by decide

theorem witness_CodecRoundTrip : FullFmt.gray8 ≠ .yuv444 ∧ FullFmt.rgb565le ≠ .yuv444 := by decide

theorem witness_ChannelsStandInTheirBytes :
    FullFmt.rgbaPlanarPa ∈ [FullFmt.rgba, .rgbaPa, .rgbaPlanar, .rgbaPlanarPa] ∧ FullFmt.bgraPa ∈ [FullFmt.bgra, .bgraPa] ∧
      FullFmt.argbPa ∈ [FullFmt.argb, .argbPa] ∧ FullFmt.abgr ∈ [FullFmt.abgr, .abgrPa] ∧
      FullFmt.rgbPlanar ∈ [FullFmt.rgb, .rgbPlanar] := by decide

theorem witness_alpha_values : ({ r := 1, g := 2, b := 3, a := 255 } : Color).a = 255 ∧ 1 ≤ (1 : Byte).toNat := by decide

end Sys2Proof.Tests
end

section
/-! PROOF. The step keeps the invariant (O13): what a command that completes leaves behind, then one rule per operation of
the engine, the host, another agent and the platform. -/

namespace Sys2Proof.Machine

/-! ### What each access does when it is answered, what a pointer register keeps, what a query answers -/

@[simp] theorem State.regRead_window (s : State) (n : Fin 32) :
    (s.regRead n).window = if regOfNumber n = .status ∧ s.done = true then [] else s.window := by
  unfold State.regRead; dsimp only; split <;> rfl

@[simp] theorem State.regRead_operands (s : State) (n : Fin 32) : (s.regRead n).operands = s.operands := by
  unfold State.regRead; dsimp only; split <;> rfl

@[simp] theorem State.regRead_busy (s : State) (n : Fin 32) : (s.regRead n).busy = s.busy := by
  unfold State.busy; rw [State.regRead_status]

/-- A bus read that is answered is the read of some register (10_state R33). -/
theorem State.busRead_next {s t : State} {addr size : Nat} (h : s.busRead addr size = .next t) :
    ∃ n, t = s.regRead n := by
  unfold State.busRead at h
  split at h
  next n _ => exact ⟨n, (Host.Outcome.next.inj h).symm⟩
  next => cases h

/-- A bus write that is answered is the write of some register (10_state R33). -/
theorem State.busWrite_next {s t : State} {addr size : Nat} {v : BitVec 64} (h : s.busWrite addr size v = .next t) :
    ∃ n, t = s.regWrite n v := by
  unfold State.busWrite at h
  split at h
  next n _ => exact ⟨n, (Host.Outcome.next.inj h).symm⟩
  next => cases h

/-- Another agent's read that is answered moves nothing but what it returned. -/
theorem State.agentRead_next {s t : State} {a : Nat} (h : s.agentRead a = .next t) :
    t = { s with readData := (s.mem.read a).setWidth 64 } := by
  unfold State.agentRead at h
  split at h
  · split at h
    · cases h
    · exact (Host.Outcome.next.inj h).symm
  · cases h

/-- Another agent's write that is answered stores one byte of memory (20_memory R64, R68). -/
theorem State.agentWrite_next {s t : State} {a : Nat} {v : Byte} (h : s.agentWrite a v = .next t) :
    s.platform.isMemory a = true ∧ t = { s with mem := s.mem.write a v } := by
  unfold State.agentWrite at h
  split at h
  next hm =>
    split at h
    · cases h
    · exact ⟨hm, (Host.Outcome.next.inj h).symm⟩
  next => cases h

theorem isMemory_lt {p : Platform} {a : Nat} (h : p.isMemory a = true) : a < 2 ^ p.aw := by
  simp only [Platform.isMemory, Bool.and_eq_true] at h
  exact (namesByte_bounds h.1).2

theorem pointerBits_lt (aw : Nat) (v : BitVec 64) : (pointerBits aw v).toNat < 2 ^ aw := by
  rw [pointerBits, BitVec.toNat_ofNat]
  exact (Nat.mod_le _ _).trans_lt (Nat.mod_lt _ (Nat.two_pow_pos aw))

/-- A query completes with some answer in `RESULT` (40_format_descriptor R120). -/
theorem exec_of_query {i : Instr} {sel : Sel} (hq : Safety.queryOf i = some sel) (s : State) :
    ∃ v, exec i s = .next (s.completeWith v) := by
  cases i <;> simp only [Safety.queryOf, reduceCtorEq] at hq <;> exact ⟨_, rfl⟩

end Sys2Proof.Machine

namespace Sys2Proof.Safety

open Sys2Proof.Machine

/-! ### What a command that completes leaves behind -/

/-- `Completes i s t`: the four ways command `i` can leave state `s` as `t` (10_state R23, R26, R31; 20_memory R61). -/
inductive Completes (i : Instr) (s : State) : State → Prop
  /-- NOP, or a conversion that is a no-op: nothing but the flags. -/
  | flagsOnly (hk : keepsResult i = true)
      (hn : ∀ mode h, conversionOf i s = some (mode, h) → jobOf s.operands h mode = none) : Completes i s s.complete
  /-- A query, BD.SIZE, or BD.NORM of an unrecognised format: `RESULT` and the flags. -/
  | answered (hk : keepsResult i = false) (v : BitVec 64) : Completes i s (s.completeWith v)
  /-- BD.NORM of a recognised format: the chosen strides, `RESULT` and the flags. -/
  | filled (sel : Sel) (F : Fmt) (hi : i = .bdNorm sel) (hF : recognise (s.descriptor sel).fmt = some F) :
      Completes i s
        ((s.setStrides sel (filledStrides F s.width.toNat (s.descriptor sel).stride)).completeWith
          (BitVec.ofNat 64 (filledCount F s.width.toNat (s.descriptor sel).stride)))
  /-- A conversion whose contract holds: memory and the flags. -/
  | converted (j : Job) (hr : Ready i s j) :
      Completes i s (State.complete { s with mem := j.result s.platform.csc s.mem })

/-- A conversion that answers a state was a no-op or was ready. -/
theorem completes_of_conversion {i : Instr} {s t : State} {mode : AlphaMode} {h : Nat}
    (hc : conversionOf i s = some (mode, h)) (hk : keepsResult i = true) (ht : exec i s = .next t) :
    Completes i s t := by
  rw [exec_of_conversion hc] at ht
  rcases runConversion_next_iff.1 ht with ⟨hn, rfl⟩ | ⟨j, hj, hfoot, hrows, hadm, rfl⟩
  · refine .flagsOnly hk fun mode' h' hc' => ?_
    obtain ⟨rfl, rfl⟩ := Prod.mk.inj (Option.some.inj (hc.symm.trans hc'))
    exact hn
  · exact .converted j (ready_iff.2 ⟨⟨mode, h, hc, hj⟩, hfoot, hrows, hadm⟩)

theorem completes_of_query {i : Instr} {s t : State} {sel : Sel} (hq : queryOf i = some sel)
    (hk : keepsResult i = false) (ht : exec i s = .next t) : Completes i s t := by
  obtain ⟨v, hv⟩ := exec_of_query hq s
  obtain rfl := Host.Outcome.next.inj (hv.symm.trans ht)
  exact .answered hk v

theorem completes_of_bdSize {sel : Sel} {s t : State} (ht : execBdSize sel s = .next t) :
    Completes (.bdSize sel) s t := by
  cases hF : recognise (s.descriptor sel).fmt with
  | none =>
    obtain rfl := Host.Outcome.next.inj ((execBdSize_of_none hF).symm.trans ht)
    exact .answered rfl 0
  | some F =>
    obtain rfl := Host.Outcome.next.inj ((execBdSize_of_some hF).symm.trans ht)
    exact .answered rfl _

theorem completes_of_bdNorm {sel : Sel} {s t : State} (ht : execBdNorm sel s = .next t) :
    Completes (.bdNorm sel) s t := by
  cases hF : recognise (s.descriptor sel).fmt with
  | none =>
    obtain rfl := Host.Outcome.next.inj ((execBdNorm_of_none hF).symm.trans ht)
    exact .answered rfl 0
  | some F =>
    obtain rfl := Host.Outcome.next.inj ((execBdNorm_of_some hF).symm.trans ht)
    exact .filled sel F rfl hF

/-- Everything a command can do when it answers a next state. -/
theorem completes_of_exec {i : Instr} {s t : State} (ht : exec i s = .next t) : Completes i s t := by
  cases i with
  | nop =>
    obtain rfl := Host.Outcome.next.inj ht
    exact .flagsOnly rfl nofun
  | conv1d alpha => exact completes_of_conversion rfl rfl ht
  | conv2d alpha => exact completes_of_conversion rfl rfl ht
  | bdSize sel => exact completes_of_bdSize ht
  | bdNorm sel => exact completes_of_bdNorm ht
  | _ sel => exact completes_of_query (sel := sel) rfl rfl ht

/-! ### The invariant under each operation of the engine -/

/-- A completion keeps the invariant when what ran before it kept the platform and the pointers, and left a memory of
canonical form in the address space; `BUSY` is 0 after it, so the registers are free of what was sampled. -/
theorem Inv.complete {s t : State} (h : Inv s) (hplat : t.platform = s.platform) (hwf : t.mem.wf)
    (hin : t.mem.within s.platform.aw) (hsrc : t.src.ptr = s.src.ptr) (hdst : t.dst.ptr = s.dst.ptr) :
    Inv t.complete where
  platform := hplat ▸ h.platform
  memory := hwf
  space := by simpa only [State.complete_mem, State.complete_platform, hplat] using hin
  status := by rw [State.complete_status]; decide
  srcPointers := by
    simpa only [PointersFit, State.complete_src, State.complete_platform, hplat, hsrc] using h.srcPointers
  dstPointers := by
    simpa only [PointersFit, State.complete_dst, State.complete_platform, hplat, hdst] using h.dstPointers
  sampled := by simp

/-- A command that completes keeps the invariant. -/
theorem Inv.of_completes {i : Instr} {s t : State} (h : Inv s) (hc : Completes i s t) : Inv t := by
  cases hc with
  | flagsOnly _ _ => exact h.complete rfl h.memory h.space rfl rfl
  | answered _ v => exact h.complete (t := { s with result := v }) rfl h.memory h.space rfl rfl
  | filled sel F _ _ => cases sel <;> exact h.complete rfl h.memory h.space rfl rfl
  | converted j hr =>
    obtain ⟨⟨mode, height, -, hj⟩, -, -, hadm⟩ := ready_iff.1 hr
    exact h.complete rfl (Job.result_wf h.memory j _) (Job.result_within hj hadm _ h.space) rfl rfl

/-- The engine's turn keeps the invariant. -/
theorem Inv.engineTurn {s t : State} (h : Inv s) (ht : engineTurn s = .next t) : Inv t := by
  unfold Machine.engineTurn at ht
  split at ht
  · split at ht
    next i _ => exact h.of_completes (completes_of_exec ht)
    next =>
      obtain rfl := Host.Outcome.next.inj ht
      exact h.complete rfl h.memory h.space rfl rfl
  · exact Host.Outcome.next.inj ht ▸ h

/-! ### The invariant under each access of the host, of another agent and of the platform -/

/-- The model's own fields `schedule` and `readData` play no part in the invariant. -/
theorem Inv.withBookkeeping {s : State} (h : Inv s) (schedule : List Event) (readData : BitVec 64) :
    Inv { s with schedule := schedule, readData := readData } :=
  ⟨h.platform, h.memory, h.space, h.status, h.srcPointers, h.dstPointers, h.sampled⟩

/-- `STATUS` is not 3, so a machine that shows `DONE` is not busy (10_state R25). -/
theorem Inv.idle_of_done {s : State} (h : Inv s) (hd : s.done = true) : s.busy = false :=
  (by decide : ∀ w : BitVec 2, w ≠ 3#2 → w.getLsbD 1 = true → w.getLsbD 0 = false) s.status h.status hd

/-- A register read empties the window only where `DONE` shows, when no command runs (20_memory R73). -/
theorem Inv.regRead {s : State} (h : Inv s) (n : Fin 32) : Inv (s.regRead n) where
  platform := by simpa only [State.regRead_platform] using h.platform
  memory := by simpa only [State.regRead_mem] using h.memory
  space := by simpa only [State.regRead_mem, State.regRead_platform] using h.space
  status := by simpa only [State.regRead_status] using h.status
  srcPointers := by simpa only [State.regRead_src, State.regRead_platform] using h.srcPointers
  dstPointers := by simpa only [State.regRead_dst, State.regRead_platform] using h.dstPointers
  sampled := by
    intro hb
    rw [State.regRead_busy] at hb
    have hrun : ¬(regOfNumber n = .status ∧ s.done = true) := by
      rintro ⟨-, hd⟩
      rw [h.idle_of_done hd] at hb
      cases hb
    rw [State.regRead_window, if_neg hrun, State.regRead_operands]
    exact h.sampled hb

/-- Acceptance samples the operands it leaves in the registers (10_state R26, R42). -/
theorem Inv.accept {s : State} (h : Inv s) (v : BitVec 64) : Inv (s.accept v) where
  platform := h.platform
  memory := h.memory
  space := h.space
  status := by rw [State.accept_status]; decide
  srcPointers := h.srcPointers
  dstPointers := h.dstPointers
  sampled := by simp

/-- A descriptor whose pointer slot `k` took the low `AW` bits of a value (10_state R29). -/
theorem PointersFit.setPtr {aw : Nat} {d : Descriptor} (h : PointersFit aw d) (k : Fin 4) (v : BitVec 64) :
    PointersFit aw { d with ptr := d.ptr.set k (pointerBits aw v) } := by
  intro l
  by_cases hl : l = k
  · rw [hl, quad_get_set_same]
    exact pointerBits_lt aw v
  · rw [quad_get_set_ne _ _ hl]
    exact h l

/-- While idle the operand registers may change, as long as the pointers fit. -/
theorem Inv.withOperands {s : State} (h : Inv s) (hb : s.busy = false) {src dst : Descriptor}
    (hsrc : PointersFit s.platform.aw src) (hdst : PointersFit s.platform.aw dst) (width height : BitVec 32) :
    Inv { s with width := width, height := height, src := src, dst := dst } :=
  ⟨h.platform, h.memory, h.space, h.status, hsrc, hdst, fun hrun => absurd (hb.symm.trans hrun) Bool.false_ne_true⟩

/-- A write to a register of an idle engine keeps the invariant, whatever the register (10_state R22, R32). -/
theorem Inv.writeIdle {s : State} (h : Inv s) (hb : s.busy = false) (r : Reg) (v : BitVec 64) :
    Inv (s.writeIdle r v) := by
  cases r with
  | cmd => exact h.accept v
  | status | result | reserved => exact h
  | width | height | srcFmt | dstFmt | srcStride k | dstStride k =>
    refine h.withOperands hb ?_ ?_ _ _
    exacts [h.srcPointers, h.dstPointers]
  | srcPtr k => exact h.withOperands hb (h.srcPointers.setPtr k v) h.dstPointers _ _
  | dstPtr k => exact h.withOperands hb h.srcPointers (h.dstPointers.setPtr k v) _ _

theorem Inv.regWrite {s : State} (h : Inv s) (n : Fin 32) (v : BitVec 64) : Inv (s.regWrite n v) := by
  unfold State.regWrite
  split
  · exact h
  next hb => exact h.writeIdle (Bool.eq_false_iff.2 hb) _ v

/-- A byte stored at an address of memory keeps the canonical form and the address bound (20_memory R60). -/
theorem Inv.writeByte {s : State} (h : Inv s) {a : Nat} (ha : a < 2 ^ s.platform.aw) (v : Byte) :
    Inv { s with mem := s.mem.write a v } :=
  ⟨h.platform, Memory.write_wf h.memory a v, Memory.write_within h.space ha v, h.status, h.srcPointers, h.dstPointers,
    h.sampled⟩

theorem pointersFit_zero (aw : Nat) : PointersFit aw Descriptor.zero := by
  intro k
  have hzero : (Descriptor.zero.ptr.get k).toNat = 0 := by fin_cases k <;> rfl
  exact hzero ▸ Nat.two_pow_pos aw

/-- A reset in any state that meets the invariant (70_reset_and_hazards R290, R291). -/
theorem Inv.hardReset {s : State} (h : Inv s) : Inv s.hardReset where
  platform := h.platform
  memory := State.memAfterReset_wf h.memory
  space := State.memAfterReset_within h.space
  status := by rw [State.hardReset_status]; decide
  srcPointers := pointersFit_zero _
  dstPointers := pointersFit_zero _
  sampled := by simp

/-- A withdrawal of memory moves neither `AW` nor `REG_BASE` (70_reset_and_hazards R300). -/
theorem Inv.unmap {s : State} (h : Inv s) (i : Nat) : Inv (s.unmap i) :=
  ⟨h.platform, h.memory, h.space, h.status, h.srcPointers, h.dstPointers, h.sampled⟩

/-! ### The step -/

/-- Every event keeps the invariant. -/
theorem Inv.runEvent {e : Event} {s t : State} (h : Inv s) (ht : runEvent e s = .next t) : Inv t := by
  cases e with
  | engine => exact h.engineTurn ht
  | regRead n => exact Host.Outcome.next.inj ht ▸ h.regRead n
  | regWrite n v => exact Host.Outcome.next.inj ht ▸ h.regWrite n v
  | busRead addr size =>
    obtain ⟨n, rfl⟩ := State.busRead_next ht
    exact h.regRead n
  | busWrite addr size v =>
    obtain ⟨n, rfl⟩ := State.busWrite_next ht
    exact h.regWrite n v
  | memRead addr =>
    obtain rfl := State.agentRead_next ht
    exact h.withBookkeeping _ _
  | memWrite addr v =>
    obtain ⟨hm, rfl⟩ := State.agentWrite_next ht
    exact h.writeByte (isMemory_lt hm) v
  | reset => exact Host.Outcome.next.inj ht ▸ h.hardReset
  | unmap i => exact Host.Outcome.next.inj ht ▸ h.unmap i

/-- Settles O13: the event is taken off the schedule, which the invariant does not mention, and each event keeps it. -/
theorem stepKeepsInvariant : Obligations.StepKeepsInvariant := by
  intro s t h ht
  cases hs : s.schedule with
  | nil => exact h.engineTurn ((step_of_nil hs).symm.trans ht)
  | cons e rest => exact (h.withBookkeeping rest s.readData).runEvent ((step_of_cons hs).symm.trans ht)

end Sys2Proof.Safety
end

section
/-! PROOF. The register file and the command protocol (O4 to O10, O14, O30): one rule for what each access does to a
register's slot, then the event that makes the access. -/

namespace Sys2Proof.Machine

/-! ### Registers by name (10_state R22) -/

/-- The width of a register, by its name: `Safety.registerWidth` without the numbers (10_state R22). -/
def Reg.bits (aw : Nat) : Reg → Nat
  | .cmd => 11
  | .status => 2
  | .result => 64
  | .width | .height | .srcFmt | .dstFmt => 32
  | .srcPtr _ | .dstPtr _ => aw
  | .srcStride _ | .dstStride _ => 32
  | .reserved => 0

/-- Whether a register is `rw` and not `CMD`, by its name: `Safety.hostWritable` without the numbers (10_state R22). -/
def Reg.hostWritable : Reg → Bool
  | .cmd | .status | .result | .reserved => false
  | .width | .height | .srcFmt | .dstFmt => true
  | .srcPtr _ | .dstPtr _ | .srcStride _ | .dstStride _ => true

theorem registerWidth_eq (aw : Nat) (n : Fin 32) : Safety.registerWidth aw n = (regOfNumber n).bits aw := by
  fin_cases n <;> rfl

theorem hostWritable_eq (n : Fin 32) : Safety.hostWritable n = (regOfNumber n).hostWritable := by
  fin_cases n <;> rfl

theorem regOfNumber_eq_cmd_iff {n : Fin 32} : regOfNumber n = .cmd ↔ n.val = 0 := by
  revert n; decide

theorem regOfNumber_eq_status_iff {n : Fin 32} : regOfNumber n = .status ↔ n.val = 1 := by
  revert n; decide

/-- Only the reserved register has more than one number. -/
theorem regOfNumber_eq_reserved_of_ne {m n : Fin 32} (hne : m ≠ n) (h : regOfNumber m = regOfNumber n) :
    regOfNumber n = .reserved := by
  revert m n; decide

theorem toNat_pointerBits (aw : Nat) (v : BitVec 64) : (pointerBits aw v).toNat = v.toNat % 2 ^ aw := by
  rw [pointerBits, BitVec.toNat_ofNat]
  exact Nat.mod_eq_of_lt ((Nat.mod_le _ _).trans_lt v.isLt)

/-- Zero extension adds no value. -/
theorem toNat_setWidth_lt {w : Nat} (x : BitVec w) (n : Nat) : (x.setWidth n).toNat < 2 ^ w := by
  rw [BitVec.toNat_setWidth]
  exact (Nat.mod_le _ _).trans_lt x.isLt

/-! ### What each access does to the slots -/

theorem State.slot_writeIdle_same (s : State) {r : Reg} (hw : r.hostWritable = true) (v : BitVec 64) :
    ((s.writeIdle r v).slot r).toNat = v.toNat % 2 ^ r.bits s.platform.aw := by
  cases r with
  | cmd | status | result | reserved => cases hw
  | width | height | srcFmt | dstFmt => simp [State.writeIdle, State.slot, Reg.bits]; omega
  | srcPtr k | dstPtr k => simp [State.writeIdle, State.slot, Reg.bits, toNat_pointerBits]
  | srcStride k | dstStride k => simp [State.writeIdle, State.slot, Reg.bits]; omega

theorem State.writeIdle_of_not_hostWritable (s : State) {r : Reg} (hr : r ≠ .cmd) (hw : r.hostWritable = false)
    (v : BitVec 64) : s.writeIdle r v = s := by
  cases r with
  | cmd => exact absurd rfl hr
  | status | result | reserved => rfl
  | _ => cases hw

theorem State.slot_writeIdle_ne (s : State) {r q : Reg} (hr : r ≠ .cmd) (hq : q ≠ r) (v : BitVec 64) :
    (s.writeIdle r v).slot q = s.slot q := by
  cases r with
  | cmd => exact absurd rfl hr
  | status | result | reserved => rfl
  | _ => cases q <;> simp_all [State.writeIdle, State.slot]

theorem State.writeIdle_frame (s : State) {r : Reg} (hr : r ≠ .cmd) (v : BitVec 64) :
    (s.writeIdle r v).mem = s.mem ∧ (s.writeIdle r v).window = s.window ∧ (s.writeIdle r v).schedule = s.schedule ∧
      (s.writeIdle r v).readData = s.readData ∧ (s.writeIdle r v).platform = s.platform := by
  cases r with
  | cmd => exact absurd rfl hr
  | _ => exact ⟨rfl, rfl, rfl, rfl, rfl⟩

theorem State.slot_accept_ne (s : State) {q : Reg} (hc : q ≠ .cmd) (hs : q ≠ .status) (v : BitVec 64) :
    (s.accept v).slot q = s.slot q := by
  cases q with
  | cmd => exact absurd rfl hc
  | status => exact absurd rfl hs
  | _ => rfl

theorem State.slot_regRead (s : State) (n : Fin 32) (q : Reg) : (s.regRead n).slot q = s.slot q := by
  cases q <;> simp [State.slot]

/-! ### The events of the register file -/

/-- A host write to an idle engine is the idle write of the register its number names (10_state R32). -/
theorem step_regWrite_idle {s : State} {n : Fin 32} {v : BitVec 64} {rest : List Event} (hb : s.busy = false)
    (hs : s.schedule = .regWrite n v :: rest) :
    step s = .next (State.writeIdle { s with schedule := rest } (regOfNumber n) v) := by
  have hidle : ¬State.busy { s with schedule := rest } = true := Bool.eq_false_iff.1 hb
  rw [step_of_cons hs]
  exact congrArg Host.Outcome.next (if_neg hidle)

/-- Settles O5: a number with no writable register moves nothing; a writable one takes its low bits, and every other slot
stays, for a number that names the same register names a reserved one. -/
theorem idleRegisterWriteStoresLowBits : Obligations.IdleRegisterWriteStoresLowBits := by
  intro s n v rest hb hn hs
  have hcmd : regOfNumber n ≠ .cmd := fun e => hn (regOfNumber_eq_cmd_iff.1 e)
  obtain ⟨hmem, hwindow, hschedule, hread, hplatform⟩ :=
    State.writeIdle_frame { s with schedule := rest } hcmd v
  refine ⟨_, step_regWrite_idle hb hs, hschedule, ?_, fun m hm => ?_, hmem, hwindow, hread, hplatform⟩
  · rw [hostWritable_eq, registerWidth_eq]
    split
    next hw => exact State.slot_writeIdle_same _ hw v
    next hw => rw [State.writeIdle_of_not_hostWritable _ hcmd (Bool.eq_false_iff.2 hw)]; rfl
  · by_cases he : regOfNumber m = regOfNumber n
    · rw [regOfNumber_eq_reserved_of_ne hm he]; rfl
    · exact State.slot_writeIdle_ne _ hcmd he v

/-- Settles O6: a slot is the zero extension of the bits its register holds, and the invariant bounds the pointers. -/
theorem bitsAboveRegisterWidthReadZero : Obligations.BitsAboveRegisterWidthReadZero := by
  intro s n h
  rw [registerWidth_eq]
  cases regOfNumber n with
  | srcPtr k => exact h.srcPointers k
  | dstPtr k => exact h.dstPointers k
  | reserved => exact Nat.one_pos
  | result => exact s.result.isLt
  | _ => exact toNat_setWidth_lt _ _

/-- Settles O7: the write lock of `BUSY`. -/
theorem busyRegisterWriteIsIgnored : Obligations.BusyRegisterWriteIsIgnored := by
  intro s n v rest hb hs
  have hlock : State.busy { s with schedule := rest } = true := hb
  rw [step_of_cons hs]
  exact congrArg Host.Outcome.next (if_pos hlock)

/-- Settles O8: the idle write of register 0 is `State.accept`. -/
theorem idleCommandWriteIsAcceptance : Obligations.IdleCommandWriteIsAcceptance := by
  intro s v rest hb hs
  refine ⟨State.accept { s with schedule := rest } v, step_regWrite_idle hb hs, ?_, State.accept_busy _ v,
    State.accept_done _ v, rfl, fun n hcmd hstatus => ?_, rfl, rfl, rfl⟩
  · simp [commandWord]
  · exact State.slot_accept_ne _ (fun e => hcmd (regOfNumber_eq_cmd_iff.1 e))
      (fun e => hstatus (regOfNumber_eq_status_iff.1 e)) v

/-- Settles O9: the read itself is `State.regRead`, which moves `readData` and the window only. -/
theorem registerReadHasNoSideEffect : Obligations.RegisterReadHasNoSideEffect := by
  intro s n rest hs
  refine ⟨State.regRead { s with schedule := rest } n, step_of_cons hs, State.regRead_readData _ n,
    fun m => State.slot_regRead _ n _, State.regRead_mem _ n, State.regRead_schedule _ n, State.regRead_platform _ n, ?_⟩
  exact (State.regRead_window _ n).trans (if_congr (and_congr_left' regOfNumber_eq_status_iff) rfl rfl)

/-! ### The mapped register region (10_state R33) -/

theorem registerAt_aligned {p : Platform} {base : Nat} (hp : p.regBase = some base) (n : Fin 32) :
    Platform.registerAt p (base + 8 * n.val) 8 = .ok n := by
  have hin : base ≤ base + 8 * n.val ∧ base + 8 * n.val < base + 256 := by omega
  have hshape : (base + 8 * n.val - base) % 8 = 0 := by omega
  have hnumber : (base + 8 * n.val - base) / 8 = n.val := by omega
  simp only [Platform.registerAt, hp, dif_pos hin, hshape, hnumber, and_self, if_true]

theorem registerAt_misshapen {p : Platform} {base addr size : Nat} (hp : p.regBase = some base)
    (hin : base ≤ addr ∧ addr < base + 256) (hshape : ¬(size = 8 ∧ (addr - base) % 8 = 0)) :
    Platform.registerAt p addr size = .error .registerAccessShape := by
  simp only [Platform.registerAt, hp, dif_pos hin, if_neg hshape]

theorem registerAt_elsewhere {p : Platform} {addr size : Nat}
    (hout : ∀ base, p.regBase = some base → ¬(base ≤ addr ∧ addr < base + 256)) :
    Platform.registerAt p addr size = .error .noRegisterThere := by
  cases hp : p.regBase with
  | none => simp only [Platform.registerAt, hp]
  | some base => simp only [Platform.registerAt, hp, dif_neg (hout base hp)]

theorem State.busRead_of_ok {s : State} {addr size : Nat} {n : Fin 32}
    (h : Platform.registerAt s.platform addr size = .ok n) :
    s.busRead addr size = .next (s.regRead n) := by
  simp only [State.busRead, h]

theorem State.busWrite_of_ok {s : State} {addr size : Nat} {n : Fin 32}
    (h : Platform.registerAt s.platform addr size = .ok n) (v : BitVec 64) : s.busWrite addr size v = .next (s.regWrite n v) := by
  simp only [State.busWrite, h]

/-- A bus access that reaches no register is refused by the reason `Platform.registerAt` gives. -/
theorem State.bus_of_error {s : State} {addr size : Nat} {r : Refusal}
    (h : Platform.registerAt s.platform addr size = .error r) (v : BitVec 64) : s.busRead addr size = .refused r ∧ s.busWrite addr size v = .refused r := by
  simp only [State.busRead, State.busWrite, h, and_self]

/-- Settles O10: by the three cases of `Platform.registerAt`. -/
theorem mappedRegistersAreWholeAndAligned : Obligations.MappedRegistersAreWholeAndAligned := by
  refine ⟨fun s base n rest hp => ?_, fun s base n v rest hp => ?_, fun s base addr size v rest hp hlo hhi hshape => ?_,
    fun s addr size v rest hout => ?_⟩
  · exact State.busRead_of_ok (s := { s with schedule := rest }) (registerAt_aligned hp n)
  · exact State.busWrite_of_ok (s := { s with schedule := rest }) (registerAt_aligned hp n) v
  · exact State.bus_of_error (s := { s with schedule := rest }) (registerAt_misshapen hp ⟨hlo, hhi⟩ hshape) v
  · exact State.bus_of_error (s := { s with schedule := rest }) (registerAt_elsewhere hout) v

/-! ### The engine's turn (10_state R26; 60_exceptions R283) -/

/-- With nothing scheduled or an engine event next, the step is the engine's turn on the same machine but for the schedule
(log entry 9). -/
theorem step_of_engineNext {s : State} (hs : s.schedule = [] ∨ ∃ rest, s.schedule = .engine :: rest) :
    ∃ schedule, step s = engineTurn { s with schedule := schedule } := by
  obtain hnil | ⟨rest, hcons⟩ := hs
  · exact ⟨s.schedule, step_of_nil hnil⟩
  · exact ⟨rest, step_of_cons hcons⟩

theorem engineTurn_of_error {s : State} {e : DecodeError} (hb : s.busy = true) (he : decode s.cmd = .error e) :
    engineTurn s = .next s.complete := by
  simp only [engineTurn, hb, he, if_true, completeReserved]

theorem decodeTableWord_eq_some_iff {nbits w : Nat} {i : Instr} :
    decodeTableWord nbits w = some i ↔ decodeWritten (BitVec.ofNat 64 (w % 2 ^ nbits)) = .ok i := by
  unfold decodeTableWord
  cases decodeWritten (BitVec.ofNat 64 (w % 2 ^ nbits)) <;> simp

/-- Settles O4: the turn of a busy and of an idle engine; a fetched word is accepted with an engine event next. -/
theorem stepRunsDecodedCommand : Obligations.StepRunsDecodedCommand := by
  refine ⟨fun s i hb hi hs => ?_, fun s i rest hb hi hs => ?_, fun s hb hs => ?_, fun s rest hb hs => ?_,
    fun s nbits w i hw => ?_⟩
  · exact (step_of_nil hs).trans (engineTurn_of_ok hb hi)
  · exact (step_of_cons hs).trans (engineTurn_of_ok (s := { s with schedule := rest }) hb hi)
  · exact (step_of_nil hs).trans (engineTurn_of_idle hb)
  · exact (step_of_cons hs).trans (engineTurn_of_idle (s := { s with schedule := rest }) hb)
  · exact engineTurn_of_ok (s := s.accept (BitVec.ofNat 64 (w % 2 ^ nbits))) (State.accept_busy s _)
      (decodeTableWord_eq_some_iff.1 hw)

/-! ### Reset and the image of a Color -/

/-- Settles O14: no byte is listed, every pointer is 0, and no command is in progress (10_state R44). -/
theorem resetMeetsInvariant : Obligations.ResetMeetsInvariant where
  platform := by decide
  memory := ⟨.nil, nofun⟩
  space := nofun
  status := by decide
  srcPointers := Safety.pointersFit_zero _
  dstPointers := Safety.pointersFit_zero _
  sampled := by decide

/-- Bits put above `n` others weigh `2 ^ n` times as much. -/
theorem toNat_append_eq_add {m n : Nat} (x : BitVec m) (y : BitVec n) :
    (x ++ y).toNat = x.toNat * 2 ^ n + y.toNat := by
  rw [BitVec.toNat_append, ← Nat.shiftLeft_add_eq_or_of_lt y.isLt, Nat.shiftLeft_eq]

theorem colorWord_toNat (c : Color) :
    (colorWord c).toNat = c.b.toNat + c.g.toNat * 2 ^ 8 + c.r.toNat * 2 ^ 16 + c.a.toNat * 2 ^ 24 := by
  simp only [colorWord, toNat_append_eq_add]
  omega

theorem colorWord_injective : Function.Injective colorWord := by
  intro c d h
  have hsum := congrArg BitVec.toNat h
  rw [colorWord_toNat, colorWord_toNat] at hsum
  obtain ⟨r, g, b, a⟩ := c
  obtain ⟨r', g', b', a'⟩ := d
  simp only [Color.mk.injEq, ← BitVec.toNat_inj]
  dsimp only at hsum
  omega

/-- Settles O30: the image as a sum of bytes, from which each byte can be read off. -/
theorem colorWordIsLittleEndianBgra : Obligations.ColorWordIsLittleEndianBgra :=
  ⟨colorWord_toNat, fun _ _ => colorWord_injective.eq_iff⟩

end Sys2Proof.Machine
end

section
/-! PROOF. Commands as a whole (O11, O12, O45, O55): what one that completes leaves alone, when one completes, what it
depends on, and which plane slots a conversion reads. -/

namespace Sys2Proof.Machine

@[simp] theorem State.complete_descriptor (s : State) (sel : Sel) : s.complete.descriptor sel = s.descriptor sel := by
  cases sel <;> rfl

@[simp] theorem State.completeWith_descriptor (s : State) (v : BitVec 64) (sel : Sel) :
    (s.completeWith v).descriptor sel = s.descriptor sel := by
  cases sel <;> rfl

theorem State.setStrides_descriptor_ne (s : State) {sel other : Sel} (h : other ≠ sel) (q : Quad (BitVec 32)) :
    (s.setStrides sel q).descriptor other = s.descriptor other := by
  cases sel with
  | src =>
    cases other with
    | src => exact absurd rfl h
    | dst => rfl
  | dst =>
    cases other with
    | src => rfl
    | dst => exact absurd rfl h

end Sys2Proof.Machine

namespace Sys2Proof.Safety

open Sys2Proof.Machine

/-! ### What a command that completes leaves alone (10_state R23, R25, R26, R31) -/

theorem Completes.sameBut {i : Instr} {s t : State} (h : Completes i s t) : SameBut s t := by
  cases h <;> simp [SameBut]

theorem Completes.status {i : Instr} {s t : State} (h : Completes i s t) : t.status = statusDone := by
  cases h <;> rfl

theorem Completes.result {i : Instr} {s t : State} (h : Completes i s t) (hk : keepsResult i = true) :
    t.result = s.result := by
  cases h with
  | flagsOnly | converted => rfl
  | answered hk' => exact absurd (hk'.symm.trans hk) Bool.false_ne_true
  | filled sel F hi =>
    subst hi
    cases hk

theorem Completes.strides {i : Instr} {s t : State} (h : Completes i s t) {sel : Sel} (hi : i ≠ .bdNorm sel) :
    (t.descriptor sel).stride = (s.descriptor sel).stride := by
  cases h with
  | flagsOnly | answered => simp
  | filled sel' F hi' =>
    have hne : sel ≠ sel' := fun e => hi (e ▸ hi')
    rw [State.completeWith_descriptor, State.setStrides_descriptor_ne s hne]
  | converted => cases sel <;> rfl

theorem Completes.mem {i : Instr} {s t : State} (h : Completes i s t) (hc : conversionOf i s = none) :
    t.mem = s.mem := by
  cases h with
  | flagsOnly | answered => rfl
  | filled => simp
  | converted j hr =>
    obtain ⟨mode, height, hc', -⟩ := hr.job
    exact absurd (hc.symm.trans hc') (by simp)

/-- Settles O11: the frame of each of the four ways a command can complete. -/
theorem commandFrame : Obligations.CommandFrame := by
  intro i s t ht
  have h := completes_of_exec ht
  exact ⟨h.sameBut, h.status, h.result, fun _ => h.strides, h.mem⟩

/-! ### When a command completes (43_converters R238) -/

theorem conversionOf_congr {s u : State} (hh : u.height = s.height) (i : Instr) : conversionOf i u = conversionOf i s := by
  cases i <;> simp only [conversionOf, hh]

/-- A command completes unless it is a conversion with a job whose contract is broken. -/
theorem exec_completes {i : Instr} {s : State}
    (hc : ∀ mode h j, conversionOf i s = some (mode, h) → jobOf s.operands h mode = some j → Contract s j) :
    ∃ t, exec i s = .next t := by
  have hconv : ∀ mode h, conversionOf i s = some (mode, h) → ∃ t, exec i s = .next t := by
    intro mode h hi
    cases hj : jobOf s.operands h mode with
    | none => exact ⟨_, (exec_of_conversion hi).trans (runConversion_of_none hj)⟩
    | some j => exact ⟨_, exec_of_ready ⟨⟨mode, h, hi, hj⟩, hc mode h j hi hj⟩⟩
  cases i with
  | nop => exact ⟨_, rfl⟩
  | conv1d alpha => exact hconv _ _ rfl
  | conv2d alpha => exact hconv _ _ rfl
  | bdSize sel =>
    cases hF : recognise (s.descriptor sel).fmt with
    | none => exact ⟨_, execBdSize_of_none hF⟩
    | some F => exact ⟨_, execBdSize_of_some hF⟩
  | bdNorm sel =>
    cases hF : recognise (s.descriptor sel).fmt with
    | none => exact ⟨_, execBdNorm_of_none hF⟩
    | some F => exact ⟨_, execBdNorm_of_some hF⟩
  | _ sel => exact ⟨_, rfl⟩

/-- Settles O45: the engine's turn is the command on the same machine but for its schedule, which no contract mentions. -/
theorem admittedCommandCompletes : Obligations.AdmittedCommandCompletes := by
  refine ⟨fun s i hb hs hi hc => ?_, fun s e hb hs he => ?_⟩ <;>
    obtain ⟨schedule, hstep⟩ := step_of_engineNext hs
  · have hc' : ∀ mode h j, conversionOf i { s with schedule := schedule } = some (mode, h) →
        jobOf s.operands h mode = some j → Contract { s with schedule := schedule } j := by
      intro mode h j hconv hj
      have hcs := hc mode h j ((conversionOf_congr rfl i).trans hconv) hj
      exact ⟨hcs.disjoint, hcs.rows, hcs.readable, hcs.writable⟩
    obtain ⟨t, ht⟩ := exec_completes hc'
    have hdone := completes_of_exec ht
    have hstatus := hdone.status
    obtain ⟨hcmd, -⟩ := hdone.sameBut
    have hturn := engineTurn_of_ok (s := { s with schedule := schedule }) hb hi
    refine ⟨t, hstep.trans (hturn.trans ht), ?_, ?_, hcmd⟩
    · rw [State.busy, hstatus]; decide
    · rw [State.done, hstatus]; decide
  · have hturn := engineTurn_of_error (s := { s with schedule := schedule }) hb he
    exact ⟨_, hstep.trans hturn, State.complete_busy _, State.complete_done _, rfl⟩

/-! ### Which plane slots a side uses (44_buffer_descriptor R250) -/

/-- Two sides of one format whose pointers and strides agree on the planes the format has. -/
structure SamePlanes (sd sd' : Side) : Prop where
  fmt : sd'.fmt = sd.fmt
  ptr : ∀ k : Fin 4, k.val < sd.fmt.planes → sd'.ptr.get k = sd.ptr.get k
  rs : ∀ k : Fin 4, k.val < sd.fmt.planes → sd'.rs.get k = sd.rs.get k

theorem SamePlanes.refl (sd : Side) : SamePlanes sd sd := ⟨rfl, fun _ _ => rfl, fun _ _ => rfl⟩

theorem pointersOf_get (q : Quad (BitVec 64)) (k : Fin 4) : (pointersOf q).get k = (q.get k).toNat := by
  fin_cases k <;> rfl

theorem stridesOf_get (F : Fmt) (w : Nat) (q : Quad (BitVec 32)) (k : Fin 4) :
    (stridesOf F w q).get k = normStride F k w (q.get k).toInt := by
  fin_cases k <;> rfl

theorem samePlanes_sideOf {F : Fmt} {d d' : Descriptor}
    (h : ∀ k : Fin 4, k.val < F.planes → d'.ptr.get k = d.ptr.get k ∧ d'.stride.get k = d.stride.get k) (w : Nat) :
    SamePlanes (sideOf F d w) (sideOf F d' w) where
  fmt := rfl
  ptr k hk := by simp only [sideOf, pointersOf_get, (h k hk).1]
  rs k hk := by simp only [sideOf, stridesOf_get, (h k hk).2]

theorem planes_pos (F : Fmt) : 0 < F.planes := Nat.succ_pos _

theorem uSite_lt_planes (F : SubFmt) (cx : Nat) : (uSite F cx).1.val < (Fmt.sub F).planes := by
  cases F <;> simp only [uSite] <;> decide

theorem vSite_lt_planes (F : SubFmt) (cx : Nat) : (vSite F cx).1.val < (Fmt.sub F).planes := by
  cases F <;> simp only [vSite] <;> decide

section

variable {sd sd' : Side} (hs : SamePlanes sd sd')
include hs

theorem SamePlanes.byteAddr {k : Fin 4} (hk : k.val < sd.fmt.planes) (y n : Nat) :
    sd'.byteAddr k y n = sd.byteAddr k y n := by
  simp only [Side.byteAddr, hs.ptr k hk, hs.rs k hk]

theorem SamePlanes.rows (w h : Nat) : sd'.rows w h = sd.rows w h := by
  unfold Side.rows
  rw [hs.fmt]
  refine List.flatMap_congr fun k hk => ?_
  rw [hs.ptr k (mem_planeIndices.1 hk), hs.rs k (mem_planeIndices.1 hk)]

/-- The bytes of a pixel stand in the planes of its format (41_pixel_codec R178). -/
theorem SamePlanes.pixelByteAddr {F : FullFmt} (hf : sd.fmt = .full F) (x y : Nat) {i : Nat}
    (hi : i < if F.planar then (Fmt.full F).planes else F.pixelBytes) :
    pixelByteAddr F sd' x y i = pixelByteAddr F sd x y i := by
  have hf' := hs.fmt.trans hf
  cases hpl : F.planar with
  | false =>
    rw [pixelByteAddr_packed hf' hpl, pixelByteAddr_packed hf hpl]
    exact hs.byteAddr (planes_pos _) _ _
  | true =>
    rw [if_pos hpl] at hi
    have hi4 : i < 4 := hi.trans_le (planes_of_planar hpl).1
    rw [pixelByteAddr_planar hf' hpl x y ⟨i, hi4⟩, pixelByteAddr_planar hf hpl x y ⟨i, hi4⟩]
    exact hs.byteAddr (hf ▸ hi) _ _

theorem SamePlanes.storePixelBytes {F : FullFmt} (hf : sd.fmt = .full F) (x y : Nat) {bytes : List Byte}
    (hl : bytes.length = if F.planar then (Fmt.full F).planes else F.pixelBytes) :
    storePixelBytes F sd' x y bytes = storePixelBytes F sd x y bytes := by
  refine List.map_congr_left fun p hp => ?_
  have hi : p.2 < bytes.length := (List.mem_zipIdx' hp).1
  exact congrArg (·, p.1) (hs.pixelByteAddr hf x y (hl ▸ hi))

theorem SamePlanes.dstStore {F : FullFmt} (hf : sd.fmt = .full F) (csc : CscMatrix) (aop : AlphaOp) (x y : Nat)
    (c : Color) : dstStore csc aop F sd' x y c = dstStore csc aop F sd x y c :=
  hs.storePixelBytes hf x y (encodePixel_length _ _ _)

theorem SamePlanes.dstYuv {F : FullFmt} (hf : sd.fmt = .full F) (csc : CscMatrix) (aop : AlphaOp) (x y : Nat)
    (t : Yuv) : dstYuv csc aop F sd' x y t = dstYuv csc aop F sd x y t := by
  rw [dstYuv_eq, dstYuv_eq, hs.storePixelBytes hf x y (upsampledBytes_length _ _ _ _)]

theorem SamePlanes.srcColor {F : FullFmt} (hf : sd.fmt = .full F) (csc : CscMatrix) (rd : Int → Byte) (aop : AlphaOp)
    (x y : Nat) : srcColor csc rd aop F sd' x y = srcColor csc rd aop F sd x y := by
  have hread : readColor csc rd F sd' x y = readColor csc rd F sd x y :=
    decodePixel_congr csc F fun i hi => congrArg rd (hs.pixelByteAddr hf x y hi)
  simp only [Machine.srcColor, hread]

theorem SamePlanes.srcYuv {F : FullFmt} (hf : sd.fmt = .full F) (csc : CscMatrix) (rd : Int → Byte) (aop : AlphaOp)
    (x y : Nat) : srcYuv csc rd aop F sd' x y = srcYuv csc rd aop F sd x y := by
  unfold Machine.srcYuv
  split
  next e =>
    subst e
    have hbyte : ∀ i, i < 3 → Machine.pixelByteAddr .yuv444 sd' x y i = Machine.pixelByteAddr .yuv444 sd x y i :=
      fun _ hi => hs.pixelByteAddr hf x y hi
    simp only [decodeYuv, hbyte 0 (by decide), hbyte 1 (by decide), hbyte 2 (by decide)]
  next => rw [hs.srcColor hf]

theorem SamePlanes.lumaAddr {F : SubFmt} (hf : sd.fmt = .sub F) (x y : Nat) : lumaAddr sd' x y = lumaAddr sd x y := by
  rw [lumaAddr_eq (hs.fmt.trans hf), lumaAddr_eq hf, hs.byteAddr (planes_pos _)]

theorem SamePlanes.uAddr {F : SubFmt} (hf : sd.fmt = .sub F) (cx cy : Nat) : uAddr F sd' cx cy = uAddr F sd cx cy := by
  rw [uAddr_eq (hs.fmt.trans hf), uAddr_eq hf, hs.byteAddr (hf ▸ uSite_lt_planes F cx)]

theorem SamePlanes.vAddr {F : SubFmt} (hf : sd.fmt = .sub F) (cx cy : Nat) : vAddr F sd' cx cy = vAddr F sd cx cy := by
  rw [vAddr_eq (hs.fmt.trans hf), vAddr_eq hf, hs.byteAddr (hf ▸ vSite_lt_planes F cx)]

end

/-! ### Jobs that agree on the planes they have -/

/-- Two jobs that differ in plane slots their formats do not have, and in nothing else. -/
structure SameJob (j j' : Job) : Prop where
  src : SamePlanes j.src j'.src
  dst : SamePlanes j.dst j'.dst
  w : j'.w = j.w
  h : j'.h = j.h
  aop : j'.aop = j.aop

theorem SameJob.refl (j : Job) : SameJob j j := ⟨.refl _, .refl _, rfl, rfl, rfl⟩

section

variable {j j' : Job} (hj : SameJob j j')
include hj

theorem SameJob.srcRows : j'.srcRows = j.srcRows := by
  rw [Job.srcRows, hj.w, hj.h, hj.src.rows, ← Job.srcRows]

theorem SameJob.dstRows : j'.dstRows = j.dstRows := by
  rw [Job.dstRows, hj.w, hj.h, hj.dst.rows, ← Job.dstRows]

theorem SameJob.footprintsDisjoint : j'.footprintsDisjoint = j.footprintsDisjoint := by
  rw [Job.footprintsDisjoint, hj.srcRows, hj.dstRows, ← Job.footprintsDisjoint]

theorem SameJob.dstRowsDisjoint : j'.dstRowsDisjoint = j.dstRowsDisjoint := by
  rw [Job.dstRowsDisjoint, hj.dstRows, ← Job.dstRowsDisjoint]

theorem SameJob.admitted (p : Platform) : j'.admitted p = j.admitted p := by
  rw [Job.admitted, hj.srcRows, hj.dstRows, ← Job.admitted]

theorem SameJob.copyWrites (hp : j.dst.fmt = j.src.fmt) (rd : Int → Byte) : copyWrites rd j' = copyWrites rd j := by
  unfold Machine.copyWrites
  rw [hj.w, hj.h, hj.src.fmt]
  refine List.flatMap_congr fun k hk => ?_
  have hsrc := mem_planeIndices.1 hk
  have hdst : k.val < j.dst.fmt.planes := hp ▸ hsrc
  rw [hj.src.ptr k hsrc, hj.src.rs k hsrc, hj.dst.ptr k hdst, hj.dst.rs k hdst]

/-- The bytes a job stores, and their order, do not depend on slots its formats do not have: path by path (43_converters
R225). -/
theorem SameJob.writes (csc : CscMatrix) (rd : Int → Byte) : j'.writes csc rd = j.writes csc rd := by
  unfold Job.writes
  rw [hj.src.fmt, hj.dst.fmt]
  split
  next F G hF hG =>
    simp only [reshuffleWrites, hj.w, hj.h, hj.src.lumaAddr hF, hj.src.uAddr hF, hj.src.vAddr hF, hj.dst.lumaAddr hG,
      hj.dst.uAddr hG, hj.dst.vAddr hG]
  next F G hF hG =>
    simp only [subsampleWrites, hj.w, hj.h, hj.aop, hj.src.srcYuv hF, hj.dst.lumaAddr hG, hj.dst.uAddr hG,
      hj.dst.vAddr hG]
  next F G hF hG =>
    simp only [upsampleWrites, hj.w, hj.h, hj.aop, hj.src.lumaAddr hF, hj.src.uAddr hF, hj.src.vAddr hF,
      hj.dst.dstYuv hG]
  next F G hF hG =>
    rw [hj.aop]
    split
    next hcopy => exact hj.copyWrites (by rw [hF, hG, hcopy.1]) rd
    next => simp only [transcodeWrites, hj.w, hj.h, hj.aop, hj.src.srcColor hF, hj.dst.dstStore hG]

end

/-! ### Two runs of a conversion -/

/-- Two outcomes, from `s` and from `u`, that complete with the same memory and no other change but the flags, or stop for
the same reason. -/
inductive RunsAlike (s u : State) :
    Host.Outcome State Fault Refusal → Host.Outcome State Fault Refusal → Prop
  | next (m : Memory) :
    RunsAlike s u (.next (State.complete { s with mem := m })) (.next (State.complete { u with mem := m }))
  | fault (r : Fault) : RunsAlike s u (.fault r) (.fault r)
  | refused (r : Refusal) : RunsAlike s u (.refused r) (.refused r)

theorem RunsAlike.sameMemory {s u : State} {o p : Host.Outcome State Fault Refusal} (h : RunsAlike s u o p) :
    SameMemory o p := by
  cases h <;> rfl

theorem RunsAlike.sameOutputs {s u : State} (hin : SameInputs s u) {o p : Host.Outcome State Fault Refusal}
    (h : RunsAlike s u o p) : SameOutputs o p := by
  obtain ⟨hops, hresult, -, -⟩ := hin
  cases h with
  | next m => exact ⟨hops, rfl, hresult, rfl⟩
  | fault | refused => rfl

/-- Conversions of jobs that agree on their planes, on one memory and one platform, run alike. -/
theorem runConversion_alike {s u : State} {h : Nat} {mode : AlphaMode} (hmem : u.mem = s.mem)
    (hplat : u.platform = s.platform)
    (hjobs : Option.Rel SameJob (jobOf s.operands h mode) (jobOf u.operands h mode)) :
    RunsAlike s u (runConversion s h mode) (runConversion u h mode) := by
  unfold Machine.runConversion
  generalize jobOf s.operands h mode = a, jobOf u.operands h mode = b at hjobs
  cases hjobs with
  | none =>
    have hu : State.complete { u with mem := s.mem } = u.complete := by rw [← hmem]
    exact hu ▸ .next s.mem
  | @some j j' hj =>
    have hresult : j'.result u.platform.csc u.mem = j.result s.platform.csc s.mem := by
      rw [hplat, hmem, Job.result, hj.writes, Job.result]
    have hadmitted : j'.admitted u.platform = j.admitted s.platform := by rw [hj.admitted, hplat]
    dsimp only
    rw [hj.footprintsDisjoint, hj.dstRowsDisjoint, hadmitted, hresult]
    split_ifs
    · exact .next _
    · exact .fault _
    · exact .refused _
    · exact .refused _

theorem jobOf_of_recognise {o : Operands} {F G : Fmt} (hF : recognise o.src.fmt = some F)
    (hG : recognise o.dst.fmt = some G) (h : Nat) (mode : AlphaMode) :
    jobOf o h mode =
      if isNoOp o.src.fmt o.dst.fmt o.width.toNat h mode then none
      else
        some
          { src := sideOf F o.src o.width.toNat, dst := sideOf G o.dst o.width.toNat, w := o.width.toNat, h := h
            aop := alphaOp o.src.fmt o.dst.fmt mode } := by
  simp only [jobOf, hF, hG]

/-- Operands that differ in plane slots their formats do not have give the same no-ops, and jobs alike (43_converters
R222). -/
theorem sameJob_jobOf {o o' : Operands} {F G : Fmt} (hF : recognise o.src.fmt = some F)
    (hG : recognise o.dst.fmt = some G) (hwidth : o'.width = o.width) (hsrcFmt : o'.src.fmt = o.src.fmt)
    (hdstFmt : o'.dst.fmt = o.dst.fmt)
    (hsrc : ∀ w, SamePlanes (sideOf F o.src w) (sideOf F o'.src w))
    (hdst : ∀ w, SamePlanes (sideOf G o.dst w) (sideOf G o'.dst w)) (h : Nat) (mode : AlphaMode) :
    Option.Rel SameJob (jobOf o h mode) (jobOf o' h mode) := by
  rw [jobOf_of_recognise hF hG, jobOf_of_recognise (hsrcFmt ▸ hF) (hdstFmt ▸ hG), hwidth, hsrcFmt, hdstFmt]
  split_ifs
  · exact .none
  · exact .some ⟨hsrc _, hdst _, rfl, rfl, rfl⟩

/-- Settles O55: the two states have the same no-ops, and jobs that agree on the planes they have. -/
theorem unusedPlaneSlotsAreIgnored : Obligations.UnusedPlaneSlotsAreIgnored := by
  intro i s u mode h F G hc hF hG _ hwidth hheight hsrcFmt hdstFmt hmem hplat hsrc hdst
  have hcu : conversionOf i u = some (mode, h) := (conversionOf_congr hheight i).trans hc
  have hjobs : Option.Rel SameJob (jobOf s.operands h mode) (jobOf u.operands h mode) :=
    sameJob_jobOf hF hG hwidth hsrcFmt hdstFmt (samePlanes_sideOf hsrc) (samePlanes_sideOf hdst) h mode
  rw [exec_of_conversion hc, exec_of_conversion hcu]
  exact (runConversion_alike hmem hplat hjobs).sameMemory

/-! ### What a command depends on (10_state R42) -/

theorem SameInputs.descriptor {s u : State} (h : SameInputs s u) (sel : Sel) : u.descriptor sel = s.descriptor sel := by
  cases sel
  · exact congrArg Operands.src h.1
  · exact congrArg Operands.dst h.1

theorem SameInputs.width {s u : State} (h : SameInputs s u) : u.width = s.width := congrArg Operands.width h.1

theorem SameInputs.height {s u : State} (h : SameInputs s u) : u.height = s.height := congrArg Operands.height h.1

theorem SameInputs.setStrides {s u : State} (h : SameInputs s u) (sel : Sel) (q : Quad (BitVec 32)) :
    SameInputs (s.setStrides sel q) (u.setStrides sel q) := by
  obtain ⟨hops, hresult, hmem, hplat⟩ := h
  simp only [State.operands, Operands.mk.injEq] at hops
  cases sel <;> simp [SameInputs, State.operands, State.setStrides, hops, hresult, hmem, hplat]

theorem SameInputs.completeWith {s u : State} (h : SameInputs s u) (v : BitVec 64) :
    SameOutputs (.next (s.completeWith v)) (.next (u.completeWith v)) :=
  let ⟨hops, _, hmem, _⟩ := h
  ⟨hops, rfl, rfl, hmem⟩

theorem SameInputs.answerQuery {s u : State} (h : SameInputs s u) (q : BitVec 32 → Nat) (sel : Sel) :
    SameOutputs (answerQuery q sel s) (answerQuery q sel u) := by
  unfold Machine.answerQuery
  rw [h.descriptor]
  exact h.completeWith _

theorem SameInputs.execBdSize {s u : State} (h : SameInputs s u) (sel : Sel) :
    SameOutputs (execBdSize sel s) (execBdSize sel u) := by
  unfold Machine.execBdSize
  rw [h.descriptor, h.width, h.height]
  split <;> exact h.completeWith _

theorem SameInputs.execBdNorm {s u : State} (h : SameInputs s u) (sel : Sel) :
    SameOutputs (execBdNorm sel s) (execBdNorm sel u) := by
  unfold Machine.execBdNorm
  rw [h.descriptor, h.width]
  dsimp only
  split
  · exact h.completeWith _
  · exact (h.setStrides sel _).completeWith _

theorem SameInputs.runConversion {s u : State} (h : SameInputs s u) (height : Nat) (mode : AlphaMode) :
    SameOutputs (runConversion s height mode) (runConversion u height mode) := by
  obtain ⟨hops, -, hmem, hplat⟩ := id h
  refine (runConversion_alike hmem hplat ?_).sameOutputs h
  rw [hops]
  cases jobOf s.operands height mode with
  | none => exact .none
  | some j => exact .some (.refl j)

/-- Settles O12: command by command, each reads the operands, `RESULT`, memory and the platform and nothing else. -/
theorem commandDependsOnInputsOnly : Obligations.CommandDependsOnInputsOnly := by
  intro i s u h
  cases i with
  | nop =>
    obtain ⟨hops, hresult, hmem, -⟩ := h
    exact ⟨hops, rfl, hresult, hmem⟩
  | conv1d alpha => exact h.runConversion 1 alpha
  | conv2d alpha => simpa only [exec, execConv2d, h.height] using h.runConversion s.height.toNat alpha
  | bdSize sel => exact h.execBdSize sel
  | bdNorm sel => exact h.execBdNorm sel
  | fqTwin sel => exact h.answerQuery (fun f => (fmtTwin f).toNat) sel
  | fqRgbeq sel => exact h.answerQuery (fun f => (fmtRgbeq f).toNat) sel
  | _ sel => exact h.answerQuery _ sel

end Sys2Proof.Safety
end

section
/-! PROOF. Conversions and memory (O43, O46, O53, O56): which broken contract is named, what a conversion leaves alone and
what its stores depend on, and the accesses of another agent. -/

namespace Sys2Proof.Machine

/-! ### Which broken contract is named (20_memory R72) -/

/-- Overlapping footprints are named before anything else (log entry 17). -/
theorem runConversion_of_aliased {s : State} {h : Nat} {mode : AlphaMode} {j : Job}
    (hj : jobOf s.operands h mode = some j) (hfoot : j.footprintsDisjoint = false) :
    runConversion s h mode = .refused .aliasedFootprints := by
  simp only [runConversion, hj, hfoot, Bool.false_eq_true, if_false]

/-- Overlapping destination rows are named before an address that is not admitted (log entry 17). -/
theorem runConversion_of_overlappingRows {s : State} {h : Nat} {mode : AlphaMode} {j : Job}
    (hj : jobOf s.operands h mode = some j) (hfoot : j.footprintsDisjoint = true) (hrows : j.dstRowsDisjoint = false) :
    runConversion s h mode = .refused .overlappingDestinationRows := by
  simp only [runConversion, hj, hfoot, hrows, Bool.false_eq_true, if_true, if_false]

/-! ### Whether an address is held against another agent (20_memory R73) -/

/-- A command accepted and not yet observed complete has the address in the footprint `rows` gives for its job. -/
def State.FootprintHeld (s : State) (rows : Job → List Row) (a : Nat) : Prop :=
  ∃ o ∈ s.window, ∃ j, commandJob o = some j ∧ rowsHold (rows j) a = true

theorem State.sourceHeld_iff {s : State} {a : Nat} : s.sourceHeld a = true ↔ s.FootprintHeld Job.srcRows a := by
  simp only [State.sourceHeld, State.FootprintHeld, List.any_eq_true]
  refine exists_congr fun o => and_congr_right fun _ => ?_
  cases commandJob o <;> simp

theorem State.destinationHeld_iff {s : State} {a : Nat} :
    s.destinationHeld a = true ↔ s.FootprintHeld Job.dstRows a := by
  simp only [State.destinationHeld, State.FootprintHeld, List.any_eq_true]
  refine exists_congr fun o => and_congr_right fun _ => ?_
  cases commandJob o <;> simp

theorem State.not_footprintHeld {s : State} {rows : Job → List Row} {a : Nat}
    (hfree : ∀ o ∈ s.window, ∀ j, commandJob o = some j → rowsHold (rows j) a = false) : ¬s.FootprintHeld rows a := by
  rintro ⟨o, ho, j, hj, hheld⟩
  exact Bool.false_ne_true ((hfree o ho j hj).symm.trans hheld)

/-! ### The accesses of another agent to memory, held and free (20_memory R73) -/

section

variable {s : State} {a : Nat} (hm : s.platform.isMemory a = true)
include hm

theorem State.agentRead_of_held (hd : s.FootprintHeld Job.dstRows a) : s.agentRead a = .refused .dataRace := by
  rw [State.agentRead, if_pos hm, if_pos (State.destinationHeld_iff.2 hd)]

theorem State.agentRead_of_free (hd : ¬s.FootprintHeld Job.dstRows a) :
    s.agentRead a = .next { s with readData := (s.mem.read a).setWidth 64 } := by
  rw [State.agentRead, if_pos hm, if_neg (mt State.destinationHeld_iff.1 hd)]

theorem State.agentWrite_of_held (hh : s.FootprintHeld Job.srcRows a ∨ s.FootprintHeld Job.dstRows a) (v : Byte) :
    s.agentWrite a v = .refused .dataRace := by
  have hheld : (s.sourceHeld a || s.destinationHeld a) = true :=
    Bool.or_eq_true_iff.2 (hh.imp State.sourceHeld_iff.2 State.destinationHeld_iff.2)
  rw [State.agentWrite, if_pos hm, if_pos hheld]

theorem State.agentWrite_of_free (hs : ¬s.FootprintHeld Job.srcRows a) (hd : ¬s.FootprintHeld Job.dstRows a) (v : Byte) :
    s.agentWrite a v = .next { s with mem := s.mem.write a v } := by
  have hfree : ¬(s.sourceHeld a || s.destinationHeld a) = true := fun hheld =>
    (Bool.or_eq_true_iff.1 hheld).elim (mt State.sourceHeld_iff.1 hs) (mt State.destinationHeld_iff.1 hd)
  rw [State.agentWrite, if_pos hm, if_neg hfree]

end

theorem step_memRead (s : State) (a : Nat) (rest : List Event) :
    step { s with schedule := .memRead a :: rest } = State.agentRead { s with schedule := rest } a := rfl

theorem step_memWrite (s : State) (a : Nat) (v : Byte) (rest : List Event) :
    step { s with schedule := .memWrite a v :: rest } = State.agentWrite { s with schedule := rest } a v := rfl

/-- Settles O56: a held access is refused, a free one is the read or the store of one byte; the schedule plays no part in
which of the two an access is. -/
theorem exclusivityContractIsEnforced : Obligations.ExclusivityContractIsEnforced := by
  refine ⟨fun s a v o j rest ho hj hm => ⟨fun hdst => ?_, fun hfoot => ?_⟩, fun s a rest hm hfree => ?_,
    fun s a v rest hwf hm hfree => ⟨s.mem.write a v, ?_, Memory.write_wf hwf a v, Memory.read_write_same hwf a v,
      fun b hb => Memory.read_write_ne s.mem v hb⟩⟩
  · rw [step_memRead]
    exact State.agentRead_of_held (s := { s with schedule := rest }) hm ⟨o, ho, j, hj, hdst⟩
  · rw [step_memWrite]
    exact State.agentWrite_of_held (s := { s with schedule := rest }) hm
      (hfoot.imp (⟨o, ho, j, hj, ·⟩) (⟨o, ho, j, hj, ·⟩)) v
  · rw [step_memRead]
    exact State.agentRead_of_free (s := { s with schedule := rest }) hm (State.not_footprintHeld hfree)
  · rw [step_memWrite]
    exact State.agentWrite_of_free (s := { s with schedule := rest }) hm
      (State.not_footprintHeld fun o ho j hj => (hfree o ho j hj).1)
      (State.not_footprintHeld fun o ho j hj => (hfree o ho j hj).2) v

end Sys2Proof.Machine

namespace Sys2Proof.Safety

open Sys2Proof.Machine

/-- Settles O43: the machine's two tests of rows say which addresses are shared. -/
theorem brokenFootprintContractIsRefused : Obligations.BrokenFootprintContractIsRefused := by
  intro i s mode h j hc hj
  rw [exec_of_conversion hc]
  refine ⟨fun ⟨a, ha⟩ => ?_, fun hfoot hrows => ?_⟩
  · refine runConversion_of_aliased hj (Bool.eq_false_iff.2 fun hfoot => ?_)
    exact rowsDisjoint_iff.1 hfoot a ha
  · exact runConversion_of_overlappingRows hj (rowsDisjoint_iff.2 hfoot)
      (Bool.eq_false_iff.2 (mt rowsPairwiseDisjoint_iff.1 hrows))

/-- Settles O46: a conversion with a job that answers a state was admitted, and stores to its destination footprint only. -/
theorem conversionWritesOnlyItsFootprint : Obligations.ConversionWritesOnlyItsFootprint := by
  intro i s t mode h j hc hj ht a ha
  rw [exec_of_conversion hc] at ht
  rcases runConversion_next_iff.1 ht with ⟨hnone, -⟩ | ⟨j', hj', -, -, hadm, rfl⟩
  · cases hnone.symm.trans hj
  · obtain rfl := Option.some.inj (hj'.symm.trans hj)
    exact Job.read_result_of_outside hj hadm s.platform.csc s.mem ha

/-- Whether a conversion is ready, and on which job, is decided by the operands and the platform. -/
theorem Ready.congr {i : Instr} {s u : State} {j : Job} (hr : Ready i s j) (hops : u.operands = s.operands)
    (hplat : u.platform = s.platform) : Ready i u j := by
  obtain ⟨⟨mode, h, hc, hj⟩, hfoot, hrows, hadm⟩ := ready_iff.1 hr
  have hheight : u.height = s.height := congrArg Operands.height hops
  exact ready_iff.2 ⟨⟨mode, h, (conversionOf_congr hheight i).trans hc, hops ▸ hj⟩, hfoot, hrows, hplat ▸ hadm⟩

/-- Settles O53: the two runs store the same bytes, and every byte of the destination footprint is one of them. -/
theorem conversionIsFunctionOfSourceFootprint : Obligations.ConversionIsFunctionOfSourceFootprint := by
  intro i s u j hs hu hr hops hplat hsrc
  have hru := hr.congr hops hplat
  refine ⟨_, _, exec_of_ready hr, exec_of_ready hru, fun a ha => ?_⟩
  have hwrites : j.writes u.platform.csc u.mem.readAt = j.writes s.platform.csc s.mem.readAt := by
    rw [hplat]
    exact j.writes_congr s.platform.csc hsrc
  obtain ⟨mode, h, -, hj⟩ := hr.job
  obtain ⟨v, hv⟩ := Job.exists_write hj s.platform.csc s.mem.readAt ha
  calc (j.result u.platform.csc u.mem).readAt a = v := readAt_of_ready hru hu (hwrites ▸ hv)
    _ = (j.result s.platform.csc s.mem).readAt a := (readAt_of_ready hr hs hv).symm

end Sys2Proof.Safety
end

section
/-! PROOF. Encoding (O1, O2, O3, O21): a command word as its three fields, what a command reads of a written value, which
`OP` values are reserved, and which identifiers are recognised. -/

namespace Sys2Proof

open Machine

/-! ### A command word and its fields (30_encoding R90 to R92) -/

/-- A command word is its three fields. -/
theorem eq_packWord_iff {w : BitVec 11} {sel : BitVec 1} {alpha : BitVec 2} {op : BitVec 8} :
    w = packWord sel alpha op ↔ w.extractLsb' 10 1 = sel ∧ w.extractLsb' 8 2 = alpha ∧ opField w = op := by
  simp only [← BitVec.toNat_inj, packWord, opField, toNat_append_eq_add, BitVec.extractLsb'_toNat,
    Nat.shiftRight_eq_div_pow]
  omega

theorem alphaField_eq_iff {w : BitVec 11} {alpha : AlphaMode} :
    alphaField w = alpha ↔ w.extractLsb' 8 2 = alphaBits alpha := by
  unfold alphaField
  generalize w.extractLsb' 8 2 = bits
  revert bits
  cases alpha <;> decide

theorem selField_eq_iff {w : BitVec 11} {sel : Sel} : selField w = sel ↔ w.extractLsb' 10 1 = selBit sel := by
  have hbit : w.getLsbD 10 = (w.extractLsb' 10 1).getLsbD 0 := by simp
  unfold selField
  rw [hbit]
  generalize w.extractLsb' 10 1 = bit
  revert bit
  cases sel <;> decide

theorem opField_toNat (w : BitVec 11) : (opField w).toNat = w.toNat % 256 := by
  simp [opField]

/-! ### What the decoder answers (30_encoding R98) -/

/-- The fields command `i` reads besides `OP` hold in `w` what `i` says (30_encoding R98, column "fields read"). -/
def Instr.FieldsAre (i : Instr) (w : BitVec 11) : Prop :=
  match i with
  | .nop => True
  | .conv1d alpha | .conv2d alpha => alphaField w = alpha
  | .fqSpace sel | .fqAlpha sel | .fqPa sel | .fqPlanes sel | .fqBps sel | .fqByps sel | .fqBpp sel | .fqBypp sel
  | .fqUid sel | .fqIs420 sel | .fqTwin sel | .fqRgbeq sel | .bdSize sel | .bdNorm sel => selField w = sel

/-- A word is command `i` exactly when its `OP` is `i`'s and the fields `i` reads are `i`'s. -/
theorem decode_eq_ok_iff {w : BitVec 11} {i : Instr} : decode w = .ok i ↔ opField w = i.op ∧ i.FieldsAre w := by
  constructor
  · intro h
    unfold decode at h
    dsimp only at h
    split at h <;> cases h <;> exact ⟨BitVec.eq_of_toNat_eq ‹_›, by trivial⟩
  · rintro ⟨hop, hfields⟩
    unfold decode
    rw [hop]
    cases i with
    | nop => rfl
    | _ field => exact congrArg (Except.ok ∘ _) hfields

/-- The `OP` values no command has (30_encoding R99). -/
def ReservedOp (op : Nat) : Prop := (3 ≤ op ∧ op ≤ 0x0F) ∨ (0x1C ≤ op ∧ op ≤ 0x1F) ∨ 0x22 ≤ op

/-- The last branch of the decoder answers for every `OP` the other 17 leave; those 17 are commands. -/
theorem exists_decode_eq_error_iff {w : BitVec 11} : (∃ e, decode w = .error e) ↔ ReservedOp (opField w).toNat := by
  unfold decode ReservedOp
  dsimp only
  split
  case h_18 =>
    simp only [imp_false] at *
    exact iff_of_true ⟨_, rfl⟩ (by omega)
  all_goals simp [*]

/-! ### What a command reads of a written value (10_state R26, 30_encoding R98) -/

/-- A mask of command word bits looks at the command word of a written value only (10_state R26). -/
theorem and_setWidth_eq_iff {v : BitVec 64} {mask word : BitVec 11} :
    v &&& mask.setWidth 64 = word.setWidth 64 ↔ commandWord v &&& mask = word := by
  have hlow : v &&& mask.setWidth 64 = (commandWord v &&& mask).setWidth 64 := by
    ext k hk
    by_cases h : k < 11
    · simp [commandWord, h, BitVec.getLsbD_eq_getElem hk]
    · simp [BitVec.getLsbD_of_ge mask k (Nat.not_lt.1 h)]
  rw [hlow]
  constructor
  · intro h
    simpa using congrArg (BitVec.setWidth 11) h
  · exact congrArg (BitVec.setWidth 64)

/-- A mask that keeps all of `OP` compares a written value with a word field by field. -/
theorem and_packWord_eq_iff {v : BitVec 64} {selMask sel : BitVec 1} {alphaMask alpha : BitVec 2} {op : BitVec 8} :
    v &&& (packWord selMask alphaMask (.allOnes 8)).setWidth 64 = (packWord sel alpha op).setWidth 64 ↔
      opField (commandWord v) = op ∧ (commandWord v).extractLsb' 10 1 &&& selMask = sel ∧
        (commandWord v).extractLsb' 8 2 &&& alphaMask = alpha := by
  obtain ⟨hsel, halpha, hop⟩ := eq_packWord_iff.1 (rfl : packWord selMask alphaMask (.allOnes 8) = _)
  unfold opField at hop
  rw [and_setWidth_eq_iff, eq_packWord_iff, opField, opField, BitVec.extractLsb'_and, BitVec.extractLsb'_and,
    BitVec.extractLsb'_and, hsel, halpha, hop, BitVec.and_allOnes, ← and_assoc, and_comm]

/-- The read mask keeps `OP`, and beside it `ALPHA`, `SEL` or neither. -/
theorem and_readMask_eq_iff {v : BitVec 64} {i : Instr} :
    v &&& readMask i = (encode i).setWidth 64 ↔ opField (commandWord v) = i.op ∧ i.FieldsAre (commandWord v) := by
  cases i with
  | nop =>
    refine (and_packWord_eq_iff (selMask := 0#1) (alphaMask := 0#2)).trans ?_
    simp only [Instr.FieldsAre, BitVec.and_zero, and_self]
  | conv1d alpha | conv2d alpha =>
    refine (and_packWord_eq_iff (selMask := 0#1) (alphaMask := .allOnes 2)).trans ?_
    simp only [Instr.FieldsAre, alphaField_eq_iff, BitVec.and_zero, BitVec.and_allOnes, true_and]
  | _ sel =>
    refine (and_packWord_eq_iff (selMask := .allOnes 1) (alphaMask := 0#2)).trans ?_
    simp only [Instr.FieldsAre, selField_eq_iff, BitVec.and_zero, BitVec.and_allOnes, and_true]

/-- A written value starts command `i` exactly when the bits `i` reads are those of its encoding. -/
theorem decodeWritten_eq_ok_iff {v : BitVec 64} {i : Instr} :
    decodeWritten v = .ok i ↔ v &&& readMask i = (encode i).setWidth 64 :=
  decode_eq_ok_iff.trans and_readMask_eq_iff.symm

/-- The encoder sets no bit its command does not read. -/
theorem encode_and_readMask (i : Instr) : (encode i).setWidth 64 &&& readMask i = (encode i).setWidth 64 := by
  cases i with
  | nop => decide
  | _ field => cases field <;> decide

@[simp] theorem decode_encode (i : Instr) : decode (encode i) = .ok i := by
  have hword : commandWord ((encode i).setWidth 64) = encode i := by
    rw [commandWord, BitVec.extractLsb'_setWidth_of_le (by decide), BitVec.extractLsb'_eq_self]
  exact (congrArg decode hword).symm.trans (decodeWritten_eq_ok_iff.2 (encode_and_readMask i))

/-- Settles O1: both halves compare a word with a command's encoding field by field. -/
theorem writtenValueSelectsCommand : Obligations.WrittenValueSelectsCommand :=
  ⟨decode_encode, fun _ _ => decodeWritten_eq_ok_iff⟩

/-- Settles O2: each word is the encoding of its command. -/
theorem writtenOutWordsDecode : Obligations.WrittenOutWordsDecode :=
  ⟨decode_encode .nop, decode_encode (.conv1d .none), decode_encode (.conv1d .unpremul),
    decode_encode (.conv1d .premul), decode_encode (.conv1d .reserved), decode_encode (.conv2d .none),
    decode_encode (.conv2d .unpremul), decode_encode (.conv2d .premul), decode_encode (.conv2d .reserved),
    decode_encode (.fqSpace .src), decode_encode (.fqTwin .dst), decode_encode (.fqRgbeq .src),
    decode_encode (.bdSize .src), decode_encode (.bdSize .dst), decode_encode (.bdNorm .src),
    decode_encode (.bdNorm .dst)⟩

/-! ### Reserved encodings (30_encoding R99) -/

/-- A conversion with the reserved `ALPHA` has no job (43_converters R222). -/
theorem runConversion_reserved (s : State) (h : Nat) : runConversion s h .reserved = .next s.complete :=
  runConversion_of_none (jobOf_eq_none_iff.2 (by simp [isNoOp]))

/-- Settles O3: a reserved word and a conversion with `ALPHA` = 3 take the completion's path; a command starts on the bits
it reads alone. -/
theorem reservedEncodingsAreNoOps : Obligations.ReservedEncodingsAreNoOps := by
  refine ⟨fun w => ?_, fun s e hb hs he => ?_, fun s e rest hb hs he => ?_, fun s => ?_, fun s => ?_,
    fun i v w hvw => ?_⟩
  · rw [← opField_toNat]
    exact exists_decode_eq_error_iff
  · exact (step_of_nil hs).trans (engineTurn_of_error hb he)
  · exact (step_of_cons hs).trans (engineTurn_of_error (s := { s with schedule := rest }) hb he)
  · exact runConversion_reserved s 1
  · exact runConversion_reserved s s.height.toNat
  · rw [decodeWritten_eq_ok_iff, decodeWritten_eq_ok_iff, hvw]

end Sys2Proof

namespace Sys2Proof.Machine

open Safety

/-! ### Which identifiers are recognised (30_encoding R96, R97) -/

theorem Fmt.mem_all (F : Fmt) : F ∈ Fmt.all := by
  rcases F with F | F <;> cases F <;> decide

/-- The written-out table lists the identifier of every format. -/
theorem identTable_eq : identTable = Fmt.all.map fun F => (F.ident, F) := rfl

theorem recognised_iff {f : BitVec 32} : recognised f = true ↔ ∃ F : Fmt, F.ident = f := by
  simp only [recognised, Option.isSome_iff_exists, recognise_eq_some_iff]

/-- Among the formats, the `uniqueId`s 0xB0 to 0xB3 are those of the 4:2:0 arrangements (30_encoding R96). -/
theorem is420_ident_iff (F : Fmt) :
    is420 F.ident = true ↔ 0xB0 ≤ F.ident.toNat % 256 ∧ F.ident.toNat % 256 ≤ 0xB3 := by
  rcases F with F | F <;> cases F <;> decide

theorem recognised_of_is420 {f : BitVec 32} (h : is420 f = true) : recognised f = true := by
  unfold is420 at h
  unfold recognised
  split at h
  next heq => rw [heq]; rfl
  all_goals cases h

/-- Settles O21: the table lists each format once, by an identifier of its own, and recognition is equality with one. -/
theorem recognitionIsTheTable : Obligations.RecognitionIsTheTable := by
  have hidents : identTable.map Prod.fst = Fmt.all.map Fmt.ident := rfl
  refine ⟨fun f => ?_, ?_, ?_, rfl, by decide, by decide, fun f => ⟨fun h => ?_, fun ⟨hf, huid⟩ => ?_⟩⟩
  · rw [recognised_iff, hidents, List.mem_map]
    exact exists_congr fun F => (and_iff_right F.mem_all).symm
  · rw [identTable_eq, List.forall_mem_map]
    exact fun F _ => recognise_ident F
  · rw [hidents]
    exact List.Nodup.map (fun _ _ => Fmt.ident_injective) (by decide)
  · obtain ⟨F, rfl⟩ := recognised_iff.1 (recognised_of_is420 h)
    exact ⟨recognised_of_is420 h, (is420_ident_iff F).1 h⟩
  · obtain ⟨F, rfl⟩ := recognised_iff.1 hf
    exact (is420_ident_iff F).2 huid

end Sys2Proof.Machine
end

section
/-! PROOF. The Format Descriptor queries (O16, O17, O18, O19, O20, O22): what every query command does, the fields of an
identifier as numbers, and the two lookup tables. -/

namespace Sys2Proof.Machine

open Safety

/-! ### Every query is one template (40_format_descriptor R120) -/

/-- The function `q` a query command answers (40_format_descriptor R121 to R132); 0 for the other commands. -/
def queryFunction : Instr → BitVec 32 → Nat
  | .fqSpace _ => fmtSpace
  | .fqAlpha _ => fmtHasAlpha
  | .fqPa _ => fmtIsPa
  | .fqPlanes _ => fmtPlanes
  | .fqBps _ => fmtBps
  | .fqByps _ => fmtByps
  | .fqBpp _ => fmtBpp
  | .fqBypp _ => fmtBypp
  | .fqUid _ => fmtUid
  | .fqIs420 _ => fmtIs420q
  | .fqTwin _ => fun f => (fmtTwin f).toNat
  | .fqRgbeq _ => fun f => (fmtRgbeq f).toNat
  | _ => fun _ => 0

theorem exec_eq_answerQuery {i : Instr} {sel : Sel} (hq : queryOf i = some sel) (s : State) :
    exec i s = answerQuery (queryFunction i) sel s := by
  cases i with
  | nop | conv1d | conv2d | bdSize | bdNorm => cases hq
  | _ =>
    cases hq
    rfl

/-- A query whose function answers `v` on the selected identifier stores `v` and completes. -/
theorem exec_query_of_eq {i : Instr} {sel : Sel} {s : State} {v : BitVec 64} (hq : queryOf i = some sel)
    (hv : BitVec.ofNat 64 (queryFunction i (s.descriptor sel).fmt) = v) :
    exec i s = .next { s with result := v, status := 2#2 } := by
  rw [exec_eq_answerQuery hq, answerQuery_eq, hv]
  rfl

/-! ### The fields of an identifier (40_format_descriptor R121 to R129) -/

/-- Bits `start` up to `start + len - 1` of an identifier, as a number. -/
theorem identField_toNat (f : BitVec 32) (start len : Nat) :
    (f.extractLsb' start len).toNat = f.toNat / 2 ^ start % 2 ^ len := by
  rw [BitVec.extractLsb'_toNat, Nat.shiftRight_eq_div_pow]

theorem fmtSpace_eq (f : BitVec 32) : fmtSpace f = f.toNat / 2 ^ 28 % 16 := identField_toNat f 28 4

theorem fmtHasAlpha_eq (f : BitVec 32) : fmtHasAlpha f = f.toNat / 2 ^ 27 % 2 := identField_toNat f 27 1

theorem fmtIsPa_eq (f : BitVec 32) : fmtIsPa f = f.toNat / 2 ^ 26 % 2 := identField_toNat f 26 1

theorem fmtPlanes_eq (f : BitVec 32) : fmtPlanes f = f.toNat / 2 ^ 24 % 4 + 1 :=
  congrArg (· + 1) (identField_toNat f 24 2)

theorem fmtBps_eq (f : BitVec 32) : fmtBps f = f.toNat / 2 ^ 16 % 256 := identField_toNat f 16 8

theorem fmtByps_eq (f : BitVec 32) : fmtByps f = (f.toNat / 2 ^ 16 % 256 + 7) / 8 := by rw [fmtByps, fmtBps_eq]

theorem fmtBpp_eq (f : BitVec 32) : fmtBpp f = f.toNat / 2 ^ 8 % 256 := identField_toNat f 8 8

theorem fmtBypp_eq (f : BitVec 32) : fmtBypp f = (f.toNat / 2 ^ 8 % 256 + 7) / 8 := by rw [fmtBypp, fmtBpp_eq]

theorem fmtUid_eq (f : BitVec 32) : fmtUid f = f.toNat % 256 := by
  simp [fmtUid]

/-- Settles O16: each query answers its field, and each field is a quotient modulo a power of two. -/
theorem fieldQueriesAnswerTheirField : Obligations.FieldQueriesAnswerTheirField := by
  intro sel s f
  exact ⟨⟨exec_query_of_eq rfl (congrArg _ (fmtSpace_eq _)), rfl⟩,
    ⟨exec_query_of_eq rfl (congrArg _ (fmtHasAlpha_eq _)), rfl⟩,
    ⟨exec_query_of_eq rfl (congrArg _ (fmtIsPa_eq _)), rfl⟩,
    ⟨exec_query_of_eq rfl (congrArg _ (fmtPlanes_eq _)), rfl⟩,
    ⟨exec_query_of_eq rfl (congrArg _ (fmtUid_eq _)), rfl⟩⟩

/-- The 4:2:0 formats keep 12 bits per pixel, two bytes when rounded up (40_format_descriptor R128). -/
theorem fmtBypp_subFmt (F : SubFmt) : fmtBypp F.ident = 2 := by
  cases F <;> rfl

/-- Settles O17: the two bit counts are fields, and the two byte counts are those fields divided by 8, rounded up. -/
theorem sizeQueriesRoundUpToBytes : Obligations.SizeQueriesRoundUpToBytes := by
  intro sel s f
  exact ⟨⟨exec_query_of_eq rfl (congrArg _ (fmtBps_eq _)), rfl⟩,
    ⟨exec_query_of_eq rfl (congrArg _ (fmtByps_eq _)), rfl⟩,
    ⟨exec_query_of_eq rfl (congrArg _ (fmtBpp_eq _)), rfl⟩,
    ⟨exec_query_of_eq rfl (congrArg _ (fmtBypp_eq _)), rfl⟩, fmtBypp_subFmt⟩

/-! ### An answer fits 32 bits (40_format_descriptor R133) -/

theorem queryFunction_lt (i : Instr) (f : BitVec 32) : queryFunction i f < 2 ^ 32 := by
  cases i with
  | nop | conv1d | conv2d | bdSize | bdNorm => exact Nat.two_pow_pos 32
  | fqTwin => exact (fmtTwin f).isLt
  | fqRgbeq => exact (fmtRgbeq f).isLt
  | fqIs420 =>
    simp only [queryFunction, fmtIs420q]
    split <;> decide
  | _ =>
    simp only [queryFunction, fmtSpace_eq, fmtHasAlpha_eq, fmtIsPa_eq, fmtPlanes_eq, fmtBps_eq, fmtByps_eq, fmtBpp_eq,
      fmtBypp_eq, fmtUid_eq]
    omega

/-- Settles O22: both states run the one template on one identifier, and every query's function stays below 2^32. -/
theorem queryDependsOnSelectedFormatOnly : Obligations.QueryDependsOnSelectedFormatOnly := by
  intro i sel s u hq hfmt
  have hlt : (BitVec.ofNat 64 (queryFunction i (s.descriptor sel).fmt)).toNat < 2 ^ 32 := by
    rw [BitVec.toNat_ofNat]
    exact (Nat.mod_le _ _).trans_lt (queryFunction_lt i _)
  exact ⟨_, _, exec_query_of_eq hq rfl, exec_query_of_eq hq (by rw [← hfmt]), rfl, hlt⟩

/-! ### The 4:2:0 query (40_format_descriptor R130) -/

/-- On every format the comparison of two fields, the list of four identifiers and `is420` agree. -/
theorem is420_agrees (F : Fmt) :
    (fmtIs420q F.ident = 1 ↔ is420 F.ident = true) ∧
      (is420 F.ident = true ↔ F.ident ∈ [0x22080CB0#32, 0x22080CB1#32, 0x21080CB2#32, 0x21080CB3#32]) := by
  rcases F with F | F <;> cases F <;> decide

theorem fmtIs420q_eq (f : BitVec 32) :
    fmtIs420q f = if f.toNat / 2 ^ 28 % 16 = 2 ∧ f.toNat / 2 ^ 8 % 256 = 12 then 1 else 0 := by
  rw [fmtIs420q, fmtSpace_eq, fmtBpp_eq]

/-- A conversion with an unrecognised identifier at either end has no job (43_converters R222). -/
theorem runConversion_of_unrecognised {s : State} (h : Nat) (mode : AlphaMode)
    (hunrec : recognised s.src.fmt = false ∨ recognised s.dst.fmt = false) :
    runConversion s h mode = .next s.complete := by
  refine runConversion_of_none (jobOf_eq_none_iff.2 ?_)
  rcases hunrec with hsrc | hdst
  · simp [isNoOp, State.operands, hsrc]
  · simp [isNoOp, State.operands, hdst]

/-- Settles O18: the query is a comparison of two fields; a conversion tests recognition, which `0x20000C00` fails. -/
theorem is420QueryComparesTwoFields : Obligations.Is420QueryComparesTwoFields := by
  refine ⟨fun sel s => ⟨exec_query_of_eq rfl ?_, rfl⟩, fun f hf => ?_, by decide, by decide, fun alpha s hunrec =>
    ⟨runConversion_of_unrecognised 1 alpha hunrec, runConversion_of_unrecognised s.height.toNat alpha hunrec⟩⟩
  · exact (congrArg (BitVec.ofNat 64) (fmtIs420q_eq _)).trans (apply_ite _ _ _ _)
  · obtain ⟨F, rfl⟩ := recognised_iff.1 hf
    exact is420_agrees F

/-! ### The alpha twin (40_format_descriptor R131) -/

theorem fmtTwin_of_mem_twinPairs : ∀ p ∈ twinPairs, fmtTwin p.1 = p.2 ∧ fmtTwin p.2 = p.1 := by
  simp [twinPairs, fmtTwin]

/-- The members of a pair differ in bit 26 and in `uniqueId` and in nothing else. -/
theorem twinPairs_toggle : ∀ p ∈ twinPairs,
    (p.2 ^^^ p.1) &&& 0xFBFFFF00#32 = 0#32 ∧ (p.2 ^^^ p.1).getLsbD 26 = true ∧ fmtUid p.2 ≠ fmtUid p.1 := by
  simp [twinPairs, fmtUid]

theorem fmtTwin_of_unpaired {f : BitVec 32} (h : ∀ p ∈ twinPairs, f ≠ p.1 ∧ f ≠ p.2) : fmtTwin f = f := by
  simp only [twinPairs, List.forall_mem_cons] at h
  simp [fmtTwin, h]

theorem fmtTwin_ne_iff {f : BitVec 32} : fmtTwin f ≠ f ↔ ∃ p ∈ twinPairs, f = p.1 ∨ f = p.2 := by
  constructor
  · intro h
    by_contra hnone
    push Not at hnone
    exact h (fmtTwin_of_unpaired hnone)
  · rintro ⟨p, hp, rfl | rfl⟩ heq
    · rw [(fmtTwin_of_mem_twinPairs p hp).1] at heq
      exact (twinPairs_toggle p hp).2.2 (congrArg fmtUid heq)
    · rw [(fmtTwin_of_mem_twinPairs p hp).2] at heq
      exact (twinPairs_toggle p hp).2.2 (congrArg fmtUid heq).symm

theorem fmtTwin_fmtTwin (f : BitVec 32) : fmtTwin (fmtTwin f) = f := by
  by_cases hf : fmtTwin f = f
  · rw [hf, hf]
  · obtain ⟨p, hp, rfl | rfl⟩ := fmtTwin_ne_iff.1 hf <;> simp only [fmtTwin_of_mem_twinPairs p hp]

theorem fmtTwin_toggles {f : BitVec 32} (hf : fmtTwin f ≠ f) :
    (fmtTwin f ^^^ f) &&& 0xFBFFFF00#32 = 0#32 ∧ (fmtTwin f ^^^ f).getLsbD 26 = true ∧
      fmtUid (fmtTwin f) ≠ fmtUid f := by
  obtain ⟨p, hp, rfl | rfl⟩ := fmtTwin_ne_iff.1 hf
  · rw [(fmtTwin_of_mem_twinPairs p hp).1]
    exact twinPairs_toggle p hp
  · rw [(fmtTwin_of_mem_twinPairs p hp).2, BitVec.xor_comm, ne_comm]
    exact twinPairs_toggle p hp

/-- Settles O19: an identifier is in a pair, whose members the lookup swaps, or the lookup keeps it. -/
theorem twinQueryTogglesPremultiplication : Obligations.TwinQueryTogglesPremultiplication :=
  ⟨fun _ _ => ⟨exec_query_of_eq rfl (BitVec.ofNat_toNat _ _), rfl⟩, fmtTwin_of_mem_twinPairs,
    fun _ => fmtTwin_of_unpaired, fmtTwin_fmtTwin, fun _ => fmtTwin_ne_iff, fun _ => fmtTwin_toggles⟩

/-! ### The RGB equivalent (40_format_descriptor R132) -/

theorem fmtRgbeq_eq (f : BitVec 32) : fmtRgbeq f = if f ∈ yuvIdents then 0x10181810#32 else f := by
  split_ifs with hf
  · revert f
    simp [yuvIdents, fmtRgbeq]
  · simp only [yuvIdents, List.mem_cons, not_or] at hf
    simp [fmtRgbeq, hf]

/-- Settles O20: the query stores the lookup's answer, widened to `RESULT`. -/
theorem rgbeqQueryAnswersRgbOrItself : Obligations.RgbeqQueryAnswersRgbOrItself := by
  intro sel s f
  refine ⟨exec_query_of_eq rfl ?_, rfl⟩
  calc BitVec.ofNat 64 (fmtRgbeq f).toNat
      = (fmtRgbeq f).setWidth 64 := BitVec.ofNat_toNat _ _
    _ = (if f ∈ yuvIdents then 0x10181810#32 else f).setWidth 64 := by rw [fmtRgbeq_eq]
    _ = if f ∈ yuvIdents then 0x10181810#64 else f.setWidth 64 := apply_ite _ _ _ _

end Sys2Proof.Machine
end

section
/-! PROOF. The Pixel Codec (O27, O28, O29, O31, O32, O33, O34, O35, O36, O37, O42): the clamp, the default matrix, the
alpha transforms and the choice between them, the 5/6/5 word, decode against encode, and the address of a pixel's byte. -/

namespace Sys2Proof.Machine

open Safety

/-! ### The default matrix (41_pixel_codec R172) -/

/-- The byte the clamp answers is the clamped number (00_scope R10). -/
theorem clamp255_toNat (x : Int) : ((clamp255 x).toNat : Int) = clampTo255 x := by
  unfold clamp255 clampTo255
  split_ifs with hneg hbig
  · change (0 : Int) = _
    omega
  · change (255 : Int) = _
    omega
  · rw [BitVec.toNat_ofNat]
    omega

theorem clamp255_natCast (n : Nat) : (clamp255 n).toNat = min 255 n := by
  have h := clamp255_toNat n
  unfold clampTo255 at h
  omega

/-- Settles O37: every channel is the clamp of its formula. -/
theorem defaultMatrixIsItsFormula : Obligations.DefaultMatrixIsItsFormula :=
  ⟨fun _ _ _ => ⟨clamp255_toNat _, clamp255_toNat _, clamp255_toNat _⟩,
    fun _ _ _ => ⟨clamp255_toNat _, clamp255_toNat _, clamp255_toNat _⟩⟩

/-- A number between two bounds of the byte range stays between them when clamped. -/
theorem clampTo255_mem_Icc {x : Int} {lo hi : Nat} (hx : x ∈ Set.Icc (lo : Int) hi) (hhi : hi ≤ 255) {n : Nat}
    (hn : (n : Int) = clampTo255 x) : lo ≤ n ∧ n ≤ hi := by
  obtain ⟨hlo, hle⟩ := hx
  unfold clampTo255 at hn
  omega

/-- Settles O36: each formula is between its bounds before the clamp, since each product is between 0 and 255 times its
coefficient. -/
theorem defaultMatrixStaysNominal : Obligations.DefaultMatrixStaysNominal := by
  intro r g b
  obtain ⟨hy, hu, hv⟩ := defaultMatrixIsItsFormula.1 r g b
  rw [Int.fdiv_eq_ediv_of_nonneg _ (by decide)] at hy hu hv
  have hy' := clampTo255_mem_Icc (lo := 16) (hi := 235) ⟨by omega, by omega⟩ (by decide) hy
  have hu' := clampTo255_mem_Icc (lo := 16) (hi := 240) ⟨by omega, by omega⟩ (by decide) hu
  have hv' := clampTo255_mem_Icc (lo := 16) (hi := 240) ⟨by omega, by omega⟩ (by decide) hv
  exact ⟨hy'.1, hy'.2, hu'.1, hu'.2, hv'.1, hv'.2⟩

/-! ### The alpha transforms (41_pixel_codec R174, R175, R180) -/

/-- No product is above 255 * 256, so narrowing to a byte loses nothing. -/
@[simp] theorem premulChannel_toNat (p a : Byte) : (premulChannel p a).toNat = p.toNat * (a.toNat + 1) / 256 := by
  have hprod : p.toNat * (a.toNat + 1) ≤ 255 * 256 := Nat.mul_le_mul (by omega) (by omega)
  rw [premulChannel, BitVec.toNat_ofNat, Nat.mod_eq_of_lt (by omega)]

@[simp] theorem unpremulChannel_toNat (p a : Byte) :
    (unpremulChannel p a).toNat = min 255 (p.toNat * 256 / (a.toNat + 1)) := clamp255_natCast _

theorem premulChannel_opaque (p : Byte) : premulChannel p 255 = p := by
  apply BitVec.eq_of_toNat_eq
  rw [premulChannel_toNat]
  change p.toNat * (255 + 1) / 256 = p.toNat
  omega

theorem premulChannel_transparent (p : Byte) : premulChannel p 0 = 0 := by
  apply BitVec.eq_of_toNat_eq
  rw [premulChannel_toNat]
  change p.toNat * (0 + 1) / 256 = 0
  omega

theorem unpremulChannel_opaque (p : Byte) : unpremulChannel p 255 = p := by
  apply BitVec.eq_of_toNat_eq
  rw [unpremulChannel_toNat]
  change min 255 (p.toNat * 256 / (255 + 1)) = p.toNat
  omega

theorem unpremulChannel_transparent (p : Byte) : unpremulChannel p 0 = if p = 0 then 0 else 255 := by
  apply BitVec.eq_of_toNat_eq
  rw [unpremulChannel_toNat]
  split_ifs with hp
  · simp [hp]
  · have hpos : p.toNat ≠ 0 := fun h => hp (BitVec.eq_of_toNat_eq h)
    change min 255 (p.toNat * 256 / (0 + 1)) = 255
    omega

/-- Settles O31: channel by channel. -/
theorem premultiplyFormula : Obligations.PremultiplyFormula := by
  intro c
  refine ⟨premulChannel_toNat _ _, premulChannel_toNat _ _, premulChannel_toNat _ _, rfl, fun ha => ?_, fun ha => ?_⟩
  · simp only [premul, ha, premulChannel_opaque]
    rw [← ha]
  · simp only [premul, ha, premulChannel_transparent]

/-- Settles O32: channel by channel. -/
theorem unpremultiplyFormula : Obligations.UnpremultiplyFormula := by
  intro c
  refine ⟨unpremulChannel_toNat _ _, unpremulChannel_toNat _ _, unpremulChannel_toNat _ _, rfl, fun ha => ?_,
    fun ha => ?_⟩
  · simp only [unpremul, ha, unpremulChannel_opaque]
    rw [← ha]
  · simp only [unpremul, ha, unpremulChannel_transparent]

/-- Scaling down by `n / 256` and back up, truncating twice, never gains. -/
theorem scaleBack_le (p : Nat) {n : Nat} (hn : 0 < n) : p * n / 256 * 256 / n ≤ p :=
  calc p * n / 256 * 256 / n ≤ p * n / n := Nat.div_le_div_right (Nat.div_mul_le_self _ _)
    _ = p := Nat.mul_div_cancel p hn

/-- Scaling down by `n / 256` and back up loses at most `256 / n` rounded up: the first truncation loses less than 256 of
`p * n`, the second less than `n`. -/
theorem sub_scaleBack_le (p : Nat) {n : Nat} (hn : 0 < n) : p - p * n / 256 * 256 / n ≤ (255 + n) / n := by
  have hdown : p * n < p * n / 256 * 256 + 256 := by omega
  have hup : p * n / 256 * 256 < (p * n / 256 * 256 / n + 1) * n := (Nat.div_lt_iff_lt_mul hn).1 (Nat.lt_succ_self _)
  have hceil : 255 + n < ((255 + n) / n + 1) * n := (Nat.div_lt_iff_lt_mul hn).1 (Nat.lt_succ_self _)
  generalize p * n / 256 * 256 / n = back at hup ⊢
  generalize (255 + n) / n = loss at hceil ⊢
  have hsum : p * n < (back + 1 + loss) * n := by
    simp only [Nat.add_mul] at hup hceil ⊢
    omega
  have hlt : p < back + 1 + loss := Nat.lt_of_mul_lt_mul_right hsum
  omega

/-- Settles O33: what comes back is at most the byte it came from, so the clamp never acts and the two bounds on scaling
down and back up are those of the round trip. -/
theorem alphaRoundTripLossIsBounded : Obligations.AlphaRoundTripLossIsBounded := by
  intro p a u
  have hgain : p.toNat * (a.toNat + 1) / 256 * 256 / (a.toNat + 1) ≤ p.toNat := scaleBack_le _ (Nat.succ_pos _)
  have hu : u.toNat = p.toNat * (a.toNat + 1) / 256 * 256 / (a.toNat + 1) := by
    rw [unpremulChannel_toNat, premulChannel_toNat, min_eq_right (hgain.trans (Nat.le_of_lt_succ p.isLt))]
  refine ⟨hu.trans_le hgain, ?_, ?_, fun _ => ?_⟩
  · rintro rfl
    exact (unpremulChannel_opaque _).trans (premulChannel_opaque p)
  · rintro rfl
    exact (congrArg (unpremulChannel · 0) (premulChannel_transparent p)).trans (unpremulChannel_transparent 0)
  · rw [hu, show 256 + a.toNat = 255 + (a.toNat + 1) by omega]
    exact sub_scaleBack_le _ (Nat.succ_pos _)

/-! ### The choice of the alpha operation (41_pixel_codec R176) -/

/-- Settles O34: the two flags are bits 27 and 26 of an identifier. -/
theorem alphaOperationIsTheTable : Obligations.AlphaOperationIsTheTable := by
  intro sf df
  simp only [← fmtHasAlpha_eq, ← fmtIsPa_eq]
  exact ⟨rfl, rfl, rfl⟩

theorem alphaOp_eq_unpremul_iff {sf df : BitVec 32} {mode : AlphaMode} :
    alphaOp sf df mode = .unpremul ↔
      (mode = .unpremul ∧ fmtHasAlpha sf = 1) ∨ (mode = .none ∧ fmtIsPa sf = 1 ∧ fmtIsPa df = 0) := by
  cases mode <;> simp [alphaOp, ite_eq_iff]

theorem alphaOp_eq_premul_iff {sf df : BitVec 32} {mode : AlphaMode} :
    alphaOp sf df mode = .premul ↔
      (mode = .premul ∧ fmtHasAlpha df = 1) ∨ (mode = .none ∧ fmtIsPa sf = 0 ∧ fmtIsPa df = 1) := by
  cases mode with
  | none =>
    simp only [alphaOp, ite_eq_iff, reduceCtorEq, and_false, and_true, false_or, or_false, false_and, true_and]
    omega
  | _ => simp [alphaOp, ite_eq_iff]

theorem alphaOp_eq_plain_iff {sf df : BitVec 32} {mode : AlphaMode} :
    alphaOp sf df mode = .plain ↔ alphaOp sf df mode ≠ .unpremul ∧ alphaOp sf df mode ≠ .premul := by
  cases alphaOp sf df mode <;> decide

/-- `U` is chosen only for a source with alpha (40_format_descriptor R134). -/
theorem hasAlpha_of_alphaOp_unpremul {F : Fmt} {df : BitVec 32} {mode : AlphaMode}
    (h : alphaOp F.ident df mode = .unpremul) : fmtHasAlpha F.ident = 1 := by
  obtain ⟨-, ha⟩ | ⟨-, hpa, -⟩ := alphaOp_eq_unpremul_iff.1 h
  · exact ha
  · exact (format_table_facts F).1 hpa

/-- `P` is chosen only for a destination with alpha (40_format_descriptor R134). -/
theorem hasAlpha_of_alphaOp_premul {G : Fmt} {sf : BitVec 32} {mode : AlphaMode}
    (h : alphaOp sf G.ident mode = .premul) : fmtHasAlpha G.ident = 1 := by
  obtain ⟨-, ha⟩ | ⟨-, -, hpa⟩ := alphaOp_eq_premul_iff.1 h
  · exact ha
  · exact (format_table_facts G).1 hpa

theorem space_of_hasAlpha {F : Fmt} (h : fmtHasAlpha F.ident = 1) : fmtSpace F.ident = 1 := (format_table_facts F).2.1 h

theorem alphaOp_self (f : BitVec 32) : alphaOp f f .none = .plain := by
  simp only [alphaOp]
  rw [if_neg (by omega), if_neg (by omega)]

theorem fmtIsPa_eq_toNat_getLsbD (f : BitVec 32) : fmtIsPa f = (f.getLsbD 26).toNat := by
  rw [fmtIsPa_eq, ← BitVec.testBit_toNat, Nat.toNat_testBit]

/-- An identifier with a twin chooses by its own flag, since its twin's is the opposite (40_format_descriptor R131). -/
theorem alphaOp_twin {f : BitVec 32} (hf : fmtTwin f ≠ f) :
    alphaOp f (fmtTwin f) .none = if fmtIsPa f = 1 then .unpremul else .premul := by
  have hbit : ((fmtTwin f).getLsbD 26 ^^ f.getLsbD 26) = true := by
    rw [← BitVec.getLsbD_xor]
    exact (fmtTwin_toggles hf).2.1
  simp only [alphaOp, fmtIsPa_eq_toNat_getLsbD]
  generalize (fmtTwin f).getLsbD 26 = t at hbit
  generalize f.getLsbD 26 = b at hbit
  revert t b
  decide

/-- Settles O35: in the table an operation follows a flag of the source or of the destination, and a format with a flag set
has alpha. -/
theorem alphaOperationFollowsFormats : Obligations.AlphaOperationFollowsFormats := by
  refine ⟨fun F G mode h => ?_, fun F G mode h => ?_, fun F => alphaOp_self _, fun F G mode hF hG => ?_,
    fun F hF => alphaOp_twin hF, fun F G hF hG => ⟨if_pos hF, if_pos hG⟩⟩
  · exact ⟨hasAlpha_of_alphaOp_unpremul h, space_of_hasAlpha (hasAlpha_of_alphaOp_unpremul h)⟩
  · exact ⟨hasAlpha_of_alphaOp_premul h, space_of_hasAlpha (hasAlpha_of_alphaOp_premul h)⟩
  · refine alphaOp_eq_plain_iff.2 ⟨fun h => ?_, fun h => ?_⟩
    · have := hasAlpha_of_alphaOp_unpremul h
      omega
    · have := hasAlpha_of_alphaOp_premul h
      omega

/-! ### The 5/6/5 word and its two bytes (41_pixel_codec R161 to R163) -/

theorem word16_toNat (hi lo : Byte) : (word16 hi lo).toNat = hi.toNat * 256 + lo.toNat := toNat_append_eq_add hi lo

theorem highByte_toNat (v : BitVec 16) : (highByte v).toNat = v.toNat / 256 := by
  rw [highByte, BitVec.extractLsb'_toNat, Nat.shiftRight_eq_div_pow]
  omega

theorem lowByte_toNat (v : BitVec 16) : (lowByte v).toNat = v.toNat % 256 := by
  rw [lowByte, BitVec.extractLsb'_toNat, Nat.shiftRight_zero]

@[simp] theorem highByte_word16 (hi lo : Byte) : highByte (word16 hi lo) = hi := BitVec.extractLsb'_append_eq_left

@[simp] theorem lowByte_word16 (hi lo : Byte) : lowByte (word16 hi lo) = lo := BitVec.extractLsb'_append_eq_right

@[simp] theorem word16_highByte_lowByte (v : BitVec 16) : word16 (highByte v) (lowByte v) = v :=
  BitVec.eq_of_toNat_eq (by rw [word16_toNat, highByte_toNat, lowByte_toNat]; omega)

theorem widen5_toNat (q : BitVec 5) : (widen5 q).toNat = q.toNat * 8 := by
  rw [widen5, BitVec.toNat_shiftLeft, BitVec.toNat_setWidth, Nat.shiftLeft_eq]
  omega

theorem widen6_toNat (q : BitVec 6) : (widen6 q).toNat = q.toNat * 4 := by
  rw [widen6, BitVec.toNat_shiftLeft, BitVec.toNat_setWidth, Nat.shiftLeft_eq]
  omega

theorem hi565_toNat (v : BitVec 16) : (hi565 v).toNat = v.toNat / 2048 * 8 := by
  rw [hi565, widen5_toNat, BitVec.extractLsb'_toNat, Nat.shiftRight_eq_div_pow]
  omega

theorem mid565_toNat (v : BitVec 16) : (mid565 v).toNat = v.toNat / 32 % 64 * 4 := by
  rw [mid565, widen6_toNat, BitVec.extractLsb'_toNat, Nat.shiftRight_eq_div_pow]

theorem lo565_toNat (v : BitVec 16) : (lo565 v).toNat = v.toNat % 32 * 8 := by
  rw [lo565, widen5_toNat, BitVec.extractLsb'_toNat, Nat.shiftRight_eq_div_pow]
  omega

theorem pack565_toNat (hi mid lo : Byte) : (pack565 hi mid lo).toNat = number565 hi mid lo := by
  simp only [pack565, number565, toNat_append_eq_add, BitVec.toNat_setWidth, BitVec.toNat_ushiftRight,
    Nat.shiftRight_eq_div_pow]
  omega

/-- Masking the low `k` bits of a channel truncates it to a multiple of `2 ^ k`. -/
theorem and_highMask_toNat (x : Byte) (k : Nat) : (x &&& BitVec.allOnes 8 <<< k).toNat = x.toNat / 2 ^ k * 2 ^ k := by
  have hlt : x.toNat / 2 ^ k * 2 ^ k < 2 ^ 8 := (Nat.div_mul_le_self _ _).trans_lt x.isLt
  rw [← BitVec.shiftLeft_ushiftRight, BitVec.toNat_shiftLeft, BitVec.toNat_ushiftRight, Nat.shiftLeft_eq,
    Nat.shiftRight_eq_div_pow, Nat.mod_eq_of_lt hlt]

theorem and_F8_toNat (x : Byte) : (x &&& 0xF8).toNat = x.toNat / 8 * 8 := and_highMask_toNat x 3

theorem and_FC_toNat (x : Byte) : (x &&& 0xFC).toNat = x.toNat / 4 * 4 := and_highMask_toNat x 2

@[simp] theorem hi565_pack565 (hi mid lo : Byte) : hi565 (pack565 hi mid lo) = hi &&& 0xF8 :=
  BitVec.eq_of_toNat_eq (by rw [hi565_toNat, pack565_toNat, number565, and_F8_toNat]; omega)

@[simp] theorem mid565_pack565 (hi mid lo : Byte) : mid565 (pack565 hi mid lo) = mid &&& 0xFC :=
  BitVec.eq_of_toNat_eq (by rw [mid565_toNat, pack565_toNat, number565, and_FC_toNat]; omega)

@[simp] theorem lo565_pack565 (hi mid lo : Byte) : lo565 (pack565 hi mid lo) = lo &&& 0xF8 :=
  BitVec.eq_of_toNat_eq (by rw [lo565_toNat, pack565_toNat, number565, and_F8_toNat]; omega)

/-- Widening leaves zeros where narrowing truncates. -/
@[simp] theorem pack565_fields (v : BitVec 16) : pack565 (hi565 v) (mid565 v) (lo565 v) = v :=
  BitVec.eq_of_toNat_eq (by rw [pack565_toNat, number565, hi565_toNat, mid565_toNat, lo565_toNat]; omega)

theorem grayOf_toNat (c : Color) : (grayOf c).toNat = (c.r.toNat + c.g.toNat + c.b.toNat) / 3 := by
  rw [grayOf, BitVec.toNat_ofNat]
  omega

theorem grayOf_gray (x a : Byte) : grayOf { r := x, g := x, b := x, a := a } = x :=
  BitVec.eq_of_toNat_eq (by rw [grayOf_toNat]; dsimp only; omega)

/-! ### Decode and encode (41_pixel_codec R151 to R173, R179) -/

/-- Settles O29: the 5/6/5 formats by the fields and bytes of their word, gray by its mean; YUV444 is the matrix. -/
theorem narrowedCodecsAreTheirFormulas : Obligations.NarrowedCodecsAreTheirFormulas := by
  intro csc m c t be le rgb bgr
  have hbe : (word16 (m 0) (m 1)).toNat = be := word16_toNat _ _
  have hle : (word16 (m 1) (m 0)).toNat = le := word16_toNat _ _
  refine ⟨⟨?_, ?_⟩, ⟨?_, ?_⟩, ⟨?_, ?_⟩, ⟨?_, ?_⟩, ⟨⟨rfl, rfl, rfl, rfl⟩, congrArg ([·]) (grayOf_toNat c)⟩, ⟨rfl, rfl⟩,
    rfl, rfl⟩
  all_goals simp only [OpaqueOf, decodePixel, encodePixel, hi565_toNat, mid565_toNat, lo565_toNat, hbe, hle, and_self,
    List.map, highByte_toNat, lowByte_toNat, pack565_toNat, rgb, bgr]

theorem codecIs_bgra : ∀ F ∈ [FullFmt.bgra, .bgraPa],
    CodecIs F (fun m => { b := m 0, g := m 1, r := m 2, a := m 3 }) fun c => [c.b, c.g, c.r, c.a] := by
  simp [CodecIs, decodePixel, encodePixel]

/-- The channels are the digits of the image to base 256 (10_state R40). -/
theorem colorWord_digits (c : Color) :
    [c.b, c.g, c.r, c.a].map BitVec.toNat =
      [(colorWord c).toNat % 256, (colorWord c).toNat / 2 ^ 8 % 256, (colorWord c).toNat / 2 ^ 16 % 256,
        (colorWord c).toNat / 2 ^ 24] := by
  simp only [List.map, List.cons.injEq, and_true, colorWord_toNat]
  omega

/-- Settles O28: each layout is read off the two functions; the image of a Color is the bytes BGRA stores. -/
theorem channelsStandInTheirBytes : Obligations.ChannelsStandInTheirBytes := by
  refine ⟨?rgba, codecIs_bgra, ?argb, ?abgr, ?rgb, fun _ _ _ => ⟨rfl, rfl⟩, fun F hF csc c => ?image⟩
  case image => exact (congrArg _ (codecIs_bgra F hF csc (fun _ => 0) c).2).trans (colorWord_digits c)
  all_goals simp [CodecIs, decodePixel, encodePixel]

/-- Decoding what was encoded quantises as the rule's table says (41_pixel_codec R179). -/
theorem decodePixel_encodePixel (csc : CscMatrix) (F : FullFmt) (c : Color) :
    decodePixel csc F (fun n => (encodePixel csc F c).getD n 0) = quantize csc F c := by
  cases F with
  | rgb565be | rgb565le | bgr565be | bgr565le =>
    simp only [decodePixel, encodePixel, quantize, List.getD_cons_zero, List.getD_cons_succ, word16_highByte_lowByte,
      hi565_pack565, mid565_pack565, lo565_pack565]
  | _ => rfl

/-- Encoding what was decoded is the identity on the pixel's bytes; not so for YUV444, whose matrix need not have an
inverse (41_pixel_codec R179). -/
theorem encodePixel_decodePixel (csc : CscMatrix) {F : FullFmt} (hF : F ≠ .yuv444) (m : Nat → Byte) :
    encodePixel csc F (decodePixel csc F m) = (List.range (pixelLength F)).map m := by
  cases F with
  | yuv444 => exact absurd rfl hF
  | gray8 => exact congrArg (fun b => [b]) (grayOf_gray _ _)
  | rgb565be | rgb565le | bgr565be | bgr565le =>
    simp only [decodePixel, encodePixel, pack565_fields, highByte_word16, lowByte_word16]
    rfl
  | _ => rfl

/-- Settles O27: the two round trips, format by format. -/
theorem codecRoundTrip : Obligations.CodecRoundTrip :=
  ⟨fun csc F c => ⟨encodePixel_length csc F c, decodePixel_encodePixel csc F c⟩,
    fun csc _ m hF => encodePixel_decodePixel csc hF m⟩

/-! ### The address of a pixel's byte (41_pixel_codec R178) -/

theorem packed_of_mem_packedSizes : ∀ p ∈ packedSizes, p.1.planar = false ∧ p.1.pixelBytes = p.2 := by decide

theorem planar_of_mem : ∀ F ∈ [FullFmt.rgbaPlanar, .rgbaPlanarPa, .rgbPlanar], F.planar = true := by decide

/-- Settles O42: a byte of a pixel is a byte of its side's row, at the pixel's offset in plane 0 or in a plane of its own. -/
theorem pixelBytesAreThoseOfTheSpec : Obligations.PixelBytesAreThoseOfTheSpec := by
  refine ⟨fun F size sd x y n hmem hf => ?_, fun F sd x y hmem hf => ?_⟩
  · obtain ⟨hplanar, hsize⟩ := packed_of_mem_packedSizes _ hmem
    rw [pixelByteAddr_packed hf hplanar, hsize, Side.byteAddr, Nat.cast_add, Nat.cast_mul, ← add_assoc]
    rfl
  · have hbyte := pixelByteAddr_planar hf (planar_of_mem F hmem) x y
    exact ⟨hbyte 0, hbyte 1, hbyte 2, fun _ => hbyte 3⟩

end Sys2Proof.Machine
end

section
/-! PROOF. The Chroma Sampler (O38, O41, O49, O50, O51): the mean of a block, where the samples of a 4:2:0 side stand, and
what the three paths with a 4:2:0 end store, read back from the memory a ready conversion leaves. -/

namespace Sys2Proof.Machine

open Safety

/-! ### The mean of a block (42_chroma_sampler R208, R211) -/

theorem shiftRight_natCast (n k : Nat) : shiftRight n k = (n / 2 ^ k : Nat) := (Int.ofNat_fdiv n (2 ^ k)).symm

/-- Four bytes and the 2 of the rounding sum to less than 4 * 256, so the clamp never acts. -/
theorem chromaMean_toNat (a b c d : Byte) :
    (chromaMean a b c d).toNat = (a.toNat + b.toNat + c.toNat + d.toNat + 2) / 4 := by
  rw [chromaMean, shiftRight_natCast, clamp255_natCast]
  omega

theorem chromaMean_self (c : Byte) : chromaMean c c c c = c := by
  apply BitVec.eq_of_toNat_eq
  rw [chromaMean_toNat]
  omega

/-- Settles O38: the rounded mean as a number, and its fixed points. -/
theorem chromaMeanRoundsHalfUp : Obligations.ChromaMeanRoundsHalfUp := ⟨chromaMean_toNat, chromaMean_self⟩

/-! ### Where the samples of a 4:2:0 side stand (42_chroma_sampler R202 to R205) -/

/-- Byte `b` of chroma pair `x` of a row of pairs, its offset as the plane view of 20_memory R66 writes it. -/
theorem Side.byteAddr_pair (sd : Side) (k : Fin 4) (y x b : Nat) :
    sd.byteAddr k y (2 * x + b) = (sd.ptr.get k : Int) + y * sd.rs.get k + x * 2 + b := by
  rw [Side.byteAddr, Nat.cast_add, Nat.cast_mul, Nat.cast_ofNat, mul_comm (2 : Int), add_assoc _ _ (b : Int)]

/-- The even byte of a pair: no offset is added. -/
theorem Side.byteAddr_pair_zero (sd : Side) (k : Fin 4) (y x : Nat) :
    sd.byteAddr k y (2 * x) = (sd.ptr.get k : Int) + y * sd.rs.get k + x * 2 :=
  (sd.byteAddr_pair k y x 0).trans (add_zero _)

/-- Settles O41: every sample is a byte of its side's row, in the arrangements NV21 and NV12 a byte of a chroma pair. -/
theorem chromaSitesAreThoseOfTheSpec : Obligations.ChromaSitesAreThoseOfTheSpec := by
  intro sd x y
  refine ⟨fun hf => ?i420, fun hf => ?yv12, fun hf => ?nv21, fun hf => ?nv12⟩
  case i420 => exact ⟨lumaAddr_eq hf x y, uAddr_eq hf x y, vAddr_eq hf x y⟩
  case yv12 => exact ⟨lumaAddr_eq hf x y, vAddr_eq hf x y, uAddr_eq hf x y⟩
  case nv21 =>
    exact ⟨lumaAddr_eq hf x y, (vAddr_eq hf x y).trans (sd.byteAddr_pair_zero 1 y x),
      (uAddr_eq hf x y).trans (sd.byteAddr_pair 1 y x 1)⟩
  case nv12 =>
    exact ⟨lumaAddr_eq hf x y, (uAddr_eq hf x y).trans (sd.byteAddr_pair_zero 1 y x),
      (vAddr_eq hf x y).trans (sd.byteAddr_pair 1 y x 1)⟩

/-! ### What is stored when an end is 4:2:0 (43_converters R225, R230, R232, R233) -/

section

variable {j : Job} (csc : CscMatrix) (rd : Int → Byte)

theorem Job.writes_of_sub_sub {F G : SubFmt} (hF : j.src.fmt = .sub F) (hG : j.dst.fmt = .sub G) :
    j.writes csc rd = reshuffleWrites rd F G j := by
  simp only [Job.writes, hF, hG]

theorem Job.writes_of_full_sub {F : FullFmt} {G : SubFmt} (hF : j.src.fmt = .full F) (hG : j.dst.fmt = .sub G) :
    j.writes csc rd = subsampleWrites csc rd F G j := by
  simp only [Job.writes, hF, hG]

theorem Job.writes_of_sub_full {F : SubFmt} {G : FullFmt} (hF : j.src.fmt = .sub F) (hG : j.dst.fmt = .full G) :
    j.writes csc rd = upsampleWrites csc rd F G j := by
  simp only [Job.writes, hF, hG]

end

/-! ### The stored triple of 42_chroma_sampler R207 -/

/-- An opaque colour is its own premultiplication (41_pixel_codec R174). -/
theorem premul_opaque (r g b : Byte) : premul { r := r, g := g, b := b, a := 255 } = { r := r, g := g, b := b, a := 255 } := by
  simp only [premul, premulChannel_opaque]

/-- An upsampled triple is stored alike under every alpha operation, since its colour is opaque. -/
theorem upsampledBytes_eq_storedTriple (csc : CscMatrix) (aop : AlphaOp) (G : FullFmt) (t : Yuv) :
    upsampledBytes csc aop G t = storedTriple csc G t := by
  simp only [upsampledBytes, storedTriple, premul_opaque, ite_self, encodeYuv]

theorem storedTriple_length (csc : CscMatrix) (G : FullFmt) (t : Yuv) : (storedTriple csc G t).length = pixelLength G := by
  rw [← upsampledBytes_eq_storedTriple csc .plain]
  exact upsampledBytes_length csc .plain G t

end Sys2Proof.Machine

namespace Sys2Proof.Safety

open Sys2Proof.Machine

/-! ### The paths with a 4:2:0 end (42_chroma_sampler R208 to R210) -/

section

variable {i : Instr} {s : State} {j : Job} (hr : Ready i s j)
include hr

theorem Ready.unchangedOutside : UnchangedOutside j s.mem (j.result s.platform.csc s.mem) := by
  obtain ⟨mode, h, hc, hj⟩ := hr.job
  exact conversionWritesOnlyItsFootprint i s _ mode h j hc hj (exec_of_ready hr)

/-- A ready conversion with a 4:2:0 end works on whole blocks (43_converters R222). -/
theorem Ready.even (hs : (∃ F, j.src.fmt = .sub F) ∨ ∃ F, j.dst.fmt = .sub F) : j.w % 2 = 0 ∧ j.h % 2 = 0 := by
  obtain ⟨mode, h, -, hj⟩ := hr.job
  exact jobOf_even hj hs

end

/-- Settles O49: each luma and each mean is one of the bytes `Subsample` stores; its `srcYuv`, reading the memory the
command began with, is `sourceTriple` by definition. -/
theorem subsampleStoresLumaAndMeans : Obligations.SubsampleStoresLumaAndMeans := by
  intro i s j F G hwf hr hF hG t
  have hstored : ∀ {a v}, (a, v) ∈ subsampleWrites s.platform.csc s.mem.readAt F G j →
      (j.result s.platform.csc s.mem).readAt a = v := fun ha =>
    readAt_of_ready hr hwf (Job.writes_of_full_sub _ _ hF hG ▸ ha)
  have heven := hr.even (.inr ⟨G, hG⟩)
  refine ⟨_, exec_of_ready hr, fun x y hx hy => ?luma, fun cx cy hcx hcy => ⟨?u, ?v⟩, hr.unchangedOutside⟩
  case luma => exact hstored ((mem_subsampleWrites heven).2 (.inl ⟨x, y, hx, hy, rfl⟩))
  case u =>
    rw [hstored ((mem_subsampleWrites heven).2 (.inr ⟨cx, cy, hcx, hcy, .inl rfl⟩))]
    exact chromaMean_toNat _ _ _ _
  case v =>
    rw [hstored ((mem_subsampleWrites heven).2 (.inr ⟨cx, cy, hcx, hcy, .inr rfl⟩))]
    exact chromaMean_toNat _ _ _ _

/-- Settles O50: each byte of each pixel is one of the bytes `Upsample` stores. -/
theorem upsampleDuplicatesChroma : Obligations.UpsampleDuplicatesChroma := by
  intro i s j F G hwf hr hF hG
  refine ⟨_, exec_of_ready hr, fun x y n hx hy hn => readAt_of_ready hr hwf ?_, hr.unchangedOutside⟩
  rw [Job.writes_of_sub_full _ _ hF hG, mem_upsampleWrites (hr.even (.inl ⟨F, hF⟩))]
  refine ⟨x, y, hx, hy, ?_⟩
  rw [dstYuv_eq, upsampledBytes_eq_storedTriple, mem_storePixelBytes]
  exact ⟨n, hn.trans_eq (storedTriple_length _ _ _).symm, rfl⟩

/-- Settles O51: each sample is one of the bytes `Reshuffle` stores. -/
theorem reshuffleCopiesEverySample : Obligations.ReshuffleCopiesEverySample := by
  intro i s j F G hwf hr hF hG
  have hstored : ∀ {a v}, (a, v) ∈ reshuffleWrites s.mem.readAt F G j →
      (j.result s.platform.csc s.mem).readAt a = v := fun ha =>
    readAt_of_ready hr hwf (Job.writes_of_sub_sub _ _ hF hG ▸ ha)
  refine ⟨_, exec_of_ready hr, fun x y hx hy => ?luma, fun cx cy hcx hcy => ⟨?u, ?v⟩, hr.unchangedOutside⟩
  case luma => exact hstored (mem_reshuffleWrites.2 (.inl ⟨x, y, hx, hy, rfl⟩))
  case u => exact hstored (mem_reshuffleWrites.2 (.inr ⟨cx, cy, hcx, hcy, .inl rfl⟩))
  case v => exact hstored (mem_reshuffleWrites.2 (.inr ⟨cx, cy, hcx, hcy, .inr rfl⟩))

end Sys2Proof.Safety
end

section
/-! PROOF. The converters (O15, O39, O44, O47, O48, O52, O54): NOP, which conversions are no-ops and what the others work
on, what an address that is not admitted does, what the paths between full-resolution formats store, and the one-row
region of CONV1D. -/

namespace Sys2Proof.Machine

open Safety

/-- Settles O15: NOP is the completion itself. -/
theorem nopOnlyCompletes : Obligations.NopOnlyCompletes := fun _ => rfl

/-! ### No-ops and jobs (43_converters R222, 30_encoding R102) -/

theorem isNoOp_eq_true_iff {sf df : BitVec 32} {w h : Nat} {mode : AlphaMode} :
    isNoOp sf df w h mode = true ↔
      mode = .reserved ∨ recognise sf = none ∨ recognise df = none ∨ w = 0 ∨ h = 0 ∨
        ((is420 sf = true ∨ is420 df = true) ∧ (w % 2 = 1 ∨ h % 2 = 1)) := by
  simp only [isNoOp, recognised, Bool.or_eq_true, Bool.and_eq_true, Bool.not_eq_true', decide_eq_true_eq,
    Option.isSome_eq_false_iff, Option.isNone_iff_eq_none, or_assoc]

/-- A stride register that is not 0 is the row stride, as a signed number (44_buffer_descriptor R253). -/
theorem normStride_toInt (F : Fmt) (k : Fin 4) (w : Nat) (stride : BitVec 32) :
    normStride F k w stride.toInt = if stride = 0#32 then (F.rowBytes k w : Int) else stride.toInt := by
  have hzero : stride.toInt = 0 ↔ stride = 0#32 := BitVec.toInt_inj (y := 0#32)
  simp only [normStride, hzero]

/-- What one plane of a conversion's end takes of its descriptor (44_buffer_descriptor R253, R254). -/
theorem sideOf_plane (F : Fmt) (d : Descriptor) (w : Nat) (k : Fin 4) :
    (sideOf F d w).ptr.get k = (d.ptr.get k).toNat ∧
      (sideOf F d w).rs.get k =
        if d.stride.get k = 0#32 then (F.rowBytes k w : Int) else (d.stride.get k).toInt :=
  ⟨pointersOf_get d.ptr k, (stridesOf_get F w d.stride k).trans (normStride_toInt F k w (d.stride.get k))⟩

/-- Settles O39: a conversion has no job exactly when one of the conditions of R222 holds, and its job is built of the two
descriptors plane by plane. -/
theorem noOpConversionOnlyCompletes : Obligations.NoOpConversionOnlyCompletes := by
  intro i s mode h hc degenerate
  have hnone : jobOf s.operands h mode = none ↔ degenerate := jobOf_eq_none_iff.trans isNoOp_eq_true_iff
  refine ⟨fun hd => ?_, fun hd => ?_⟩
  · rw [exec_of_conversion hc]
    exact runConversion_of_none (hnone.2 hd)
  · obtain ⟨j, hj⟩ := Option.ne_none_iff_exists'.1 (mt hnone.1 hd)
    obtain ⟨-, F, G, hF, hG, rfl⟩ := jobOf_eq_some_iff.1 hj
    exact ⟨_, hj, hF.symm, hG.symm, rfl, rfl, rfl, fun k _ => sideOf_plane F s.src _ k,
      fun k _ => sideOf_plane G s.dst _ k⟩

/-! ### Addresses that are not admitted (20_memory R68, 43_converters R237 (h)) -/

/-- Admission is tested last, and its failure is the stuck run (log entries 14 and 17). -/
theorem runConversion_of_unadmitted {s : State} {h : Nat} {mode : AlphaMode} {j : Job}
    (hj : jobOf s.operands h mode = some j) (hfoot : j.footprintsDisjoint = true) (hrows : j.dstRowsDisjoint = true)
    (hadm : j.admitted s.platform = false) : runConversion s h mode = .fault .neverCompletes := by
  simp only [runConversion, hj, hfoot, hrows, hadm, if_true, Bool.false_eq_true, if_false]

theorem inRegisterRegion_iff {base a : Nat} : inRegisterRegion base a = true ↔ base ≤ a ∧ a < base + 256 := by
  simp only [inRegisterRegion, Bool.and_eq_true, decide_eq_true_eq]

theorem inAnyRegisterRegion_iff {p : Platform} {a : Nat} :
    p.inAnyRegisterRegion a = true ↔
      ∃ base, (p.regBase = some base ∨ base ∈ p.otherRegBases) ∧ base ≤ a ∧ a < base + 256 := by
  unfold Platform.inAnyRegisterRegion
  cases p.regBase <;> simp [inRegisterRegion_iff, or_and_right, exists_or]

/-- A register region is no memory (10_state R33). -/
theorem namesByte_eq_false_of_inAnyRegisterRegion {p : Platform} {a : Int}
    (h : p.inAnyRegisterRegion a.toNat = true) : p.namesByte a = false := by
  simp only [Platform.namesByte, h, Bool.not_true, Bool.and_false]

theorem admits_eq_false_of_namesByte {p : Platform} {a : Int} (h : p.namesByte a = false) :
    p.admitsRead a = false ∧ p.admitsWrite a = false := by
  simp only [Platform.admitsRead, Platform.admitsWrite, h, Bool.false_and, and_self]

/-- Settles O44: with the two footprint tests passed the machine tests admission, of which one byte not admitted is the
failure; an address that names no byte of memory is never admitted. -/
theorem unadmittedAccessNeverCompletes : Obligations.UnadmittedAccessNeverCompletes := by
  refine ⟨fun i s mode h j hc hj hfoot hrows hbad => ?_, fun p a ha => admits_eq_false_of_namesByte ?_⟩
  · rw [exec_of_conversion hc]
    refine runConversion_of_unadmitted hj (rowsDisjoint_iff.2 hfoot) (rowsPairwiseDisjoint_iff.2 hrows)
      (Bool.eq_false_iff.2 fun hadm => ?_)
    obtain ⟨hread, hwrite⟩ := Job.admitted_iff.1 hadm
    obtain ⟨a, hsrc, hno⟩ | ⟨a, hdst, hno⟩ := hbad
    · exact Bool.false_ne_true (hno.symm.trans (hread a hsrc))
    · exact Bool.false_ne_true (hno.symm.trans (hwrite a hdst))
  · obtain hneg | hhigh | ⟨base, hbase, hlo, hhi⟩ := ha
    · exact Bool.eq_false_iff.2 fun hn => absurd (namesByte_bounds hn).1 (not_le.2 hneg)
    · refine Bool.eq_false_iff.2 fun hn => ?_
      obtain ⟨hpos, hlt⟩ := namesByte_bounds hn
      have : a < 2 ^ p.aw := by exact_mod_cast (Int.toNat_lt hpos).1 hlt
      exact absurd hhigh (not_le.2 this)
    · exact namesByte_eq_false_of_inAnyRegisterRegion (inAnyRegisterRegion_iff.2 ⟨base, hbase, by omega, by omega⟩)

/-! ### What is stored between full-resolution formats (43_converters R225, R231, R234) -/

section

variable {j : Job} {F G : FullFmt} (csc : CscMatrix) (rd : Int → Byte)

theorem Job.writes_of_copy (hF : j.src.fmt = .full F) (hG : j.dst.fmt = .full F) (hplain : j.aop = .plain) :
    j.writes csc rd = copyWrites rd j := by
  simp only [Job.writes, hF, hG, hplain, and_self, if_true]

theorem Job.writes_of_transcode (hF : j.src.fmt = .full F) (hG : j.dst.fmt = .full G) (h : ¬(F = G ∧ j.aop = .plain)) :
    j.writes csc rd = transcodeWrites csc rd F G j := by
  simp only [Job.writes, hF, hG, if_neg h]

/-- Un-premultiplying at the source or premultiplying at the destination is the one alpha operation (41_pixel_codec
R177). -/
theorem dstStore_srcColor (aop : AlphaOp) (sd dd : Side) (x y : Nat) :
    dstStore csc aop G dd x y (srcColor csc rd aop F sd x y) =
      storePixelBytes G dd x y (encodePixel csc G (applyAlpha aop (readColor csc rd F sd x y))) := by
  cases aop <;> rfl

end

/-- A 4:2:0 format shuffled into itself is copied: its samples are all the bytes it has (42_chroma_sampler R210). -/
theorem mem_reshuffleWrites_self {rd : Int → Byte} {F : SubFmt} {j : Job} (hF : j.src.fmt = .sub F)
    (hG : j.dst.fmt = .sub F) {k : Fin 4} {y n : Nat} (hh : j.src.Has j.w j.h k y n) :
    (j.dst.byteAddr k y n, rd (j.src.byteAddr k y n)) ∈ reshuffleWrites rd F F j := by
  rw [mem_reshuffleWrites]
  simp only [lumaAddr_eq hF, lumaAddr_eq hG, uAddr_eq hF, uAddr_eq hG, vAddr_eq hF, vAddr_eq hG]
  obtain ⟨rfl, hy, hn⟩ | ⟨hy, cx, hcx, hsite⟩ := (Side.has_sub_iff hF).1 hh
  · exact .inl ⟨n, y, hn, hy, rfl⟩
  · exact .inr ⟨cx, y, hcx, hy, hsite.imp (fun hu => by rw [hu]) (fun hv => by rw [hv])⟩

/-- A conversion of a format to itself stores each byte of the source at its place in the destination (43_converters
R235). -/
theorem Job.mem_writes_of_identity {j : Job} (hfmt : j.src.fmt = j.dst.fmt) (hplain : j.aop = .plain) (csc : CscMatrix)
    (rd : Int → Byte) {k : Fin 4} {y n : Nat} (hh : j.src.Has j.w j.h k y n) :
    (j.dst.byteAddr k y n, rd (j.src.byteAddr k y n)) ∈ j.writes csc rd := by
  cases hF : j.src.fmt with
  | full F =>
    rw [Job.writes_of_copy csc rd hF (hfmt ▸ hF) hplain]
    exact mem_copyWrites.2 ⟨k, y, n, hh, rfl⟩
  | sub F =>
    rw [Job.writes_of_sub_sub csc rd hF (hfmt ▸ hF)]
    exact mem_reshuffleWrites_self hF (hfmt ▸ hF) hh

/-- Between a format and itself an operation is chosen on request only, and only where there is alpha (41_pixel_codec
R176). -/
theorem alphaOp_ident_self {F : Fmt} {mode : AlphaMode} (h : mode = .none ∨ fmtHasAlpha F.ident = 0) :
    alphaOp F.ident F.ident mode = .plain := by
  obtain rfl | hno := h
  · exact alphaOp_self _
  · refine alphaOp_eq_plain_iff.2 ⟨fun hu => ?_, fun hp => ?_⟩
    · exact absurd (hno.symm.trans (hasAlpha_of_alphaOp_unpremul hu)) (by decide)
    · exact absurd (hno.symm.trans (hasAlpha_of_alphaOp_premul hp)) (by decide)

/-- The alpha operation of a job is that of the identifiers of its two formats. -/
theorem jobOf_aop {o : Operands} {h : Nat} {mode : AlphaMode} {j : Job} (hj : jobOf o h mode = some j) :
    j.aop = alphaOp j.src.fmt.ident j.dst.fmt.ident mode := by
  obtain ⟨-, F, G, hF, hG, rfl⟩ := jobOf_eq_some_iff.1 hj
  simp only [sideOf, recognise_eq_some_iff.1 hF, recognise_eq_some_iff.1 hG]

end Sys2Proof.Machine

namespace Sys2Proof.Safety

open Sys2Proof.Machine

/-- Where a format is converted to itself with no alpha operation, every byte of the source is left at its place in the
destination. -/
theorem Ready.readAt_of_identity {i : Instr} {s : State} {j : Job} (hr : Ready i s j) (hwf : s.mem.wf)
    (hfmt : j.src.fmt = j.dst.fmt) (hplain : j.aop = .plain) {k : Fin 4} {y n : Nat} (hh : j.src.Has j.w j.h k y n) :
    (j.result s.platform.csc s.mem).readAt (j.dst.byteAddr k y n) = s.mem.readAt (j.src.byteAddr k y n) :=
  readAt_of_ready hr hwf (Job.mem_writes_of_identity hfmt hplain s.platform.csc s.mem.readAt hh)

/-- Settles O47: `Copy` is the conversion of a format to itself with no alpha operation. -/
theorem copyMovesEveryByte : Obligations.CopyMovesEveryByte := by
  intro i s j F hwf hr hF hG hplain
  exact ⟨_, exec_of_ready hr,
    fun k y n hk hy hn => hr.readAt_of_identity hwf (hF.trans hG.symm) hplain ⟨hk, hy, hn⟩, hr.unchangedOutside⟩

/-- Settles O48: each byte of each pixel is one of the bytes `Transcode` stores. -/
theorem transcodeStoresEveryPixel : Obligations.TranscodeStoresEveryPixel := by
  intro i s j F G hwf hr hF hG hne
  refine ⟨_, exec_of_ready hr, fun x y n hx hy hn => readAt_of_ready hr hwf ?_, hr.unchangedOutside⟩
  rw [Job.writes_of_transcode _ _ hF hG hne, mem_transcodeWrites]
  refine ⟨x, y, hx, hy, ?_⟩
  rw [dstStore_srcColor, mem_storePixelBytes]
  exact ⟨n, hn.trans_eq (encodePixel_length _ _ _).symm, rfl⟩

/-- Settles O52: no alpha operation is chosen, so the conversion is a `Copy` or a `Reshuffle` of a format into itself. -/
theorem identityConversionIsVerbatim : Obligations.IdentityConversionIsVerbatim := by
  intro i s j mode h hwf hr hc hfmt hmode
  have hplain : j.aop = .plain := by
    obtain ⟨mode', h', hc', hj⟩ := hr.job
    cases hc.symm.trans hc'
    rw [jobOf_aop hj, ← hfmt]
    exact alphaOp_ident_self hmode
  exact ⟨_, exec_of_ready hr, fun k y n hk hy hn => hr.readAt_of_identity hwf hfmt hplain ⟨hk, hy, hn⟩⟩

end Sys2Proof.Safety

namespace Sys2Proof.Machine

open Safety

/-! ### A region of one row (43_converters R223) -/

/-- One end of a conversion with other row strides. -/
def Side.withStrides (sd : Side) (rs : Quad Int) : Side := { sd with rs := rs }

/-- A job with other row strides at both ends. -/
def Job.withStrides (j : Job) (srcRs dstRs : Quad Int) : Job :=
  { j with src := j.src.withStrides srcRs, dst := j.dst.withStrides dstRs }

/-- Operands with another `HEIGHT` and other stride registers have the same job but for its strides. -/
theorem jobOf_withStrides (o : Operands) (height : BitVec 32) (p q : Quad (BitVec 32)) (h : Nat) (mode : AlphaMode) :
    jobOf { o with height := height, src := { o.src with stride := p }, dst := { o.dst with stride := q } } h mode =
      (jobOf o h mode).map fun j => j.withStrides (stridesOf j.src.fmt j.w p) (stridesOf j.dst.fmt j.w q) := by
  unfold jobOf
  dsimp only
  split_ifs
  · rfl
  · cases recognise o.src.fmt <;> cases recognise o.dst.fmt <;> rfl

/-- No plane has more rows than the region (44_buffer_descriptor R251). -/
theorem Fmt.rowCount_le (F : Fmt) (k : Fin 4) (h : Nat) : F.rowCount k h ≤ h := by
  cases F with
  | full F => exact le_rfl
  | sub F =>
    simp only [Fmt.rowCount]
    split_ifs
    · exact le_rfl
    · exact Nat.div_le_self h 2

theorem Fmt.row_eq_zero {F : Fmt} {k : Fin 4} {y : Nat} (hy : y < F.rowCount k 1) : y = 0 :=
  Nat.lt_one_iff.1 (hy.trans_le (F.rowCount_le k 1))

/-- The first row stands at the plane pointer, whatever the stride (20_memory R66). -/
theorem Side.addr_withStrides (sd : Side) (rs : Quad Int) (k : Fin 4) (x off : Nat) :
    (sd.withStrides rs).addr k x 0 off = sd.addr k x 0 off := by
  simp only [Side.addr, addrOf, Side.withStrides, Nat.cast_zero, zero_mul]

theorem Side.rows_withStrides (sd : Side) (rs : Quad Int) (w : Nat) : (sd.withStrides rs).rows w 1 = sd.rows w 1 := by
  refine List.flatMap_congr fun k _ => List.map_congr_left fun y hy => ?_
  rw [Fmt.row_eq_zero (List.mem_range.1 hy)]
  simp only [Side.withStrides, Nat.cast_zero, zero_mul]

theorem pixelByteAddr_withStrides (F : FullFmt) (sd : Side) (rs : Quad Int) (x i : Nat) :
    pixelByteAddr F (sd.withStrides rs) x 0 i = pixelByteAddr F sd x 0 i := by
  simp only [pixelByteAddr, Side.addr_withStrides]

theorem copyWrites_withStrides {j : Job} (hh : j.h = 1) (rs rs' : Quad Int) (rd : Int → Byte) :
    copyWrites rd (j.withStrides rs rs') = copyWrites rd j := by
  refine List.flatMap_congr fun k _ => forRegion_congr fun n y _ hy => ?_
  have hy0 : y = 0 := Fmt.row_eq_zero (hh ▸ hy)
  subst hy0
  simp only [Job.withStrides, Side.withStrides, Nat.cast_zero, zero_mul]

theorem transcodeWrites_withStrides {j : Job} (hh : j.h = 1) (rs rs' : Quad Int) (csc : CscMatrix) (rd : Int → Byte)
    (F G : FullFmt) : transcodeWrites csc rd F G (j.withStrides rs rs') = transcodeWrites csc rd F G j := by
  refine forRegion_congr fun x y _ hy => ?_
  have hy0 : y = 0 := Nat.lt_one_iff.1 (hh ▸ hy)
  subst hy0
  simp only [dstStore_srcColor, storePixelBytes, readColor, Job.withStrides, pixelByteAddr_withStrides]

/-- A job of one row has no 4:2:0 end, whose dimensions are even (43_converters R222). -/
theorem jobOf_one_full {o : Operands} {mode : AlphaMode} {j : Job} (hj : jobOf o 1 mode = some j) :
    j.h = 1 ∧ ∃ F G, j.src.fmt = .full F ∧ j.dst.fmt = .full G := by
  have hh : j.h = 1 := by
    obtain ⟨-, F, G, -, -, rfl⟩ := jobOf_eq_some_iff.1 hj
    rfl
  have hfull : ∀ H, j.src.fmt = .sub H ∨ j.dst.fmt = .sub H → False := by
    intro H hH
    have heven := (jobOf_even hj (hH.imp (⟨H, ·⟩) (⟨H, ·⟩))).2
    omega
  cases hF : j.src.fmt with
  | sub F => exact (hfull F (.inl hF)).elim
  | full F =>
    cases hG : j.dst.fmt with
    | sub G => exact (hfull G (.inr hG)).elim
    | full G => exact ⟨hh, F, G, rfl, rfl⟩

/-- The bytes a job of one row stores do not depend on its strides. -/
theorem Job.writes_withStrides {o : Operands} {mode : AlphaMode} {j : Job} (hj : jobOf o 1 mode = some j)
    (rs rs' : Quad Int) (csc : CscMatrix) (rd : Int → Byte) :
    (j.withStrides rs rs').writes csc rd = j.writes csc rd := by
  obtain ⟨hh, F, G, hF, hG⟩ := jobOf_one_full hj
  have hF' : (j.withStrides rs rs').src.fmt = .full F := hF
  have hG' : (j.withStrides rs rs').dst.fmt = .full G := hG
  by_cases hcopy : F = G ∧ j.aop = .plain
  · obtain ⟨rfl, hplain⟩ := hcopy
    rw [Job.writes_of_copy csc rd hF' hG' hplain, Job.writes_of_copy csc rd hF hG hplain, copyWrites_withStrides hh]
  · rw [Job.writes_of_transcode csc rd hF' hG' hcopy, Job.writes_of_transcode csc rd hF hG hcopy,
      transcodeWrites_withStrides hh]

end Sys2Proof.Machine

namespace Sys2Proof.Safety

open Sys2Proof.Machine

/-- Conversions of two jobs with the same footprints that store the same bytes, on one memory and one platform, leave the
same memory or stop for the same reason. -/
theorem runConversion_sameMemory {s u : State} {h : Nat} {mode : AlphaMode} {j j' : Job}
    (hj : jobOf s.operands h mode = some j) (hj' : jobOf u.operands h mode = some j') (hmem : u.mem = s.mem)
    (hplat : u.platform = s.platform) (hsrc : j'.srcRows = j.srcRows) (hdst : j'.dstRows = j.dstRows)
    (hwrites : ∀ csc rd, j'.writes csc rd = j.writes csc rd) :
    SameMemory (runConversion s h mode) (runConversion u h mode) := by
  have hfoot : j'.footprintsDisjoint = j.footprintsDisjoint := by simp only [Job.footprintsDisjoint, hsrc, hdst]
  have hrows : j'.dstRowsDisjoint = j.dstRowsDisjoint := by simp only [Job.dstRowsDisjoint, hdst]
  have hadm : j'.admitted u.platform = j.admitted s.platform := by simp only [Job.admitted, hsrc, hdst, hplat]
  have hresult : j'.result u.platform.csc u.mem = j.result s.platform.csc s.mem := by
    simp only [Job.result, hwrites, hmem, hplat]
  cases h1 : j.footprintsDisjoint with
  | false =>
    rw [runConversion_of_aliased hj h1, runConversion_of_aliased hj' (hfoot.trans h1)]
    rfl
  | true =>
    cases h2 : j.dstRowsDisjoint with
    | false =>
      rw [runConversion_of_overlappingRows hj h1 h2,
        runConversion_of_overlappingRows hj' (hfoot.trans h1) (hrows.trans h2)]
      rfl
    | true =>
      cases h3 : j.admitted s.platform with
      | false =>
        rw [runConversion_of_unadmitted hj h1 h2 h3,
          runConversion_of_unadmitted hj' (hfoot.trans h1) (hrows.trans h2) (hadm.trans h3)]
        rfl
      | true =>
        rw [runConversion_of_ready hj h1 h2 h3,
          runConversion_of_ready hj' (hfoot.trans h1) (hrows.trans h2) (hadm.trans h3)]
        exact hresult

/-- Settles O54: the two commands have one job but for its strides, which a region of one row does not use. -/
theorem scanlineIgnoresHeightAndStrides : Obligations.ScanlineIgnoresHeightAndStrides := by
  intro alpha s h p q
  rw [exec_of_conversion (i := .conv1d alpha) rfl, exec_of_conversion (i := .conv1d alpha) rfl]
  have hjobs := jobOf_withStrides s.operands h p q 1 alpha
  cases hj : jobOf s.operands 1 alpha with
  | none =>
    rw [hj] at hjobs
    rw [runConversion_of_none hj, runConversion_of_none hjobs]
    rfl
  | some j =>
    rw [hj] at hjobs
    obtain ⟨hh, -⟩ := jobOf_one_full hj
    refine runConversion_sameMemory hj hjobs rfl rfl ?_ ?_ fun _ _ => Job.writes_withStrides hj _ _ _ _
    · simp only [Job.srcRows, Job.withStrides, hh, Side.rows_withStrides]
    · simp only [Job.dstRows, Job.withStrides, hh, Side.rows_withStrides]

end Sys2Proof.Safety
end

section
/-! PROOF. The Buffer Descriptor (O23, O24, O25, O26, O40): the geometry of every plane, the size of a tight buffer, and what
BD.NORM leaves in the stride registers. -/

namespace Sys2Proof.Machine

open Safety

/-! ### Plane geometry (44_buffer_descriptor R250, R251) -/

theorem onePlane_of_mem {F : FullFmt} {size : Nat} (h : (F, size) ∈ packedSizes) : OnePlane (.full F) size := by
  obtain ⟨hpacked, hsize⟩ := packed_of_mem_packedSizes _ h
  refine ⟨planes_of_packed hpacked, fun w _ => ⟨?_, ?_, rfl⟩⟩
  · simp [Fmt.sampleStride, hpacked, hsize]
  · simp [Fmt.rowBytes, hpacked, hsize]

theorem planeIs_of_planar {F : FullFmt} (h : F.planar = true) (k : Fin 4) (w height : Nat) :
    PlaneIs (.full F) k 1 w height w height :=
  ⟨if_pos h, if_pos h, rfl⟩

/-- Settles O40: the one-plane formats share one proof, the planar RGB formats another, and a 4:2:0 plane is a case of the
definitions. -/
theorem planeGeometryIsTheTable : Obligations.PlaneGeometryIsTheTable := by
  have hpacked : ∀ {size : Nat} {Fs : List FullFmt}, (∀ F ∈ Fs, (F, size) ∈ packedSizes) →
      ∀ F ∈ Fs, OnePlane (.full F) size := fun hmem F hF => onePlane_of_mem (hmem F hF)
  refine ⟨hpacked (by decide), hpacked (by decide), hpacked (by decide), onePlane_of_mem (by decide), ?_, ?_, ?_, ?_⟩
  · have hall : ∀ F ∈ [FullFmt.rgbaPlanar, .rgbaPlanarPa], F.planar = true ∧ (Fmt.full F).planes = 4 := by decide
    exact fun F hF => ⟨(hall F hF).2, planeIs_of_planar (hall F hF).1⟩
  · exact ⟨rfl, fun k w h _ => planeIs_of_planar rfl k w h⟩
  · intro F hF
    fin_cases hF <;> exact ⟨rfl, fun _ _ => ⟨⟨rfl, rfl, rfl⟩, ⟨rfl, rfl, rfl⟩, ⟨rfl, rfl, rfl⟩⟩⟩
  · intro F hF
    fin_cases hF <;> exact ⟨rfl, fun _ _ => ⟨⟨rfl, rfl, rfl⟩, ⟨rfl, rfl, rfl⟩⟩⟩

/-! ### The size of a tight buffer (44_buffer_descriptor R260, R262) -/

/-- A sample of plane 0 takes whole bytes, as many as its stride. -/
theorem fmtBps_ident (F : Fmt) : fmtBps F.ident = 8 * F.sampleStride 0 := by
  rcases F with F | F <;> cases F <;> rfl

/-- The rounded-up byte count of R260 is exact. -/
theorem tightSize_eq (F : Fmt) (w h : Nat) :
    tightSize F w h = ((planeIndices F.planes).map fun k => F.sampleStride 0 * w * h / F.sizeScale k).sum := by
  have hbase : (fmtBps F.ident * w * h + 7) / 8 = F.sampleStride 0 * w * h := by
    rw [fmtBps_ident, mul_assoc 8, mul_assoc 8]
    omega
  simp only [tightSize, hbase]

/-- All planes of a full-resolution format together hold `pixelLength` bytes for each pixel. -/
theorem tightSize_full (F : FullFmt) (w h : Nat) : tightSize (.full F) w h = pixelLength F * w * h := by
  have hlength : (planeIndices (Fmt.full F).planes).length * (Fmt.full F).sampleStride 0 = pixelLength F := by
    cases F <;> rfl
  simp only [tightSize_eq, Fmt.sizeScale, Nat.div_one, List.map_const', List.sum_replicate, smul_eq_mul, ← hlength,
    mul_assoc]

theorem writtenOutSize_full (F : FullFmt) (w h : Nat) : writtenOutSize (.full F) w h = pixelLength F * w * h := by
  cases F with
  | gray8 => exact congrArg (· * h) (one_mul w).symm
  | _ => rfl

theorem tightSize_sub (F : SubFmt) (w h : Nat) : tightSize (.sub F) w h = writtenOutSize (.sub F) w h := by
  rw [tightSize_eq]
  cases F with
  | i420 | yv12 =>
    change 1 * w * h / 1 + (1 * w * h / 4 + (1 * w * h / 4 + 0)) = w * h + 2 * (w * h / 4)
    rw [one_mul]
    omega
  | nv21 | nv12 =>
    change 1 * w * h / 1 + (1 * w * h / 2 + 0) = w * h + w * h / 2
    rw [one_mul, Nat.div_one, add_zero]

theorem tightSize_eq_writtenOutSize (F : Fmt) (w h : Nat) : tightSize F w h = writtenOutSize F w h := by
  cases F with
  | full F => rw [tightSize_full, writtenOutSize_full]
  | sub F => exact tightSize_sub F w h

/-- Settles O23: BD.SIZE answers `tightSize`, which is the written-out size. -/
theorem sizeCommandAnswersTightSize : Obligations.SizeCommandAnswersTightSize :=
  fun _ _ => ⟨execBdSize_of_none, fun F hF => tightSize_eq_writtenOutSize F _ _ ▸ execBdSize_of_some hF, rfl⟩

/-- With even dimensions the scale of a plane divides the size exactly, and what is left is the bytes of its rows. -/
theorem size_eq_scale_mul_rows (F : Fmt) (k : Fin 4) {w h : Nat} (hw : w % 2 = 0) (hh : h % 2 = 0) :
    F.sampleStride 0 * w * h = F.sizeScale k * (F.rowBytes k w * F.rowCount k h) := by
  obtain ⟨a, rfl⟩ := Nat.dvd_of_mod_eq_zero hw
  obtain ⟨b, rfl⟩ := Nat.dvd_of_mod_eq_zero hh
  have htwo : ∀ n : Nat, 2 * n / 2 = n := fun n => Nat.mul_div_cancel_left n two_pos
  cases F with
  | full F =>
    simp only [Fmt.sampleStride, Fmt.sizeScale, Fmt.rowBytes, Fmt.rowCount]
    split <;> ring
  | sub F =>
    by_cases hk : k.val = 0
    · obtain rfl : k = 0 := Fin.ext hk
      cases F <;> simp [Fmt.sampleStride, Fmt.sizeScale, Fmt.rowBytes, Fmt.rowCount]
    · cases F <;>
        simp only [Fmt.sampleStride, Fmt.sizeScale, Fmt.rowBytes, Fmt.rowCount, if_neg hk, htwo, Fin.val_zero, if_true] <;>
        ring

theorem sizeScale_pos (F : Fmt) (k : Fin 4) : 0 < F.sizeScale k := by
  rcases F with F | F
  · exact one_pos
  · cases F <;> fin_cases k <;> decide

/-- Settles O24: the two sums agree plane by plane. -/
theorem tightSizeIsSumOfPlaneBytes : Obligations.TightSizeIsSumOfPlaneBytes := by
  intro F w h hw hh
  have hplane : ∀ k, F.sampleStride 0 * w * h / F.sizeScale k = F.rowBytes k w * F.rowCount k h := fun k =>
    Nat.div_eq_of_eq_mul_right (sizeScale_pos F k) (size_eq_scale_mul_rows F k hw hh)
  simp only [tightSize_eq, hplane]

/-! ### The stride registers after BD.NORM (44_buffer_descriptor R261) -/

theorem quad_ext {α : Type} {p q : Quad α} (h : ∀ k, p.get k = q.get k) : p = q := by
  obtain ⟨p0, p1, p2, p3⟩ := p
  obtain ⟨q0, q1, q2, q3⟩ := q
  exact (Quad.mk.injEq ..).mpr ⟨h 0, h 1, h 2, h 3⟩

@[simp] theorem filledStrides_get (F : Fmt) (w : Nat) (q : Quad (BitVec 32)) (k : Fin 4) :
    (filledStrides F w q).get k = filledStride F w k (q.get k) := by
  fin_cases k <;> rfl

/-- Slot `k`, holding `stride`, is one BD.NORM fills. -/
def SlotFills (F : Fmt) (w : Nat) (k : Fin 4) (stride : BitVec 32) : Prop :=
  k.val < F.planes ∧ fillsStride F w k stride = true

theorem slotFills_iff {F : Fmt} {w : Nat} {k : Fin 4} {stride : BitVec 32} :
    SlotFills F w k stride ↔
      k.val < F.planes ∧ stride.toInt = 0 ∧ 0 < F.rowBytes k w ∧ F.rowBytes k w < 2 ^ 31 := by
  simp only [SlotFills, fillsStride, Bool.and_eq_true, decide_eq_true_eq, and_assoc]

theorem filledStride_of_not {F : Fmt} {w : Nat} {k : Fin 4} {stride : BitVec 32} (h : ¬SlotFills F w k stride) :
    filledStride F w k stride = stride :=
  if_neg h

/-- A register that is filled holds the tight stride, as an unsigned and as a signed number. -/
theorem filledStride_of_fills {F : Fmt} {w : Nat} {k : Fin 4} {stride : BitVec 32} (h : SlotFills F w k stride) :
    (filledStride F w k stride).toNat = F.rowBytes k w ∧ (filledStride F w k stride).toInt = F.rowBytes k w := by
  obtain ⟨-, -, -, hlt⟩ := slotFills_iff.1 h
  have hnat : (filledStride F w k stride).toNat = F.rowBytes k w := by
    have hfilled : filledStride F w k stride = BitVec.ofNat 32 (F.rowBytes k w) := if_pos h
    rw [hfilled, BitVec.toNat_ofNat, Nat.mod_eq_of_lt (by omega)]
  exact ⟨hnat, by rw [BitVec.toInt_eq_toNat_of_lt (by omega), hnat]⟩

/-- A second BD.NORM finds no register to fill: one that was filled holds a stride that is not 0. -/
theorem not_slotFills_filledStride (F : Fmt) (w : Nat) (k : Fin 4) (stride : BitVec 32) :
    ¬SlotFills F w k (filledStride F w k stride) := by
  by_cases h : SlotFills F w k stride
  · intro hagain
    obtain ⟨-, hzero, hpos, -⟩ := slotFills_iff.1 hagain
    have hint := (filledStride_of_fills h).2
    omega
  · rwa [filledStride_of_not h]

theorem filledStrides_idem (F : Fmt) (w : Nat) (q : Quad (BitVec 32)) :
    filledStrides F w (filledStrides F w q) = filledStrides F w q := by
  refine quad_ext fun k => ?_
  rw [filledStrides_get, filledStrides_get]
  exact filledStride_of_not (not_slotFills_filledStride F w k _)

theorem filledCount_filledStrides (F : Fmt) (w : Nat) (q : Quad (BitVec 32)) :
    filledCount F w (filledStrides F w q) = 0 := by
  rw [filledCount, List.length_eq_zero_iff, List.filter_eq_nil_iff]
  intro k hk hfills
  rw [filledStrides_get] at hfills
  exact not_slotFills_filledStride F w k _ ⟨mem_planeIndices.1 hk, hfills⟩

/-- The count of BD.NORM fits `RESULT`. -/
theorem toNat_ofNat_filledCount (F : Fmt) (w : Nat) (q : Quad (BitVec 32)) :
    (BitVec.ofNat 64 (filledCount F w q)).toNat = filledCount F w q := by
  have hle : filledCount F w q ≤ 4 := (List.length_filter_le _ _).trans (List.length_filter_le _ _)
  rw [BitVec.toNat_ofNat, Nat.mod_eq_of_lt (by omega)]

theorem State.setStrides_self (s : State) (sel : Sel) : s.setStrides sel (s.descriptor sel).stride = s := by
  cases sel <;> rfl

theorem State.setStrides_descriptor_fmt (s : State) (sel : Sel) (q : Quad (BitVec 32)) :
    ((s.setStrides sel q).descriptor sel).fmt = (s.descriptor sel).fmt := by
  cases sel <;> rfl

/-- BD.NORM run again at once answers 0 and changes nothing else. -/
theorem execBdNorm_again {sel : Sel} {s t : State} {F : Fmt} (hF : recognise (s.descriptor sel).fmt = some F)
    (ht : execBdNorm sel s = .next t) : execBdNorm sel t = .next { t with result := 0#64 } := by
  obtain rfl := Host.Outcome.next.inj ((execBdNorm_of_some hF).symm.trans ht)
  set t := (s.setStrides sel _).completeWith _
  have hFt : recognise (t.descriptor sel).fmt = some F := by
    rw [State.completeWith_descriptor, State.setStrides_descriptor_fmt, hF]
  have hstride : (t.descriptor sel).stride = filledStrides F t.width.toNat (s.descriptor sel).stride := by
    rw [State.completeWith_descriptor, State.setStrides_descriptor, State.completeWith_width, State.setStrides_width]
  rw [execBdNorm_of_some hFt, hstride, filledStrides_idem, filledCount_filledStrides, ← hstride, State.setStrides_self]
  rfl

/-- Settles O25: each stride register by itself, the count as the length of a list without repetition, and the frame of
every command that completes. -/
theorem normCommandFillsZeroStrides : Obligations.NormCommandFillsZeroStrides := by
  refine fun sel s => ⟨execBdNorm_of_none, ?_, rfl, rfl⟩
  intro F hF fills
  have hfills : ∀ k, fills k ↔ SlotFills F s.width.toNat k ((s.descriptor sel).stride.get k) :=
    fun _ => slotFills_iff.symm
  have ht : exec (.bdNorm sel) s = _ := execBdNorm_of_some hF
  have hdone := completes_of_exec ht
  refine ⟨_, ht, hdone.sameBut, hdone.status, hdone.mem rfl, fun other hne => ?_, fun k => ?_,
    ⟨_, (nodup_planeIndices F.planes).filter _, fun k => ?_, toNat_ofNat_filledCount ..⟩, execBdNorm_again hF ht⟩
  · rw [State.completeWith_descriptor, State.setStrides_descriptor_ne s hne]
  · rw [State.completeWith_descriptor, State.setStrides_descriptor, filledStrides_get, hfills]
    exact ⟨fun h => (filledStride_of_fills h).1, filledStride_of_not⟩
  · rw [hfills, List.mem_filter, mem_planeIndices, SlotFills]

/-! ### Conversions after BD.NORM (44_buffer_descriptor R253, R262) -/

/-- A filled register stands for the stride that a 0 in its place stood for. -/
theorem normStride_filledStride (F : Fmt) (k : Fin 4) (w : Nat) (stride : BitVec 32) :
    normStride F k w (filledStride F w k stride).toInt = normStride F k w stride.toInt := by
  by_cases h : SlotFills F w k stride
  · obtain ⟨-, hzero, -, -⟩ := slotFills_iff.1 h
    rw [(filledStride_of_fills h).2, hzero, normStride, normStride, if_pos rfl]
    exact ite_self _
  · rw [filledStride_of_not h]

theorem stridesOf_filledStrides (F : Fmt) (w : Nat) (q : Quad (BitVec 32)) :
    stridesOf F w (filledStrides F w q) = stridesOf F w q := by
  refine quad_ext fun k => ?_
  rw [stridesOf_get, stridesOf_get, filledStrides_get, normStride_filledStride]

theorem jobOf_filledStrides_src {o : Operands} {F : Fmt} (hF : recognise o.src.fmt = some F) (h : Nat)
    (mode : AlphaMode) :
    jobOf { o with src := { o.src with stride := filledStrides F o.width.toNat o.src.stride } } h mode =
      jobOf o h mode := by
  simp only [jobOf, hF]
  cases recognise o.dst.fmt with
  | none => rfl
  | some G => simp only [sideOf, stridesOf_filledStrides]

theorem jobOf_filledStrides_dst {o : Operands} {G : Fmt} (hG : recognise o.dst.fmt = some G) (h : Nat)
    (mode : AlphaMode) :
    jobOf { o with dst := { o.dst with stride := filledStrides G o.width.toNat o.dst.stride } } h mode =
      jobOf o h mode := by
  simp only [jobOf, hG]
  cases recognise o.src.fmt with
  | none => rfl
  | some F => simp only [sideOf, stridesOf_filledStrides]

/-- BD.NORM leaves the job of every conversion as it was. -/
theorem jobOf_of_bdNorm {sel : Sel} {s t : State} (ht : execBdNorm sel s = .next t) (h : Nat) (mode : AlphaMode) :
    jobOf t.operands h mode = jobOf s.operands h mode := by
  cases hF : recognise (s.descriptor sel).fmt with
  | none =>
    obtain rfl := Host.Outcome.next.inj ((execBdNorm_of_none hF).symm.trans ht)
    rfl
  | some F =>
    obtain rfl := Host.Outcome.next.inj ((execBdNorm_of_some hF).symm.trans ht)
    cases sel with
    | src => exact jobOf_filledStrides_src (o := s.operands) hF h mode
    | dst => exact jobOf_filledStrides_dst (o := s.operands) hF h mode

/-- One conversion job, on one memory and one platform, leaves one memory or stops for one reason. -/
theorem runConversion_sameMemory_of_jobOf {s u : State} {h : Nat} {mode : AlphaMode}
    (hjob : jobOf u.operands h mode = jobOf s.operands h mode) (hmem : u.mem = s.mem)
    (hplat : u.platform = s.platform) : SameMemory (runConversion s h mode) (runConversion u h mode) := by
  refine (runConversion_alike hmem hplat ?_).sameMemory
  rw [hjob]
  cases jobOf s.operands h mode with
  | none => exact .none
  | some j => exact .some (.refl j)

/-- BD.NORM leaves alone what a conversion takes of the machine beside its job. -/
theorem bdNorm_mem_platform_height {sel : Sel} {s t : State} (ht : exec (.bdNorm sel) s = .next t) :
    t.mem = s.mem ∧ t.platform = s.platform ∧ t.height = s.height := by
  have hdone := completes_of_exec ht
  obtain ⟨-, -, hheight, -, -, -, -, -, -, -, -, hplat⟩ := hdone.sameBut
  exact ⟨hdone.mem rfl, hplat, hheight⟩

/-- Settles O26: both runs of BD.NORM leave the conversion's job, memory and platform as they were. -/
theorem conversionAfterNormIsUnchanged : Obligations.ConversionAfterNormIsUnchanged := by
  intro s t u i mode h hc ht hu
  obtain ⟨htmem, htplat, htheight⟩ := bdNorm_mem_platform_height ht
  obtain ⟨humem, huplat, huheight⟩ := bdNorm_mem_platform_height hu
  rw [exec_of_conversion hc, exec_of_conversion ((conversionOf_congr (huheight.trans htheight) i).trans hc)]
  exact runConversion_sameMemory_of_jobOf ((jobOf_of_bdNorm hu h mode).trans (jobOf_of_bdNorm ht h mode))
    (humem.trans htmem) (huplat.trans htplat)

end Sys2Proof.Machine
end

section
/-! PROOF. Reset and the withdrawal of memory (O57, O58, O59, O60): what a platform admits once a region is gone, what the
registers and memory hold after a reset, and what every command does on the reset machine. -/

namespace Sys2Proof

/-! ### The admission map after a withdrawal (20_memory R68, 70_reset_and_hazards R300) -/

/-- Admission of an address for one right, to read or to write: the rule the two share (20_memory R68). -/
def Platform.admits (p : Platform) (right : Region → Bool) (a : Int) : Bool :=
  p.namesByte a && p.regions.any fun r => right r && r.backs a.toNat

theorem Platform.admitsRead_eq (p : Platform) (a : Int) : p.admitsRead a = p.admits Region.readable a := rfl

theorem Platform.admitsWrite_eq (p : Platform) (a : Int) : p.admitsWrite a = p.admits Region.writable a := rfl

theorem Platform.admits_iff {p : Platform} {right : Region → Bool} {a : Int} :
    p.admits right a = true ↔
      p.namesByte a = true ∧ ∃ r ∈ p.regions, right r = true ∧ r.backs a.toNat = true := by
  simp only [Platform.admits, Bool.and_eq_true, List.any_eq_true]

end Sys2Proof

namespace Sys2Proof.Machine

open Safety

section
variable {s : State} {i : Nat} {right : Region → Bool} {a : Int}

theorem State.namesByte_unmap : (s.unmap i).platform.namesByte a = s.platform.namesByte a := rfl

/-- After the withdrawal of region `i`, an address is admitted where a region of another number gives the right. -/
theorem State.admits_unmap_iff :
    (s.unmap i).platform.admits right a = true ↔
      s.platform.namesByte a = true ∧
        ∃ j r, j ≠ i ∧ s.platform.regions[j]? = some r ∧ right r = true ∧ r.backs a.toNat = true := by
  rw [Platform.admits_iff, State.namesByte_unmap, State.unmap_platform]
  refine and_congr_right fun _ => ⟨fun ⟨r, hr, hadm⟩ => ?_, fun ⟨j, r, hne, hj, hadm⟩ => ?_⟩
  · obtain ⟨j, hne, hj⟩ := List.mem_eraseIdx_iff_getElem?.1 hr
    exact ⟨j, r, hne, hj, hadm⟩
  · exact ⟨r, List.mem_eraseIdx_iff_getElem?.2 ⟨j, hne, hj⟩, hadm⟩

/-- A withdrawal admits no address that was not admitted. -/
theorem State.admits_of_unmap (h : (s.unmap i).platform.admits right a = true) : s.platform.admits right a = true := by
  obtain ⟨hn, j, r, -, hj, hright, hback⟩ := State.admits_unmap_iff.1 h
  exact Platform.admits_iff.2 ⟨hn, r, List.mem_of_getElem? hj, hright, hback⟩

/-- An address that another region gives the right to is admitted as before. -/
theorem State.admits_unmap_of_other
    (h : ∃ j r, j ≠ i ∧ s.platform.regions[j]? = some r ∧ right r = true ∧ r.backs a.toNat = true) :
    (s.unmap i).platform.admits right a = s.platform.admits right a :=
  Bool.eq_iff_iff.2 ⟨State.admits_of_unmap, fun hs => State.admits_unmap_iff.2 ⟨(Platform.admits_iff.1 hs).1, h⟩⟩

/-- An address that only region `i` backs is admitted no longer. -/
theorem State.admits_unmap_of_only
    (h : ∀ j r, s.platform.regions[j]? = some r → r.backs a.toNat = true → j = i) :
    (s.unmap i).platform.admits right a = false := by
  refine Bool.eq_false_iff.2 fun hadm => ?_
  obtain ⟨-, j, r, hne, hj, -, hback⟩ := State.admits_unmap_iff.1 hadm
  exact hne (h j r hj hback)

end

/-- Settles O57: the event is the withdrawal itself, and reads and writes are admitted after it by one rule. -/
theorem unmapWithdrawsARegion : Obligations.UnmapWithdrawsARegion := by
  intro s i rest hs
  simp only [Platform.admitsRead_eq, Platform.admitsWrite_eq]
  exact ⟨(s.unmap i).platform, step_of_cons hs, rfl, rfl, rfl, rfl, fun _ => State.admits_of_unmap,
    fun _ => State.admits_of_unmap, fun _ => State.admits_unmap_of_other, fun _ => State.admits_unmap_of_other,
    fun _ h => ⟨State.admits_unmap_of_only h, State.admits_unmap_of_only h⟩⟩

/-! ### The registers after a reset (70_reset_and_hazards R290) -/

theorem State.slot_reset (q : Reg) : State.reset.slot q = 0#64 := by
  cases q with
  | srcPtr k | srcStride k | dstPtr k | dstStride k => fin_cases k <;> rfl
  | _ => rfl

/-- A reset in any state leaves the registers of the reset machine. -/
theorem State.slot_hardReset (s : State) (q : Reg) : s.hardReset.slot q = 0#64 := by
  have hsame : s.hardReset.slot q = State.reset.slot q := by cases q <;> rfl
  rw [hsame, State.slot_reset]

theorem step_reset {s : State} {rest : List Event} (hs : s.schedule = .reset :: rest) :
    step s = .next (State.hardReset { s with schedule := rest }) := step_of_cons hs

/-- Settles O58: the slots of the reset machine are those after any reset, and the rest is a field each. -/
theorem resetZeroesEveryRegister : Obligations.ResetZeroesEveryRegister :=
  ⟨fun n => State.slot_reset (regOfNumber n), fun _ _ hs =>
    ⟨_, step_reset hs, fun n => State.slot_hardReset _ (regOfNumber n), State.hardReset_busy _, rfl, rfl, rfl⟩⟩

/-! ### The memory after a reset (70_reset_and_hazards R291) -/

/-- A reset of an idle engine, or of one whose command accesses no memory, leaves memory alone. -/
theorem State.memAfterReset_of_no_job {s : State} (h : s.busy = false ∨ commandJob s.operands = none) :
    s.memAfterReset = s.mem := by
  have hnil : s.abandonedAddrs = [] := by
    refine List.eq_nil_iff_forall_not_mem.2 fun a ha => ?_
    obtain ⟨hb, j, hj, -⟩ := State.mem_abandonedAddrs_iff.1 ha
    rcases h with h | h
    · exact Bool.false_ne_true (h.symm.trans hb)
    · exact Option.some_ne_none j (hj.symm.trans h)
  rw [State.memAfterReset, hnil]
  rfl

/-- A reset frees no byte outside the destination footprint of the abandoned command. -/
theorem State.memAfterReset_unchangedOutside {s : State} {j : Job} (hj : commandJob s.operands = some j) :
    UnchangedOutside j s.mem s.memAfterReset := by
  intro a ha
  refine Memory.read_storeAt_of_not_mem _ _ fun w hw he => ?_
  obtain ⟨b, hb, rfl⟩ := List.mem_map.1 hw
  obtain ⟨-, j', hj', hrow, hname⟩ := State.mem_abandonedAddrs_iff.1 hb
  obtain rfl := Option.some.inj (hj.symm.trans hj')
  have hba : b = (a : Int) := (Int.toNat_of_nonneg (namesByte_bounds hname).1).symm.trans (congrArg Nat.cast he)
  exact Bool.false_ne_true (ha.symm.trans (hba ▸ hrow))

/-- Every byte a reset frees holds its free value (log entry 11), however often the footprint names it. -/
theorem State.read_memAfterReset_of_mem {s : State} (hm : s.mem.wf) {a : Nat} (ha : (a : Int) ∈ s.abandonedAddrs) :
    s.memAfterReset.read a = Config.abandonedByte s.freeCount a := by
  refine Memory.read_writeAll_of_agree hm ?_ ?_
  · simp only [List.map_map, List.mem_map]
    rintro w ⟨b, -, rfl⟩ rfl
    rfl
  · simp only [List.map_map, List.mem_map]
    exact ⟨a, ha, rfl⟩

/-- Settles O59: the abandoned addresses are the bytes of `DstFoot`; each is stored its free value, and nothing else is
stored. -/
theorem resetFreesExactlyTheDestination : Obligations.ResetFreesExactlyTheDestination := fun s _ hs =>
  ⟨_, step_reset hs, State.memAfterReset_wf (s := s), State.memAfterReset_of_no_job (s := s),
    fun _ => State.memAfterReset_unchangedOutside (s := s), fun j hm hb hj _ hrow hname =>
    State.read_memAfterReset_of_mem (s := s) hm (State.mem_abandonedAddrs_iff.2 ⟨hb, j, hj, hrow, hname⟩)⟩

/-! ### Commands on the reset machine (70_reset_and_hazards R292) -/

theorem State.reset_descriptor_fmt (sel : Sel) : (State.reset.descriptor sel).fmt = 0 := by
  cases sel <;> rfl

/-- On the reset registers a conversion is a no-op: the identifier 0 is not recognised (43_converters R222). -/
theorem jobOf_reset (h : Nat) (mode : AlphaMode) : jobOf State.reset.operands h mode = none :=
  jobOf_eq_none_iff.2 (isNoOp_eq_true_iff.2 (.inr (.inl recognise_none_format)))

/-- Every command on the reset machine only completes, a query with its answer for the identifier 0. -/
theorem exec_reset (i : Instr) :
    exec i State.reset = .next (State.reset.completeWith (BitVec.ofNat 64 (queryFunction i 0))) := by
  have hnone : ∀ sel, recognise (State.reset.descriptor sel).fmt = none := fun sel => by
    rw [State.reset_descriptor_fmt, recognise_none_format]
  cases i with
  | nop => rfl
  | conv1d alpha | conv2d alpha => exact runConversion_of_none (jobOf_reset _ alpha)
  | bdSize sel => exact execBdSize_of_none (hnone sel)
  | bdNorm sel => exact execBdNorm_of_none (hnone sel)
  | _ sel => exact exec_query_of_eq (sel := sel) rfl (by rw [State.reset_descriptor_fmt])

/-- Settles O60: completion moves `STATUS` and `RESULT` alone, and of the query functions only `planes` is not 0 at 0. -/
theorem commandsAfterResetAreHarmless : Obligations.CommandsAfterResetAreHarmless := by
  refine fun i => ⟨_, exec_reset i, rfl, rfl, ?_⟩
  cases i <;> rfl

end Sys2Proof.Machine
end
